-- ==== Sys2Proof/Word.lean ====
section
/-! DEFINITION. The plain value types of the block: command words, bytes, symbols, codes (`00_scope.md` R5, R8).
All values are unsigned; bit `i` of a value has weight `2^i` (R8). -/

namespace Sys2Proof

/-- A command word, 32 bits (`CMDW`, R5, R70). -/
abbrev Word := BitVec 32

/-- One byte of the encoded bitstream (`BYTEW`, R5). -/
abbrev Byte := BitVec 8

/-- A symbol, one byte value (`SYMW`, R5, R12). -/
abbrev Sym := BitVec 8

/-- A code as an L-bit value, L = 7 (R5, R77). -/
abbrev Code := BitVec 7

end Sys2Proof
end

