-- ==== Sys2Proof/Config.lean ====
section
/-! DEFINITION. The parameters of the block (`00_scope.md` R5). They are constants of the hardware, not state (`10_state.md` R40). -/

namespace Sys2Proof.Config

/-- `L`: width in bits of every code and of the sentinel (R5). -/
abbrev codeLen : Nat := 7

/-- `SENT`: the sentinel, the all-ones code (R5, R78). -/
def sent : Code := 127#7

/-- `NCB`: capacity of each codebook table, in entries (R5; `92_eei_decisions.md` D7). -/
def ncb : Nat := 127

/-- `BUFCAP`: capacity of the decoder's bit buffer, in bits (R5).
The spec leaves it OPEN with this default (`92_eei_decisions.md` D16): the operations that use it take it as an argument,
and only the meaning of `DEC.BYTE` fixes it to this value. DESIGN CHOICE, unsafe for a block built with another capacity (log 7). -/
def bufCap : Nat := 13

end Sys2Proof.Config
end

