-- ==== Sys2Proof/Machine/Operands.lean ====
section
/-! DEFINITION. Bit sequences (`00_scope.md` R9) and the operand fields of a command word (`30_encoding.md` R71, R72). -/

namespace Sys2Proof.Machine

/-! ### Bit sequences (R9). The head of the list is the first, oldest bit. -/

/-- `bits_MSB(v, n)`: the bits of `v`, most significant first (R9). -/
def bitsMSB {n : Nat} (v : BitVec n) : List Bool := (List.range n).map fun i => v.getMsbD i

/-- `val(s)`: the unsigned value of a bit sequence, first bit most significant (R9). -/
def val (s : List Bool) : Nat := s.foldl (fun a b => 2 * a + b.toNat) 0

/-- `last_n(s, n)`: the trailing `n` bits (R9). -/
def lastN (s : List Bool) (n : Nat) : List Bool := s.drop (s.length - n)

/-- `drop_last_n(s, n)` (R9). -/
def dropLastN (s : List Bool) (n : Nat) : List Bool := s.take (s.length - n)

/-! ### Operand fields of a command word (R71, R72): each one contiguous, taken as it stands. -/

/-- `op = cw[31:28]` (R71). -/
def opField (w : Word) : BitVec 4 := w.extractLsb' 28 4

/-- `sym = cw[15:8]` (R72). -/
def symField (w : Word) : Sym := w.extractLsb' 8 8

/-- `code = cw[6:0]` (R72). -/
def codeField (w : Word) : Code := w.extractLsb' 0 7

/-- `byte = cw[7:0]` (R72). -/
def byteField (w : Word) : Byte := w.extractLsb' 0 8

end Sys2Proof.Machine
end

