-- ==== Sys2Proof/Syntax.lean ====
section
/-! DEFINITION. The nine commands of `spec/opcode_table.json` (`30_encoding.md` R73) and the command of an assembler line (R86). -/

namespace Sys2Proof

/-- A command port, and the unit behind it (`20_memory.md` R53): `enc` is `enc_cmd` and ENC, `dec` is `dec_cmd` and DEC. -/
inductive Port where
  | enc
  | dec
  deriving DecidableEq, Repr

/-- The mnemonics of the opcode map (R73). -/
inductive Mnemonic where
  | encReset | encLoad | encSym | encCode | encFinish
  | decReset | decLoad | decByte | decEnd
  deriving DecidableEq, Repr

/-- The five formats of a command word (R71). -/
inductive Format where
  | z | sc | s | c | b
  deriving DecidableEq, Repr

/-- A command with its operands (R72, R73). One constructor per row of the opcode table. -/
inductive Instr where
  /-- `ENC.RESET` (`41_encoder.md` R127). -/
  | encReset
  /-- `ENC.LOAD sym, code` (`40_codebook.md` R101). -/
  | encLoad (sym : Sym) (code : Code)
  /-- `ENC.SYM sym` (`41_encoder.md` R124). -/
  | encSym (sym : Sym)
  /-- `ENC.CODE code` (`41_encoder.md` R123). -/
  | encCode (code : Code)
  /-- `ENC.FINISH` (`41_encoder.md` R126). -/
  | encFinish
  /-- `DEC.RESET` (`42_decoder.md` R158). -/
  | decReset
  /-- `DEC.LOAD sym, code` (`40_codebook.md` R102). -/
  | decLoad (sym : Sym) (code : Code)
  /-- `DEC.BYTE byte` (`42_decoder.md` R156). -/
  | decByte (byte : Byte)
  /-- `DEC.END` (`42_decoder.md` R157). -/
  | decEnd
  deriving DecidableEq, Repr

/-- The row of the opcode map an instruction belongs to (R73). -/
def Instr.mnemonic : Instr → Mnemonic
  | .encReset => .encReset
  | .encLoad _ _ => .encLoad
  | .encSym _ => .encSym
  | .encCode _ => .encCode
  | .encFinish => .encFinish
  | .decReset => .decReset
  | .decLoad _ _ => .decLoad
  | .decByte _ => .decByte
  | .decEnd => .decEnd

/-- The unit a mnemonic names (R73, column "unit"). -/
def Mnemonic.port : Mnemonic → Port
  | .encReset | .encLoad | .encSym | .encCode | .encFinish => .enc
  | .decReset | .decLoad | .decByte | .decEnd => .dec

/-- The format of a mnemonic's word (R73, column "format"). -/
def Mnemonic.format : Mnemonic → Format
  | .encReset | .encFinish | .decReset | .decEnd => .z
  | .encLoad | .decLoad => .sc
  | .encSym => .s
  | .encCode => .c
  | .decByte => .b

/-- The unit an instruction acts on. -/
def Instr.port (i : Instr) : Port := i.mnemonic.port

/-- A command as an assembler line writes it: a mnemonic and its operands as numbers (R86).
`WellFormed.lean` checks it. -/
structure SourceCommand where
  mnemonic : Mnemonic
  operands : List Nat
  deriving DecidableEq, Repr

/-- The command an instruction is written as, operands in the order of R73. -/
def Instr.toSource : Instr → SourceCommand
  | .encReset => ⟨.encReset, []⟩
  | .encLoad sym code => ⟨.encLoad, [sym.toNat, code.toNat]⟩
  | .encSym sym => ⟨.encSym, [sym.toNat]⟩
  | .encCode code => ⟨.encCode, [code.toNat]⟩
  | .encFinish => ⟨.encFinish, []⟩
  | .decReset => ⟨.decReset, []⟩
  | .decLoad sym code => ⟨.decLoad, [sym.toNat, code.toNat]⟩
  | .decByte byte => ⟨.decByte, [byte.toNat]⟩
  | .decEnd => ⟨.decEnd, []⟩

end Sys2Proof
end

