-- ==== Sys2Proof/WellFormed.lean ====
section
/-! DEFINITION. Well-formed commands (`30_encoding.md` R72, R73, R86).
The operands of `Instr` carry their widths in their types, so the checks stand where an operand is still a number:
the number of operands and the range of each, which the assembler refuses a line by (R86).
`code = 127` is in range: it is a legal word that faults at execution (R74 (f), R86). -/

namespace Sys2Proof

/-- The operands of a source command are those of its format, each in the range of R72. -/
def SourceCommand.wellFormed (c : SourceCommand) : Bool :=
  match c.mnemonic.format, c.operands with
  | .z, [] => true
  | .sc, [sym, code] => decide (sym < 256) && decide (code < 128)
  | .s, [sym] => decide (sym < 256)
  | .c, [code] => decide (code < 128)
  | .b, [byte] => decide (byte < 256)
  | _, _ => false

/-- The instruction a source command stands for, if it is well formed. -/
def SourceCommand.toInstr (c : SourceCommand) : Option Instr :=
  if c.wellFormed then
    match c.mnemonic, c.operands with
    | .encReset, [] => some .encReset
    | .encLoad, [sym, code] => some (.encLoad (BitVec.ofNat 8 sym) (BitVec.ofNat 7 code))
    | .encSym, [sym] => some (.encSym (BitVec.ofNat 8 sym))
    | .encCode, [code] => some (.encCode (BitVec.ofNat 7 code))
    | .encFinish, [] => some .encFinish
    | .decReset, [] => some .decReset
    | .decLoad, [sym, code] => some (.decLoad (BitVec.ofNat 8 sym) (BitVec.ofNat 7 code))
    | .decByte, [byte] => some (.decByte (BitVec.ofNat 8 byte))
    | .decEnd, [] => some .decEnd
    | _, _ => none
  else none

/-- An instruction is well formed when the command it is written as is. -/
def Instr.wellFormed (i : Instr) : Bool := i.toSource.wellFormed

end Sys2Proof
end

