-- ==== Sys2Proof/Decode.lean ====
section
/-! DEFINITION. Decoding a command word on a port (`30_encoding.md` R70 to R75), and encoding an instruction (R71 to R73). -/

namespace Sys2Proof

open Machine

/-- Why a word is no command of the port it arrived on (R74). All three raise `ILLEGAL_CMD`; the names are the model's (log 19). -/
inductive Illegal where
  /-- A reserved opcode (R74 (a)). -/
  | reservedOpcode
  /-- An opcode of the other unit (R74 (c)). -/
  | otherUnit
  /-- A must-be-zero bit is set (R74 (b)). -/
  | reservedBits
  deriving DecidableEq, Repr

/-- A row of the opcode map: a word is the command exactly when its masked bits are `bits` (R73). -/
structure Row where
  mnemonic : Mnemonic
  bits : Word
  mask : Word
  deriving DecidableEq, Repr

/-- The opcode map (R73; `spec/opcode_table.json`). -/
def opcodeMap : List Row :=
  [ ⟨.encReset,  0x10000000#32, 0xFFFFFFFF#32⟩,
    ⟨.encLoad,   0x20000000#32, 0xFFFF0080#32⟩,
    ⟨.encSym,    0x30000000#32, 0xFFFF00FF#32⟩,
    ⟨.encCode,   0x40000000#32, 0xFFFFFF80#32⟩,
    ⟨.encFinish, 0x50000000#32, 0xFFFFFFFF#32⟩,
    ⟨.decReset,  0x90000000#32, 0xFFFFFFFF#32⟩,
    ⟨.decLoad,   0xA0000000#32, 0xFFFF0080#32⟩,
    ⟨.decByte,   0xB0000000#32, 0xFFFFFF00#32⟩,
    ⟨.decEnd,    0xC0000000#32, 0xFFFFFFFF#32⟩ ]

/-- `cw AND mask = match` (R73). -/
def Row.holds (r : Row) (w : Word) : Bool := decide (w &&& r.mask = r.bits)

/-- The row of the port's unit that a word is, if any (R75). -/
def findRow (p : Port) (w : Word) : Option Row :=
  opcodeMap.find? fun r => decide (r.mnemonic.port = p) && r.holds w

/-- The command of a row, its operands taken from the word (R72, R75). -/
def withOperands (m : Mnemonic) (w : Word) : Instr :=
  match m with
  | .encReset => .encReset
  | .encLoad => .encLoad (symField w) (codeField w)
  | .encSym => .encSym (symField w)
  | .encCode => .encCode (codeField w)
  | .encFinish => .encFinish
  | .decReset => .decReset
  | .decLoad => .decLoad (symField w) (codeField w)
  | .decByte => .decByte (byteField w)
  | .decEnd => .decEnd

/-- The unit an opcode belongs to; `none` for the reserved opcodes 0, 6, 7, 8, D, E, F (R73, R74 (a)). -/
def opcodePort (op : BitVec 4) : Option Port :=
  if 1#4 ≤ op ∧ op ≤ 5#4 then some .enc
  else if 9#4 ≤ op ∧ op ≤ 12#4 then some .dec
  else none

/-- The reason a word that matches no row is illegal on a port (R74). -/
def whyIllegal (p : Port) (w : Word) : Illegal :=
  match opcodePort (opField w) with
  | none => .reservedOpcode
  | some q => if q = p then .reservedBits else .otherUnit

/-- Decoding: a total function of the port and the word; it reads no state (R75). -/
def decode (p : Port) (w : Word) : Except Illegal Instr :=
  match findRow p w with
  | some r => .ok (withOperands r.mnemonic w)
  | none => .error (whyIllegal p w)

/-! ### Encoding (R71 to R73) -/

/-- The opcode number of a mnemonic (R73, column "op"). -/
def Mnemonic.op : Mnemonic → BitVec 4
  | .encReset => 0x1#4
  | .encLoad => 0x2#4
  | .encSym => 0x3#4
  | .encCode => 0x4#4
  | .encFinish => 0x5#4
  | .decReset => 0x9#4
  | .decLoad => 0xA#4
  | .decByte => 0xB#4
  | .decEnd => 0xC#4

/-- A word of the layout `op, 0, sym, 0, code` of R71, each field at its bits; the formats Z, SC, S and C are this layout with the absent operands zero. -/
def layoutSC (op : BitVec 4) (sym : Sym) (code : Code) : Word :=
  (op.zeroExtend 32 <<< 28) ||| (sym.zeroExtend 32 <<< 8) ||| code.zeroExtend 32

/-- A word of format B: `op, 0, 0, byte` (R71). -/
def layoutB (op : BitVec 4) (byte : Byte) : Word :=
  (op.zeroExtend 32 <<< 28) ||| byte.zeroExtend 32

/-- The command word of an instruction (R71 to R73). -/
def encode (i : Instr) : Word :=
  match i with
  | .encReset => layoutSC i.mnemonic.op 0#8 0#7
  | .encLoad sym code => layoutSC i.mnemonic.op sym code
  | .encSym sym => layoutSC i.mnemonic.op sym 0#7
  | .encCode code => layoutSC i.mnemonic.op 0#8 code
  | .encFinish => layoutSC i.mnemonic.op 0#8 0#7
  | .decReset => layoutSC i.mnemonic.op 0#8 0#7
  | .decLoad sym code => layoutSC i.mnemonic.op sym code
  | .decByte byte => layoutB i.mnemonic.op byte
  | .decEnd => layoutSC i.mnemonic.op 0#8 0#7

/-! ### The host's table words -/

/-- The port a word's bit 31 names: 0 ENC, 1 DEC (R73). Where a word is given without a port, it goes to this one (R86). -/
def portOf (w : Word) : Port := if w.getLsbD 31 then .dec else .enc

/-- A table word of `nbits` bits as a command word; a command word is one parallel 32-bit value with no byte layout
(`20_memory.md` R56), so bit `i` of the number is `cw[i]`. -/
def tableWord (nbits w : Nat) : Word := BitVec.ofNat 32 (w % 2 ^ nbits)

/-- The instruction the decoder reads from a table word, on the port its bit 31 names. -/
def decodeTableWord (nbits w : Nat) : Option Instr :=
  match decode (portOf (tableWord nbits w)) (tableWord nbits w) with
  | .ok i => some i
  | .error _ => none

end Sys2Proof
end

