-- ==== Sys2Proof/Machine/State.lean ====
section
/-! DEFINITION. The state of the block: ENC (`10_state.md` R21 to R28), DEC (R30 to R37), and what the host has still to do.
Values after reset: R41. The views ECBN, DCBN, BLEN, ESTAT and DSTAT are computed from these fields in `Flags.lean` (log 6). -/

namespace Sys2Proof.Machine

/-- One codebook entry, `{sym, code}` (R21). An entry that holds no value is absent from the table's list (R41). -/
structure Entry where
  sym : Sym
  code : Code
  deriving DecidableEq, Repr

/-- `ESTATE`, ENC's sequencing state (R25). -/
inductive EncState where
  | idle | pack | fin | fault
  deriving DecidableEq, Repr

/-- `DSTATE`, DEC's sequencing state (R33). -/
inductive DecState where
  | idle | run | done | ended | fault
  deriving DecidableEq, Repr

/-- A fault cause, the value of `FCAUSE` (`60_exceptions.md` R230); `none` is code 0, no fault recorded.
Codes 7 to 15 are never produced and have no constructor (`93_implementation_defined.md` U11). -/
inductive Cause where
  | none | illegalCmd | illegalState | cbFull | codeSentinel | symUnmapped | bufOverflow
  deriving DecidableEq, Repr

/-- The state of ENC (R21 to R28). -/
structure EncUnit where
  /-- `ECB`, in index order (R21). -/
  cb : List Entry
  /-- `ACC` (R23). -/
  acc : BitVec 8
  /-- `NBITS` (R24). -/
  nbits : BitVec 4
  /-- `ESTATE` (R25). -/
  state : EncState
  /-- `ESTAT.EMPTY` (R26). -/
  empty : Bool
  /-- `ESTAT.FCAUSE` (R26). -/
  fcause : Cause
  /-- `EFCMD` (R27). -/
  fcmd : Word
  /-- `EOUT`, oldest first (R28). -/
  out : List Byte
  deriving DecidableEq, Repr

/-- The state of DEC (R30 to R37). -/
structure DecUnit where
  /-- `DCB`, in index order (R30). -/
  cb : List Entry
  /-- `BUF`, oldest bit first (R32). -/
  buf : List Bool
  /-- `DSTATE` (R33). -/
  state : DecState
  /-- `DSTAT.FCAUSE` (R34). -/
  fcause : Cause
  /-- `DFCMD` (R35). -/
  fcmd : Word
  /-- `DOUT`, oldest first (R36). -/
  out : List Sym
  /-- `RBYTE`, hidden (R37). -/
  rbyte : BitVec 8
  /-- `RCNT`, hidden (R37). -/
  rcnt : BitVec 4
  deriving DecidableEq, Repr

/-- One thing the host does to the block (`00_scope.md` R7). -/
inductive HostEvent where
  /-- A command word accepted on a port (`20_memory.md` R53). -/
  | cmd (p : Port) (w : Word)
  /-- Hardware reset, `rst` = 1 at a clock edge (`70_reset_and_hazards.md` R270 (a)). -/
  | rst
  deriving DecidableEq, Repr

/-- The state of the block (R20), and the host's events still to come, first one first (log 1). -/
structure State where
  enc : EncUnit
  dec : DecUnit
  host : List HostEvent
  deriving DecidableEq, Repr

/-- The reasons for which the machine stops. There are none: every fault of the block is a state of its unit
(`60_exceptions.md` R234, R235), and every accepted word takes a next state (R232; log 12). -/
inductive Fault where
  deriving DecidableEq, Repr

/-- The reasons for which the model has no meaning. -/
inductive Refusal where
  /-- An arm of `exec` that has no meaning yet would answer with this; no arm does. Safe. -/
  | notModelled (mnemonic : String)
  deriving DecidableEq, Repr

/-- ENC after reset (R41). -/
def EncUnit.reset : EncUnit where
  cb := []
  acc := 0#8
  nbits := 0#4
  state := .idle
  empty := false
  fcause := .none
  fcmd := 0#32
  out := []

/-- DEC after reset (R41). RBYTE has no value there: 0 is a DESIGN CHOICE, unsafe (log 4). -/
def DecUnit.reset : DecUnit where
  cb := []
  buf := []
  state := .idle
  fcause := .none
  fcmd := 0#32
  out := []
  rbyte := 0#8
  rcnt := 0#4

/-- The block after hardware reset (R41, `70_reset_and_hazards.md` R270, R271), with nothing from the host yet. -/
def State.reset : State where
  enc := EncUnit.reset
  dec := DecUnit.reset
  host := []

end Sys2Proof.Machine
end

