-- ==== Sys2Proof/Machine/Ops.lean ====
section
/-! DEFINITION. The operations the meanings share: running one unit's command (`60_exceptions.md` R232), fault entry (R234),
the return from a fault, which is reset (R236, R271), the packer and matcher steps (`41_encoder.md` R121, R122, R125;
`42_decoder.md` R151 to R155), the table operations (`40_codebook.md` R101 to R104), and taking the next host event.

Each unit operation is a function of that unit's state alone (`10_state.md` R20). `cw` is the command word being executed. -/

namespace Sys2Proof.Machine

/-! ### Running a command on one unit -/

/-- Change ENC's state and nothing else (`10_state.md` R20). -/
def State.onEnc (f : EncUnit → EncUnit) (s : State) : State := { s with enc := f s.enc }

/-- Change DEC's state and nothing else (`10_state.md` R20). -/
def State.onDec (f : DecUnit → DecUnit) (s : State) : State := { s with dec := f s.dec }

/-- The front end of R232 for a decoded command other than `ENC.RESET`: in FAULT the word is discarded. -/
def EncUnit.unlessFault (f : EncUnit → EncUnit) (e : EncUnit) : EncUnit :=
  if e.state = .fault then e else f e

/-- The front end of R232 for a decoded command other than `DEC.RESET`: in FAULT the word is discarded. -/
def DecUnit.unlessFault (f : DecUnit → DecUnit) (d : DecUnit) : DecUnit :=
  if d.state = .fault then d else f d

/-! ### Fault entry and the way out -/

/-- `raise Fault_E(cause)`: state, cause and command word are recorded, nothing else changes (R234). -/
def EncUnit.raise (cause : Cause) (cw : Word) (e : EncUnit) : EncUnit :=
  { e with state := .fault, fcause := cause, fcmd := cw }

/-- `raise Fault_D(cause)` (R234). -/
def DecUnit.raise (cause : Cause) (cw : Word) (d : DecUnit) : DecUnit :=
  { d with state := .fault, fcause := cause, fcmd := cw }

/-- A unit's reset, the only way out of FAULT: every element takes its value after reset (R236, R271). -/
def EncUnit.toReset (_ : EncUnit) : EncUnit := EncUnit.reset

/-- A unit's reset, the only way out of FAULT: every element takes its value after reset (R236, R271). -/
def DecUnit.toReset (_ : DecUnit) : DecUnit := DecUnit.reset

/-- An illegal word on a port raises `ILLEGAL_CMD` in the unit that received it, unless that unit is in FAULT (R232; `30_encoding.md` R74 (d)). -/
def State.illegalWord (p : Port) (w : Word) (s : State) : State :=
  match p with
  | .enc => s.onEnc (EncUnit.unlessFault (EncUnit.raise .illegalCmd w))
  | .dec => s.onDec (DecUnit.unlessFault (DecUnit.raise .illegalCmd w))

/-! ### Codebook tables -/

/-- The table already holds `NCB` entries (`40_codebook.md` R101, R102). -/
def cbIsFull (cb : List Entry) : Bool := decide (cb.length = Config.ncb)

/-- `LookupSym`: the code of the lowest-index entry with this symbol (`40_codebook.md` R103). -/
def lookupSym (cb : List Entry) (s : Sym) : Option Code :=
  match cb with
  | [] => none
  | entry :: rest => if entry.sym = s then some entry.code else lookupSym rest s

/-- `LookupCode`: the symbol of the lowest-index entry with this code (`40_codebook.md` R104). -/
def lookupCode (cb : List Entry) (w : Code) : Option Sym :=
  match cb with
  | [] => none
  | entry :: rest => if entry.code = w then some entry.sym else lookupCode rest w

/-! ### The Bit Packer -/

/-- `emit_E(b)` (`00_scope.md` R10, `10_state.md` R28). -/
def EncUnit.emit (b : Byte) (e : EncUnit) : EncUnit := { e with out := e.out ++ [b] }

/-- `PackBit(b)` (`41_encoder.md` R121). -/
def EncUnit.packBit (b : Bool) (e : EncUnit) : EncUnit :=
  let acc := (e.acc <<< 1) ||| (BitVec.ofBool b).zeroExtend 8
  let nbits := e.nbits + 1#4
  if nbits = 8#4 then { e.emit acc with acc := 0#8, nbits := 0#4 }
  else { e with acc := acc, nbits := nbits }

/-- Push a sequence of bits, first one first. -/
def EncUnit.packBits (bits : List Bool) (e : EncUnit) : EncUnit :=
  bits.foldl (fun e b => e.packBit b) e

/-- `PackCode(c)`: the seven bits of `c`, most significant first (`41_encoder.md` R122). -/
def EncUnit.packCode (c : Code) (e : EncUnit) : EncUnit := e.packBits (bitsMSB c)

/-- `Flush`: the pending bits, if any, as one final zero-padded byte (`41_encoder.md` R125). -/
def EncUnit.flush (e : EncUnit) : EncUnit :=
  if e.nbits = 0#4 then e
  else { e.emit (e.acc <<< (8 - e.nbits.toNat)) with acc := 0#8, nbits := 0#4 }

/-! ### The Bit Unpacker and greedy matcher -/

/-- `emit_D(s)` (`00_scope.md` R10, `10_state.md` R36). -/
def DecUnit.emit (s : Sym) (d : DecUnit) : DecUnit := { d with out := d.out ++ [s] }

/-- `w = val(last_n(BUF, L))`: the trailing L bits as a code, the oldest of them `w[6]` (`42_decoder.md` R151, R153). -/
def window (buf : List Bool) : Code := BitVec.ofNat 7 (val (lastN buf Config.codeLen))

/-- `DecBit(b)` with a bit buffer of `cap` bits (`42_decoder.md` R151 to R155). -/
def DecUnit.decBit (cap : Nat) (cw : Word) (b : Bool) (d : DecUnit) : DecUnit :=
  if d.buf.length = cap then d.raise .bufOverflow cw
  else
    let buf := d.buf ++ [b]
    if Config.codeLen ≤ buf.length then
      if window buf = Config.sent then { d with buf := buf, state := .done }
      else
        match lookupCode d.cb (window buf) with
        | some s => { d.emit s with buf := dropLastN buf Config.codeLen }
        | none => { d with buf := buf }
    else { d with buf := buf }

/-- The loop of `DEC.BYTE`: deliver bits `n-1` down to 0 of `byte`, while `DSTATE` is RUN (`42_decoder.md` R156). -/
def DecUnit.feedBits (cap : Nat) (cw : Word) (byte : Byte) : Nat → DecUnit → DecUnit
  | 0, d => d
  | n + 1, d =>
    if d.state = .run then
      DecUnit.feedBits cap cw byte n
        (DecUnit.decBit cap cw (byte.getLsbD n) { d with rcnt := d.rcnt - 1#4 })
    else d

/-! ### Host events -/

/-- The next event of the host, if any, and the state with it taken (`20_memory.md` R52; log 1). -/
def State.takeEvent (s : State) : Option (HostEvent × State) :=
  match s.host with
  | [] => none
  | ev :: rest => some (ev, { s with host := rest })

/-- Hardware reset of both units (`70_reset_and_hazards.md` R270 (a), R271). The host keeps what it has still to send. -/
def State.hardReset (s : State) : State := { s with enc := s.enc.toReset, dec := s.dec.toReset }

end Sys2Proof.Machine
end

