-- ==== Sys2Proof/Machine/Codebook.lean ====
section
/-! DEFINITION. The codebook family: `ENC.LOAD` and `DEC.LOAD` (`40_codebook.md`). The recorded command word is the
instruction's own encoding, which is the word that was accepted (log 11). -/

namespace Sys2Proof.Machine

/-- The body of `ENC.LOAD sym, code` (R101). -/
def EncUnit.load (sym : Sym) (code : Code) (cw : Word) (e : EncUnit) : EncUnit :=
  if e.state ≠ .idle then e.raise .illegalState cw
  else if code = Config.sent then e.raise .codeSentinel cw
  else if cbIsFull e.cb then e.raise .cbFull cw
  else { e with cb := e.cb ++ [⟨sym, code⟩] }

/-- The body of `DEC.LOAD sym, code` (R102). -/
def DecUnit.load (sym : Sym) (code : Code) (cw : Word) (d : DecUnit) : DecUnit :=
  if d.state ≠ .idle then d.raise .illegalState cw
  else if code = Config.sent then d.raise .codeSentinel cw
  else if cbIsFull d.cb then d.raise .cbFull cw
  else { d with cb := d.cb ++ [⟨sym, code⟩] }

/-- `ENC.LOAD sym, code` (R101, `60_exceptions.md` R232). -/
def execEncLoad (sym : Sym) (code : Code) (s : State) : Host.Outcome State Fault Refusal :=
  .next (s.onEnc (EncUnit.unlessFault (EncUnit.load sym code (encode (.encLoad sym code)))))

/-- `DEC.LOAD sym, code` (R102, `60_exceptions.md` R232). -/
def execDecLoad (sym : Sym) (code : Code) (s : State) : Host.Outcome State Fault Refusal :=
  .next (s.onDec (DecUnit.unlessFault (DecUnit.load sym code (encode (.decLoad sym code)))))

end Sys2Proof.Machine
end

