-- ==== Sys2Proof/Machine/Decoder.lean ====
section
/-! DEFINITION. The decoder family: `DEC.BYTE`, `DEC.END`, `DEC.RESET` (`42_decoder.md`; transitions R150). -/

namespace Sys2Proof.Machine

/-- The body of `DEC.BYTE byte` with a bit buffer of `cap` bits (R156, R151 to R155). -/
def DecUnit.byte (cap : Nat) (byte : Byte) (cw : Word) (d : DecUnit) : DecUnit :=
  if d.state = .ended then d.raise .illegalState cw
  else if d.state = .done then d
  else DecUnit.feedBits cap cw byte 8 { d with state := .run, rbyte := byte, rcnt := 8#4 }

/-- The body of `DEC.END` (R157). -/
def DecUnit.finish (cw : Word) (d : DecUnit) : DecUnit :=
  if d.state = .ended then d.raise .illegalState cw
  else if d.state = .done then d
  else { d with state := .ended }

/-- `DEC.BYTE byte` (R156, `60_exceptions.md` R232), the buffer being `BUFCAP` bits (log 7). -/
def execDecByte (byte : Byte) (s : State) : Host.Outcome State Fault Refusal :=
  .next (s.onDec (DecUnit.unlessFault (DecUnit.byte Config.bufCap byte (encode (.decByte byte)))))

/-- `DEC.END` (R157, `60_exceptions.md` R232). -/
def execDecEnd (s : State) : Host.Outcome State Fault Refusal :=
  .next (s.onDec (DecUnit.unlessFault (DecUnit.finish (encode .decEnd))))

/-- `DEC.RESET`, in every state, FAULT included (R158, `60_exceptions.md` R232). -/
def execDecReset (s : State) : Host.Outcome State Fault Refusal :=
  .next (s.onDec DecUnit.toReset)

end Sys2Proof.Machine
end

