-- ==== Sys2Proof/Machine/Encoder.lean ====
section
/-! DEFINITION. The encoder family: `ENC.SYM`, `ENC.CODE`, `ENC.FINISH`, `ENC.RESET` (`41_encoder.md`; transitions R120). -/

namespace Sys2Proof.Machine

/-- The body of `ENC.CODE code` (R123). -/
def EncUnit.code (code : Code) (cw : Word) (e : EncUnit) : EncUnit :=
  if e.state = .fin then e.raise .illegalState cw
  else if code = Config.sent then e.raise .codeSentinel cw
  else { e.packCode code with state := .pack }

/-- The body of `ENC.SYM sym` (R124). -/
def EncUnit.symbol (sym : Sym) (cw : Word) (e : EncUnit) : EncUnit :=
  if e.state = .fin then e.raise .illegalState cw
  else
    match lookupSym e.cb sym with
    | none => e.raise .symUnmapped cw
    | some c => { e.packCode c with state := .pack }

/-- The body of `ENC.FINISH` (R126). -/
def EncUnit.finish (cw : Word) (e : EncUnit) : EncUnit :=
  if e.state = .fin then e.raise .illegalState cw
  else if e.state = .idle then { e with empty := true, state := .fin }
  else { (e.packCode Config.sent).flush with state := .fin }

/-- `ENC.SYM sym` (R124, `60_exceptions.md` R232). -/
def execEncSym (sym : Sym) (s : State) : Host.Outcome State Fault Refusal :=
  .next (s.onEnc (EncUnit.unlessFault (EncUnit.symbol sym (encode (.encSym sym)))))

/-- `ENC.CODE code` (R123, `60_exceptions.md` R232). -/
def execEncCode (code : Code) (s : State) : Host.Outcome State Fault Refusal :=
  .next (s.onEnc (EncUnit.unlessFault (EncUnit.code code (encode (.encCode code)))))

/-- `ENC.FINISH` (R126, `60_exceptions.md` R232). -/
def execEncFinish (s : State) : Host.Outcome State Fault Refusal :=
  .next (s.onEnc (EncUnit.unlessFault (EncUnit.finish (encode .encFinish))))

/-- `ENC.RESET`, in every state, FAULT included (R127, `60_exceptions.md` R232). -/
def execEncReset (s : State) : Host.Outcome State Fault Refusal :=
  .next (s.onEnc EncUnit.toReset)

end Sys2Proof.Machine
end

