-- ==== Sys2Proof/Machine/Dispatch.lean ====
section
/-! DEFINITION. One arm per command of `spec/opcode_table.json`, each one call of the command's meaning. -/

namespace Sys2Proof.Machine

def exec (i : Instr) (s : State) : Host.Outcome State Fault Refusal :=
  match i with
  | .encReset => Sys2Proof.Machine.execEncReset s
  | .encLoad sym code => Sys2Proof.Machine.execEncLoad sym code s
  | .encSym sym => Sys2Proof.Machine.execEncSym sym s
  | .encCode code => Sys2Proof.Machine.execEncCode code s
  | .encFinish => Sys2Proof.Machine.execEncFinish s
  | .decReset => Sys2Proof.Machine.execDecReset s
  | .decLoad sym code => Sys2Proof.Machine.execDecLoad sym code s
  | .decByte byte => Sys2Proof.Machine.execDecByte byte s
  | .decEnd => Sys2Proof.Machine.execDecEnd s

end Sys2Proof.Machine
end

