-- ==== Sys2Proof/Machine/Accept.lean ====
section
/-! DEFINITION. A command word accepted on a port (`30_encoding.md` R75, `60_exceptions.md` R232). -/

namespace Sys2Proof.Machine

/-- A word accepted on a port: the command it decodes to runs; a word that is no command of the port raises `ILLEGAL_CMD`.
The order of R232 (well-formed reset, then FAULT, then illegal) comes out of the two: a reset command has no FAULT test,
every other command and the illegal word have it first. -/
def accept (p : Port) (w : Word) (s : State) : Host.Outcome State Fault Refusal :=
  match decode p w with
  | .ok i => exec i s
  | .error _ => .next (s.illegalWord p w)

end Sys2Proof.Machine
end

