-- ==== Sys2Proof/Machine/Step.lean ====
section
/-! DEFINITION. One step of the block: the next host event takes effect (`00_scope.md` R6, R7). -/

namespace Sys2Proof.Machine

/-- One step: a command word or a hardware reset; with nothing from the host the units wait, holding all their state
(`60_exceptions.md` R246; log 2). -/
def step (s : State) : Host.Outcome State Fault Refusal :=
  match s.takeEvent with
  | none => .next s
  | some (.rst, t) => .next t.hardReset
  | some (.cmd p w, t) => accept p w t

/-- `s` with a table word as the next thing the host sends, on the port its bit 31 names (log 3). -/
def State.withFetchWord (s : State) (nbits w : Nat) : State :=
  { s with host := .cmd (portOf (tableWord nbits w)) (tableWord nbits w) :: s.host }

end Sys2Proof.Machine
end

