-- ==== Sys2Proof/Machine/Assembler.lean ====
section
/-! DEFINITION. The assembler text and the disassembler's printing (`30_encoding.md` R86 to R88; `92_eei_decisions.md` D27).
Text is a list of characters. The points R86 leaves open are in log 17. -/

namespace Sys2Proof.Machine

/-- The spelling of a mnemonic (R73, `00_scope.md` R11). -/
def mnemonicText : Mnemonic → List Char
  | .encReset => "ENC.RESET".toList
  | .encLoad => "ENC.LOAD".toList
  | .encSym => "ENC.SYM".toList
  | .encCode => "ENC.CODE".toList
  | .encFinish => "ENC.FINISH".toList
  | .decReset => "DEC.RESET".toList
  | .decLoad => "DEC.LOAD".toList
  | .decByte => "DEC.BYTE".toList
  | .decEnd => "DEC.END".toList

/-! ### Printing (R88) -/

/-- An upper-case hexadecimal digit. -/
def hexChar (n : BitVec 4) : Char :=
  if n < 10#4 then Char.ofNat (48 + n.toNat) else Char.ofNat (65 + (n.toNat - 10))

/-- `sym` and `byte` as two upper-case hexadecimal digits with `0x` (R88). -/
def hexText8 (v : BitVec 8) : List Char := ['0', 'x', hexChar (v.extractLsb' 4 4), hexChar (v.extractLsb' 0 4)]

/-- `code` as seven binary digits with `0b` (R88). -/
def codeChars (c : Code) : List Char :=
  ['0', 'b'] ++ (bitsMSB c).map fun b => if b then '1' else '0'

/-- A word as eight hexadecimal digits with `0x` (R88). R88 asks upper case of `sym` and `byte` alone; that the letters of these eight
digits are upper case too is the model's choice (DESIGN CHOICE, log 17). -/
def hexText32 (w : Word) : List Char :=
  ['0', 'x'] ++ [28, 24, 20, 16, 12, 8, 4, 0].map fun k => hexChar (w.extractLsb' k 4)

/-- The canonical spelling of a command (R88). -/
def printInstr (i : Instr) : List Char :=
  match i with
  | .encLoad sym code => mnemonicText i.mnemonic ++ [' '] ++ hexText8 sym ++ [',', ' '] ++ codeChars code
  | .decLoad sym code => mnemonicText i.mnemonic ++ [' '] ++ hexText8 sym ++ [',', ' '] ++ codeChars code
  | .encSym sym => mnemonicText i.mnemonic ++ [' '] ++ hexText8 sym
  | .encCode code => mnemonicText i.mnemonic ++ [' '] ++ codeChars code
  | .decByte byte => mnemonicText i.mnemonic ++ [' '] ++ hexText8 byte
  | .encReset => mnemonicText i.mnemonic
  | .encFinish => mnemonicText i.mnemonic
  | .decReset => mnemonicText i.mnemonic
  | .decEnd => mnemonicText i.mnemonic

/-- The disassembly of a word on a port; an illegal word prints as `.illegal` and its digits (R88). R88 names no port; that a word is printed
for the port it stands on, so that a word of the other unit, illegal there (R74), prints as `.illegal`, is the model's choice
(DESIGN CHOICE, log 17). `disassembleWord` prints without a port. -/
def disassemble (p : Port) (w : Word) : List Char :=
  match decode p w with
  | .ok i => printInstr i
  | .error _ => ".illegal ".toList ++ hexText32 w

/-- The disassembly of a word that stands on no port: every word that matches a row of R73 prints as that row's command,
and `.illegal` is for words of no row (R88; log 17). -/
def disassembleWord (w : Word) : List Char := disassemble (portOf w) w

/-! ### Assembling (R86) -/

/-- A blank between the parts of a line. -/
def isBlank (c : Char) : Bool := c == ' ' || c == '\t'

/-- Text without blanks at its ends. -/
def trimBlanks (t : List Char) : List Char :=
  ((t.dropWhile isBlank).reverse.dropWhile isBlank).reverse

/-- The text before the comment; a `;` inside a character literal starts no comment (R86). -/
def stripComment : List Char → List Char
  | [] => []
  | '\'' :: c :: '\'' :: rest => '\'' :: c :: '\'' :: stripComment rest
  | c :: rest => if c = ';' then [] else c :: stripComment rest

/-- The parts between commas; a comma inside a character literal separates nothing (R86). -/
def splitCommas : List Char → List Char → List (List Char)
  | part, [] => [part]
  | part, '\'' :: c :: '\'' :: rest => splitCommas (part ++ ['\'', c, '\'']) rest
  | part, c :: rest => if c = ',' then part :: splitCommas [] rest else splitCommas (part ++ [c]) rest

/-- The value of a digit in a base up to 16; hexadecimal letters of either case. -/
def digitOf (base : Nat) (c : Char) : Option Nat :=
  let v :=
    if 48 ≤ c.toNat ∧ c.toNat ≤ 57 then c.toNat - 48
    else if 65 ≤ c.toNat ∧ c.toNat ≤ 70 then c.toNat - 55
    else if 97 ≤ c.toNat ∧ c.toNat ≤ 102 then c.toNat - 87
    else 16
  if v < base then some v else none

/-- A digit string continued from the value `acc`. -/
def numberFrom (base acc : Nat) : List Char → Option Nat
  | [] => some acc
  | c :: rest => (digitOf base c).bind fun v => numberFrom base (base * acc + v) rest

/-- One digit or more, any number of leading zeros among them. R86 allows leading zeros for binary numbers and is silent on decimal and
hexadecimal ones; that they are allowed there too, with the value unchanged, is the model's choice (DESIGN CHOICE, log 17). -/
def number (base : Nat) (t : List Char) : Option Nat :=
  if t = [] then none else numberFrom base 0 t

/-- An operand: a character literal, hexadecimal, binary or decimal (R86). The literal is taken for every operand, `code` and `byte` included,
for R86 lists it among the numbers while D27 names it for `sym` alone: the model's choice (DESIGN CHOICE, log 17). -/
def parseOperand : List Char → Option Nat
  | ['\'', c, '\''] => if c.toNat < 128 then some c.toNat else none
  | '0' :: 'x' :: t => number 16 t
  | '0' :: 'b' :: t => number 2 t
  | t => number 10 t

/-- All mnemonics. -/
def allMnemonics : List Mnemonic :=
  [.encReset, .encLoad, .encSym, .encCode, .encFinish, .decReset, .decLoad, .decByte, .decEnd]

/-- The mnemonic a word of text spells. -/
def parseMnemonic (t : List Char) : Option Mnemonic := allMnemonics.find? fun m => mnemonicText m == t

/-- The operands of a command, in order; none where nothing follows the mnemonic (R86). -/
def parseOperands (t : List Char) : Option (List Nat) :=
  if trimBlanks t = [] then some [] else (splitCommas [] t).mapM fun part => parseOperand (trimBlanks part)

/-- A command line without comment or port mark, as a source command. -/
def parseCommand (t : List Char) : Option SourceCommand :=
  (parseMnemonic ((trimBlanks t).takeWhile fun c => !isBlank c)).bind fun m =>
    (parseOperands ((trimBlanks t).dropWhile fun c => !isBlank c)).map fun ops => ⟨m, ops⟩

/-- The command of a text, if it is well formed (R72, R86). -/
def assembleCommand (t : List Char) : Option Instr := (parseCommand t).bind SourceCommand.toInstr

/-- What a line sends: nothing for an empty line or a comment; a word on the port the line is marked with, or else the port
the mnemonic names (R86). `none` when the assembler refuses the line. -/
def assembleLine (line : List Char) : Option (Option (Port × Word)) :=
  match trimBlanks (stripComment line) with
  | [] => some none
  | 'E' :: '>' :: t => (assembleCommand t).map fun i => some (.enc, encode i)
  | 'D' :: '>' :: t => (assembleCommand t).map fun i => some (.dec, encode i)
  | t => (assembleCommand t).map fun i => some (i.port, encode i)

end Sys2Proof.Machine
end

