-- ==== Sys2Proof/Machine/Bitstream.lean ====
section
/-! DEFINITION. The encoded bitstream (`30_encoding.md` R80 to R82) and what a well-formed codebook and stream are
(`43_host_codebook.md` R206, R207). -/

namespace Sys2Proof.Machine

/-- The bits of a byte sequence, bytes in order, each most significant bit first (`20_memory.md` R54). -/
def bytesBits (bytes : List Byte) : List Bool := bytes.flatMap bitsMSB

/-- The byte form of a bit sequence whose length is a multiple of 8: byte `j` is `val(S[8j .. 8j+7])` (R80). -/
def bitsToBytes : List Bool → List Byte
  | b0 :: b1 :: b2 :: b3 :: b4 :: b5 :: b6 :: b7 :: rest =>
    BitVec.ofNat 8 (val [b0, b1, b2, b3, b4, b5, b6, b7]) :: bitsToBytes rest
  | _ => []

/-- The number of padding bits of an N-code stream (R80). -/
def padLength (n : Nat) : Nat := (8 - (7 * n + 7) % 8) % 8

/-- `S`: the codes, the sentinel, the padding (R80). -/
def streamBits (codes : List Code) : List Bool :=
  codes.flatMap bitsMSB ++ bitsMSB Config.sent ++ List.replicate (padLength codes.length) false

/-- The encoded bitstream of a run: its bytes; none at all when no code was pushed (R80). -/
def bitstream (codes : List Code) : List Byte :=
  if codes = [] then [] else bitsToBytes (streamBits codes)

/-- A well-formed codebook: at most 127 entries, symbols pairwise distinct, codes pairwise distinct, no code the sentinel (R206). -/
abbrev WellFormedCodebook (cb : List Entry) : Prop :=
  cb.length ≤ Config.ncb ∧ (cb.map Entry.sym).Nodup ∧ (cb.map Entry.code).Nodup ∧
    ∀ entry ∈ cb, entry.code ≠ Config.sent

/-- A well-formed bitstream for a codebook: the stream of one code or more, all of them codes of the codebook (R207). -/
def WellFormedBitstream (cb : List Entry) (bytes : List Byte) : Prop :=
  ∃ codes : List Code, codes ≠ [] ∧ (∀ c ∈ codes, c ∈ cb.map Entry.code) ∧ bytes = bitstream codes

end Sys2Proof.Machine
end

