-- ==== Sys2Proof/Machine/HostCodebook.lean ====
section
/-! DEFINITION. The host's side of the contract (`43_host_codebook.md`; `70_reset_and_hazards.md` R272 to R274), as plain functions.
None of it is hardware (`00_scope.md` R4): no step of the machine calls it. `isPrintable` and the format of a probability are the open parameters
of the spec (`92_eei_decisions.md` D31, D32); text is a list of bytes, the named characters having their ASCII values (PRESUMED, log 16). -/

namespace Sys2Proof.Machine

/-! ### Frequency table and codebook builder (R191 to R197) -/

/-- Every byte value, in unsigned order. -/
def alphabet : List Sym := (List.range 256).map (BitVec.ofNat 8)

/-- The occurrence count of each byte value that occurs; a value that does not occur has no entry (R191). -/
def frequencyTable (input : List Byte) : List (Sym × Nat) :=
  (alphabet.map fun s => (s, input.count s)).filter fun p => decide (1 ≤ p.2)

/-- `(occurrence_count ascending, symbol ascending)`, symbols as unsigned bytes (R193). -/
def rankLe (a b : Sym × Nat) : Bool := decide (a.2 < b.2 ∨ (a.2 = b.2 ∧ a.1 ≤ b.1))

/-- Insert into a list in rank order. -/
def insertByRank (a : Sym × Nat) : List (Sym × Nat) → List (Sym × Nat)
  | [] => [a]
  | b :: rest => if rankLe a b then a :: b :: rest else b :: insertByRank a rest

/-- The symbols in rank order (R193). -/
def sortByRank (l : List (Sym × Nat)) : List (Sym × Nat) := l.foldr insertByRank []

/-- A codebook entry as the host holds it (R194). The probability is `count / total`, kept as the two numbers. -/
structure HostEntry where
  sym : Sym
  count : Nat
  total : Nat
  code : Code
  deriving DecidableEq, Repr

/-- What the host reports instead of writing its output (R192, R197; `70_reset_and_hazards.md` R273, R274). -/
inductive HostError where
  /-- The input is empty: reported, not fatal (R192). -/
  | emptyInput
  /-- More than 127 distinct byte values: rejected before anything is loaded (R197; `92_eei_decisions.md` D30). -/
  | tooManySymbols
  /-- The unit's status does not show a run that is over with `FCAUSE = 0`, so nothing is written
  (`70_reset_and_hazards.md` R273 (5), R274 (5); `60_exceptions.md` R235). -/
  | runFailed
  deriving DecidableEq, Repr

/-- Codes by rank: the entry of rank `i` gets the code `i` (R195). -/
def assignCodes (total : Nat) (ranked : List (Sym × Nat)) : List HostEntry :=
  ranked.zipIdx.map fun p => ⟨p.1.1, p.1.2, total, BitVec.ofNat 7 p.2⟩

/-- The codebook builder (R193 to R197). -/
def buildCodebook (input : List Byte) : Except HostError (List HostEntry) :=
  if input = [] then .error .emptyInput
  else if Config.ncb < (frequencyTable input).length then .error .tooManySymbols
  else .ok (assignCodes input.length (sortByRank (frequencyTable input)))

/-- The pairs the hardware keeps of an entry (`10_state.md` R21, R201). -/
def HostEntry.toEntry (e : HostEntry) : Entry := ⟨e.sym, e.code⟩

/-! ### Codebook text file (R198 to R205) -/

/-- ASCII digit `0 + n`. -/
def digitByte (n : Nat) : Byte := BitVec.ofNat 8 (0x30 + n)

/-- An upper-case hexadecimal digit (R200). -/
def hexByte (n : BitVec 4) : Byte :=
  if n < 10#4 then digitByte n.toNat else BitVec.ofNat 8 (0x41 + (n.toNat - 10))

/-- The text between the quotes of a symbol field, serializer side (R200). -/
def symbolField (isPrintable : Byte → Bool) (s : Sym) : List Byte :=
  if s = 0x0A#8 then [0x5C#8, 0x6E#8]
  else if s = 0x0D#8 then [0x5C#8, 0x72#8]
  else if s = 0x22#8 then [0x5C#8, 0x22#8]
  else if s = 0x5C#8 then [0x5C#8, 0x5C#8]
  else if isPrintable s then [s]
  else [0x30#8, 0x78#8, hexByte (s.extractLsb' 4 4), hexByte (s.extractLsb' 0 4)]

/-- The value of an upper-case hexadecimal digit (R200, R204). -/
def hexValue (c : Byte) : Option (BitVec 4) :=
  if 0x30#8 ≤ c ∧ c ≤ 0x39#8 then some (BitVec.ofNat 4 (c.toNat - 0x30))
  else if 0x41#8 ≤ c ∧ c ≤ 0x46#8 then some (BitVec.ofNat 4 (c.toNat - 0x41 + 10))
  else none

/-- The reverse mapping by the shape of the field: two characters from a backslash, four from `0x`, or one (R204). -/
def unescape : List Byte → Option Sym
  | [c] => some c
  | [c0, c1] =>
    if c0 = 0x5C#8 then
      if c1 = 0x6E#8 then some 0x0A#8
      else if c1 = 0x72#8 then some 0x0D#8
      else if c1 = 0x22#8 then some 0x22#8
      else if c1 = 0x5C#8 then some 0x5C#8
      else none
    else none
  | [c0, c1, h, l] =>
    if c0 = 0x30#8 ∧ c1 = 0x78#8 then
      match hexValue h, hexValue l with
      | some a, some b => some (a ++ b)
      | _, _ => none
    else none
  | _ => none

/-- The symbol field, parser side: the reverse of `symbolField`; a field the serializer never writes is refused
(R204; `93_implementation_defined.md` U9). -/
def parseSymbolField (isPrintable : Byte → Bool) (field : List Byte) : Option Sym :=
  match unescape field with
  | some s => if symbolField isPrintable s = field then some s else none
  | none => none

/-- The code field: seven `0`/`1` characters, most significant first (R199). -/
def codeText (c : Code) : List Byte := (bitsMSB c).map fun b => digitByte b.toNat

/-- The code a seven-character field stands for (R199). -/
def parseCodeText (field : List Byte) : Option Code :=
  if field.length = 7 ∧ field.all (fun c => decide (c = 0x30#8) || decide (c = 0x31#8)) then
    some (BitVec.ofNat 7 (val (field.map fun c => decide (c = 0x31#8))))
  else none

/-- A number in decimal, no leading zeros (R201). -/
def decimalText (n : Nat) : List Byte := (Nat.toDigits 10 n).map fun c => BitVec.ofNat 8 c.toNat

/-- The last `k` decimal digits of a number, zeros included (R201). -/
def fixedDigits : Nat → Nat → List Byte
  | 0, _ => []
  | k + 1, n => fixedDigits k (n / 10) ++ [digitByte (n % 10)]

/-- The number a text of decimal digits stands for. -/
def digitsValue (text : List Byte) : Nat := text.foldl (fun v c => 10 * v + (c.toNat - 0x30)) 0

/-- `FormatProb`: what `92_eei_decisions.md` D32 leaves open of a printed probability, for each count and total. Its value and its seven
fractional digits are not open (R201). -/
structure ProbFormat where
  /-- The seventh digit is rounded up where the quotient does not end there; it is rounded down where this says no. -/
  roundUp : Nat → Nat → Bool
  /-- The number of zeros before the whole part, which has one digit or more without them. -/
  leadingZeros : Nat → Nat → Nat

/-- `count / total` in units of the seventh fractional digit, rounded as the format says where it is no whole number of them (R194, R201). -/
def ProbFormat.units (f : ProbFormat) (count total : Nat) : Nat :=
  if f.roundUp count total = true ∧ count * 10 ^ 7 % total ≠ 0 then count * 10 ^ 7 / total + 1 else count * 10 ^ 7 / total

/-- The probability field: `count / total` in fixed point with exactly seven digits after the point (R201). -/
def probabilityText (f : ProbFormat) (count total : Nat) : List Byte :=
  List.replicate (f.leadingZeros count total) (digitByte 0) ++ decimalText (f.units count total / 10 ^ 7) ++ [0x2E#8] ++
    fixedDigits 7 (f.units count total)

/-- A record with a given probability field, with its newline (R198). -/
def recordTextWith (isPrintable : Byte → Bool) (prob : List Byte) (e : HostEntry) : List Byte :=
  [0x22#8] ++ symbolField isPrintable e.sym ++ [0x22#8, 0x2C#8] ++ decimalText e.count ++ [0x2C#8] ++
    prob ++ [0x2C#8, 0x22#8] ++ codeText e.code ++ [0x22#8, 0x0A#8]

/-- One record of the file (R198, R201). -/
def recordText (isPrintable : Byte → Bool) (f : ProbFormat) (e : HostEntry) : List Byte :=
  recordTextWith isPrintable (probabilityText f e.count e.total) e

/-- The codebook file: one record per entry, in codebook order (R198). -/
def codebookFile (isPrintable : Byte → Bool) (f : ProbFormat) (cb : List HostEntry) : List Byte :=
  cb.flatMap (recordText isPrintable f)

/-- A decimal digit. -/
def isDigit (c : Byte) : Bool := decide (0x30#8 ≤ c ∧ c ≤ 0x39#8)

/-- What is left of the text after a literal at its front, if it stands there. -/
def expectText : List Byte → List Byte → Option (List Byte)
  | [], text => some text
  | _ :: _, [] => none
  | c :: lit, d :: text => if c = d then expectText lit text else none

/-- What is left after one decimal digit or more. -/
def skipNumber (text : List Byte) : Option (List Byte) :=
  if text.takeWhile isDigit = [] then none else some (text.dropWhile isDigit)

/-- What is left after a fixed-point number with exactly seven fractional digits (R201). -/
def skipProbability (text : List Byte) : Option (List Byte) :=
  (skipNumber text).bind fun t => (expectText [0x2E#8] t).bind fun t =>
    if (t.take 7).length = 7 ∧ (t.take 7).all isDigit then some (t.drop 7) else none

/-- The rest of a record after the symbol field's closing quote: its code (R198 to R201). -/
def parseAfterSymbol (text : List Byte) : Option Code :=
  (expectText [0x22#8, 0x2C#8] text).bind fun t => (skipNumber t).bind fun t =>
    (expectText [0x2C#8] t).bind fun t => (skipProbability t).bind fun t =>
      (expectText [0x2C#8, 0x22#8] t).bind fun t =>
        (parseCodeText (t.take 7)).bind fun code =>
          if t.drop 7 = [0x22#8] then some code else none

/-- A record whose symbol field has `n` characters. -/
def parseRecordWith (isPrintable : Byte → Bool) (n : Nat) (line : List Byte) : Option Entry :=
  (expectText [0x22#8] line).bind fun t =>
    (parseSymbolField isPrintable (t.take n)).bind fun s =>
      (parseAfterSymbol (t.drop n)).map fun code => ⟨s, code⟩

/-- A line as a record; `none` for a line that does not match, which is skipped (R202, R203; log 16).
The symbol field has one, two or four characters (R204). -/
def parseRecord (isPrintable : Byte → Bool) (line : List Byte) : Option Entry :=
  ((parseRecordWith isPrintable 1 line).or (parseRecordWith isPrintable 2 line)).or
    (parseRecordWith isPrintable 4 line)

/-- The lines of a text, each without its newline; what follows the last newline is no line (log 16). -/
def splitLines : List Byte → List Byte → List (List Byte)
  | _, [] => []
  | line, c :: rest => if c = 0x0A#8 then line :: splitLines [] rest else splitLines (line ++ [c]) rest

/-- The parser: the pairs of the matching lines, in file order (R202, R203, R205). -/
def parseCodebookFile (isPrintable : Byte → Bool) (text : List Byte) : List Entry :=
  (splitLines [] text).filterMap (parseRecord isPrintable)

/-! ### Driving the block (R209; `70_reset_and_hazards.md` R273, R274) -/

/-- The host presents a command on its own port. -/
def send (i : Instr) : HostEvent := .cmd i.port (encode i)

/-- The commands of an encode run: reset, the codebook in order, the given streaming commands, the finish (R273).
A host with its own symbol-to-code map may give an empty codebook and push raw codes (R273). -/
def encodeRunOf (cb : List Entry) (pushes : List Instr) : List HostEvent :=
  [send .encReset] ++ cb.map (fun e => send (.encLoad e.sym e.code)) ++ pushes.map send ++ [send .encFinish]

/-- The commands of an encode run in which ENC looks the symbols up (R273). -/
def encodeRun (cb : List Entry) (syms : List Sym) : List HostEvent := encodeRunOf cb (syms.map .encSym)

/-- The commands of a decode run: reset, the codebook in file order, the bytes, the end (R274). -/
def decodeRun (cb : List Entry) (bytes : List Byte) : List HostEvent :=
  [send .decReset] ++ cb.map (fun e => send (.decLoad e.sym e.code)) ++ bytes.map (fun b => send (.decByte b)) ++
    [send .decEnd]

end Sys2Proof.Machine
end

