-- ==== Sys2Proof/Machine/Flags.lean ====
section
/-! DEFINITION. The status outputs (`10_state.md` R22, R26, R27, R31, R34, R35; `20_memory.md` R53), the one flag EMPTY among them,
and the level signals a platform may derive (`60_exceptions.md` R238). Reading them has no side effect (`20_memory.md` R59). -/

namespace Sys2Proof.Machine

/-- The number of `ESTATE` (R25). -/
def EncState.bits : EncState → BitVec 2
  | .idle => 0
  | .pack => 1
  | .fin => 2
  | .fault => 3

/-- The number of `DSTATE` (R33). -/
def DecState.bits : DecState → BitVec 3
  | .idle => 0
  | .run => 1
  | .done => 2
  | .ended => 3
  | .fault => 4

/-- The code of a fault cause (`60_exceptions.md` R230). -/
def Cause.bits : Cause → BitVec 4
  | .none => 0
  | .illegalCmd => 1
  | .illegalState => 2
  | .cbFull => 3
  | .codeSentinel => 4
  | .symUnmapped => 5
  | .bufOverflow => 6

/-- `ECBN`: the number of valid entries of `ECB`, 7 bits (R22). -/
def EncUnit.ecbn (e : EncUnit) : BitVec 7 := BitVec.ofNat 7 e.cb.length

/-- `DCBN`: the number of valid entries of `DCB`, 7 bits (R31). -/
def DecUnit.dcbn (d : DecUnit) : BitVec 7 := BitVec.ofNat 7 d.cb.length

/-- `BLEN`: the number of bits in `BUF`, 4 bits (R32). -/
def DecUnit.blen (d : DecUnit) : BitVec 4 := BitVec.ofNat 4 d.buf.length

/-- `ESTAT`: FCAUSE in 7:4, a reserved 0 in 3, EMPTY in 2, STATE in 1:0 (R26). -/
def EncUnit.estat (e : EncUnit) : BitVec 8 :=
  e.fcause.bits ++ 0#1 ++ BitVec.ofBool e.empty ++ e.state.bits

/-- `DSTAT`: FCAUSE in 7:4, a reserved 0 in 3, STATE in 2:0 (R34). -/
def DecUnit.dstat (d : DecUnit) : BitVec 8 :=
  d.fcause.bits ++ 0#1 ++ d.state.bits

/-- The status outputs of the block (`20_memory.md` R53). -/
structure StatusOutputs where
  encStat : BitVec 8
  encCbn : BitVec 7
  encFcmd : Word
  decStat : BitVec 8
  decCbn : BitVec 7
  decFcmd : Word
  deriving DecidableEq, Repr

/-- What the status outputs show (`20_memory.md` R53). -/
def State.status (s : State) : StatusOutputs where
  encStat := s.enc.estat
  encCbn := s.enc.ecbn
  encFcmd := s.enc.fcmd
  decStat := s.dec.dstat
  decCbn := s.dec.dcbn
  decFcmd := s.dec.fcmd

/-- `enc_stat[1:0] = 3`: ENC fault (`60_exceptions.md` R238). -/
def StatusOutputs.encFault (o : StatusOutputs) : Bool := decide (o.encStat.extractLsb' 0 2 = 3)

/-- `enc_stat[2]`: empty run (`60_exceptions.md` R238). -/
def StatusOutputs.emptyRun (o : StatusOutputs) : Bool := o.encStat.getLsbD 2

/-- `dec_stat[2:0] = 4`: DEC fault (`60_exceptions.md` R238). -/
def StatusOutputs.decFault (o : StatusOutputs) : Bool := decide (o.decStat.extractLsb' 0 3 = 4)

/-- `dec_stat[2:0] = 2`: sentinel seen (`60_exceptions.md` R238). R238 says that such a signal stays asserted until the unit is reset; the
tables of R150 and R230 take DONE to FAULT on a `DEC.LOAD` or an illegal word, and `dec_stat` then shows 4. The model follows the tables,
so this signal drops there: the model's choice between the two (DESIGN CHOICE, log 20). -/
def StatusOutputs.sentinelSeen (o : StatusOutputs) : Bool := decide (o.decStat.extractLsb' 0 3 = 2)

end Sys2Proof.Machine
end

