-- ==== Sys2Proof/Safety.lean ====
section
/-! DEFINITION. What claims about the block say: the bits ENC has taken, a run of host events, a run that is over and clean
(`00_scope.md` R14, `60_exceptions.md` R235), the invariants of `10_state.md` R42, and the source's decoder as one function on
bit sequences (`42_decoder.md` head, R155). No step of the machine calls any of them. -/

namespace Sys2Proof.Machine

/-! ### The bits ENC has taken -/

/-- The pending bits `ACC[NBITS-1:0]`, oldest at the top (`10_state.md` R24). -/
def EncUnit.pending (e : EncUnit) : List Bool := lastN (bitsMSB e.acc) e.nbits.toNat

/-- Every bit ENC has taken in the run: those emitted, then those pending. -/
def EncUnit.stream (e : EncUnit) : List Bool := bytesBits e.out ++ e.pending

/-- The code a streaming command pushes with the table `cb`, if it is a legal push (`41_encoder.md` R123, R124). -/
def pushedCode (cb : List Entry) : Instr → Option Code
  | .encCode code => if code = Config.sent then none else some code
  | .encSym sym => lookupSym cb sym
  | .encReset | .encLoad _ _ | .encFinish | .decReset | .decLoad _ _ | .decByte _ | .decEnd => none

/-! ### Runs -/

/-- The block after all the host's events. -/
def State.afterHost (s : State) : Host.Outcome State Fault Refusal := Host.Core.run Sys2Proof.core s.host.length s

/-- No fault is recorded in either unit (`60_exceptions.md` R235). -/
def State.clean (s : State) : Prop := s.enc.fcause = .none ∧ s.dec.fcause = .none

/-- ENC's run is over (`00_scope.md` R14). -/
def EncUnit.over (e : EncUnit) : Prop := e.state = .fin

/-- DEC's run is over (`00_scope.md` R14). -/
def DecUnit.over (d : DecUnit) : Prop := d.state = .done ∨ d.state = .ended

/-! ### Invariants (`10_state.md` R42) -/

/-- R42 for ENC, after `k` codes packed in this run by `ENC.CODE` and `ENC.SYM`. -/
structure EncUnit.Inv (k : Nat) (e : EncUnit) : Prop where
  /-- (a), first half. -/
  nbits_le : e.nbits.toNat ≤ 7
  /-- (a), second half: `ACC[7:NBITS] = 0`. -/
  acc_pending : e.acc.toNat < 2 ^ e.nbits.toNat
  /-- (b) while a run is open. -/
  nbits_open : e.state = .idle ∨ e.state = .pack → e.nbits.toNat = 7 * k % 8
  /-- The bytes emitted while a run is open (`41_encoder.md` R128). -/
  out_open : e.state = .idle ∨ e.state = .pack → e.out.length = 7 * k / 8
  /-- (b) in FIN. -/
  nbits_fin : e.state = .fin → e.nbits = 0#4
  /-- (d). -/
  cb_le : e.cb.length ≤ Config.ncb
  /-- (e). -/
  cb_codes : ∀ entry ∈ e.cb, entry.code ≠ Config.sent
  /-- (f). -/
  fcause_iff : e.fcause ≠ .none ↔ e.state = .fault
  /-- R27: `EFCMD` is 0 while `ESTATE != FAULT`. -/
  fcmd_zero : e.state ≠ .fault → e.fcmd = 0#32
  /-- `60_exceptions.md` R230: `BUF_OVERFLOW` is DEC's alone. -/
  fcause_enc : e.fcause ≠ .bufOverflow
  /-- (g). -/
  empty_run : e.empty = true → e.out = [] ∧
    (e.state = .fin ∨ (e.state = .fault ∧ (e.fcause = .illegalState ∨ e.fcause = .illegalCmd)))
  /-- (h), and no code packed. -/
  idle_start : e.state = .idle → e.acc = 0#8 ∧ e.nbits = 0#4 ∧ e.out = [] ∧ k = 0
  /-- R25: in PACK at least one code has been packed. -/
  pack_some : e.state = .pack → 1 ≤ k

/-- R42 for DEC. -/
structure DecUnit.Inv (d : DecUnit) : Prop where
  /-- (c). -/
  buf_le : d.buf.length ≤ Config.bufCap
  /-- (d). -/
  cb_le : d.cb.length ≤ Config.ncb
  /-- (e). -/
  cb_codes : ∀ entry ∈ d.cb, entry.code ≠ Config.sent
  /-- (f). -/
  fcause_iff : d.fcause ≠ .none ↔ d.state = .fault
  /-- R35 with R27: `DFCMD` is 0 while `DSTATE != FAULT`. -/
  fcmd_zero : d.state ≠ .fault → d.fcmd = 0#32
  /-- `60_exceptions.md` R230: `SYM_UNMAPPED` is ENC's alone. -/
  fcause_dec : d.fcause ≠ .symUnmapped
  /-- (h). -/
  idle_start : d.state = .idle → d.buf = [] ∧ d.out = []
  /-- R37: `RCNT` is 0 to 8. -/
  rcnt_le : d.rcnt.toNat ≤ 8
  /-- `42_decoder.md` R152: in DONE the sentinel's bits are still the trailing bits of the buffer. -/
  done_sentinel : d.state = .done → Config.codeLen ≤ d.buf.length ∧ window d.buf = Config.sent

/-- R42 for the block. -/
structure State.Inv (k : Nat) (s : State) : Prop where
  enc : s.enc.Inv k
  dec : s.dec.Inv

/-- How many codes ENC has packed in this run after the next step, `k` before it (the `k` of R42 (b)). -/
def State.packedNext (k : Nat) (s : State) : Nat :=
  match s.host with
  | .rst :: _ => 0
  | .cmd .enc w :: _ =>
    match decode .enc w with
    | .ok .encReset => 0
    | .ok i =>
      if (s.enc.state = .idle ∨ s.enc.state = .pack) ∧ (pushedCode s.enc.cb i).isSome = true then k + 1 else k
    | .error _ => k
  | .cmd .dec _ :: _ => k
  | [] => k

/-! ### The source's decoder (`42_decoder.md`, the quotation at its head): a growing buffer, no capacity -/

/-- What the source's decoder has at a point of the bit stream. -/
structure Greedy where
  /-- The bit buffer, oldest bit first. -/
  buf : List Bool
  /-- The symbols emitted. -/
  syms : List Sym
  /-- The sentinel has been seen. -/
  ended : Bool
  /-- How many bits were taken; bits beyond the sentinel are not. -/
  taken : Nat
  deriving DecidableEq, Repr

/-- The source's step for one input bit: append; sentinel check; else match check; else keep accumulating. -/
def Greedy.bit (cb : List Entry) (g : Greedy) (b : Bool) : Greedy :=
  let buf := g.buf ++ [b]
  if g.ended then g
  else if Config.codeLen ≤ buf.length ∧ window buf = Config.sent then
    { g with buf := buf, ended := true, taken := g.taken + 1 }
  else
    match if Config.codeLen ≤ buf.length then lookupCode cb (window buf) else none with
    | some s => { g with buf := dropLastN buf Config.codeLen, syms := g.syms ++ [s], taken := g.taken + 1 }
    | none => { g with buf := buf, taken := g.taken + 1 }

/-- The source's decoder on a bit sequence. -/
def Greedy.bits (cb : List Entry) (g : Greedy) (bits : List Bool) : Greedy := bits.foldl (Greedy.bit cb) g

/-- The source's decoder with the buffer DEC has, nothing emitted and nothing taken yet. -/
def DecUnit.greedy (d : DecUnit) : Greedy := ⟨d.buf, [], false, 0⟩

/-- A buffer of `cap` bits is enough for these bits: whenever a bit is taken, fewer than `cap` are buffered. -/
def Greedy.fits (cap : Nat) (cb : List Entry) (g : Greedy) (bits : List Bool) : Prop :=
  ∀ n < bits.length, (g.bits cb (bits.take n)).ended = false → (g.bits cb (bits.take n)).buf.length < cap

end Sys2Proof.Machine
end

