-- ==== Sys2Proof/Machine/EndToEnd.lean ====
section
/-! DEFINITION. The source's two programs as the host runs them on the block (`70_reset_and_hazards.md` R273, R274; `43_host_codebook.md` R190,
R209), and the end-to-end properties the source states of them (R208). None of it is hardware (`00_scope.md` R4): no step of the machine calls it. -/

namespace Sys2Proof.Machine

/-! ### The two programs -/

/-- The two files an encode run writes (R190, R210). -/
structure EncodedFiles where
  codebook : List Byte
  bitstream : List Byte
  deriving DecidableEq, Repr

/-- `enc_stat` shows `FIN` with `FCAUSE = 0` (`70_reset_and_hazards.md` R273 (5)). -/
def StatusOutputs.encFinished (o : StatusOutputs) : Bool :=
  decide (o.encStat.extractLsb' 0 2 = EncState.fin.bits ∧ o.encStat.extractLsb' 4 4 = Cause.none.bits)

/-- `dec_stat` shows `DONE` or `ENDED` with `FCAUSE = 0` (`70_reset_and_hazards.md` R274 (5)). -/
def StatusOutputs.decFinished (o : StatusOutputs) : Bool :=
  decide ((o.decStat.extractLsb' 0 3 = DecState.done.bits ∨ o.decStat.extractLsb' 0 3 = DecState.ended.bits) ∧
    o.decStat.extractLsb' 4 4 = Cause.none.bits)

/-- What the host collects after a run, if the status allows it. -/
def collect (finished : StatusOutputs → Bool) (trace : State → List Byte) :
    Host.Outcome State Fault Refusal → Except HostError (List Byte)
  | .next t => if finished t.status then .ok (trace t) else .error .runFailed
  | .fault _ => .error .runFailed
  | .refused _ => .error .runFailed

/-- The encoder program on the block in state `s`: builds the codebook, drives ENC with it and the input, and collects the two files
(`70_reset_and_hazards.md` R273). -/
def encodeFiles (isPrintable : Byte → Bool) (f : ProbFormat) (s : State) (input : List Byte) :
    Except HostError EncodedFiles :=
  (buildCodebook input).bind fun cb =>
    (collect StatusOutputs.encFinished (fun t => t.enc.out)
      (State.afterHost { s with host := encodeRun (cb.map HostEntry.toEntry) input })).map
      fun bytes => ⟨codebookFile isPrintable f cb, bytes⟩

/-- The decoder program on the block in state `s`: reads the codebook file, drives DEC with it and the bitstream file, and collects the symbols
(`70_reset_and_hazards.md` R274). -/
def decodeFiles (isPrintable : Byte → Bool) (s : State) (files : EncodedFiles) : Except HostError (List Byte) :=
  collect StatusOutputs.decFinished (fun t => t.dec.out)
    (State.afterHost { s with host := decodeRun (parseCodebookFile isPrintable files.codebook) files.bitstream })

/-! ### The six properties of R208 -/

/-- "Round-trip": encoded on one block and decoded on another, the input comes back (R208). R192 takes the empty input out. -/
def RoundTrips (isPrintable : Byte → Bool) (f : ProbFormat) (s s' : State) (input : List Byte) : Prop :=
  (encodeFiles isPrintable f s input).bind (decodeFiles isPrintable s') = .ok input

/-- "Codebook uniqueness": the codes are distinct and each has exactly seven bits (R208, R195). -/
def CodesUnique (cb : List HostEntry) : Prop :=
  (cb.map HostEntry.code).Nodup ∧ ∀ e ∈ cb, (codeText e.code).length = Config.codeLen

/-- "Rank ordering": counts do not decrease, symbols ascend among equal counts, and codes are the ranks counted from 0 (R208, R195). -/
def RankOrdered (cb : List HostEntry) : Prop :=
  (cb.Pairwise fun a b => a.count ≤ b.count ∧ (a.count = b.count → a.sym ≤ b.sym)) ∧
    ∀ (n : Nat) (h : n < cb.length), cb[n].code.toNat = n

/-- "Bitstream length law": `ceil((N*L + L)/8)` bytes for `N` symbols (R208, R128). -/
def LengthLaw (n : Nat) (bytes : List Byte) : Prop :=
  bytes.length = (n * Config.codeLen + Config.codeLen + 7) / 8

/-- "Sentinel exclusivity": the all-ones pattern is no assigned code (R208, R196). -/
def SentinelExclusive (cb : List HostEntry) : Prop := ∀ e ∈ cb, e.code ≠ Config.sent

/-- "Escaping round-trip": every byte's symbol field parses back to the byte (R208, R202). -/
def EscapingRoundTrips (isPrintable : Byte → Bool) : Prop :=
  ∀ s : Sym, parseSymbolField isPrintable (symbolField isPrintable s) = some s

end Sys2Proof.Machine
end

