-- ==== Sys2Proof/Certificates/Slice0/Obligations.lean ====
section
/-! DEFINITION. The statements for the provers. Each docstring names the rules of spec/ it formalises.
Every statement that a command or a run completes rests on the premise that the host takes each output item (`70_reset_and_hazards.md` R284,
which asks that such claims say so; log 8): the model has no state in which an item waits. -/

open Sys2Proof Sys2Proof.Machine

/-! ### Encoding -/

/-- R85: the worked encodings: each spelling assembles to its word for its port, which decodes there to the command it stands for; the illegal
words are illegal; and the bytes of the source's example. -/
def Obligations.WorkedEncodingsDecode : Prop :=
  (∀ x ∈ [("ENC.RESET", Port.enc, 0x10000000#32, Instr.encReset),
      ("ENC.LOAD 'b', 0b0000000", .enc, 0x20006200#32, .encLoad 0x62 0),
      ("ENC.LOAD 'a', 0b0000001", .enc, 0x20006101#32, .encLoad 0x61 1),
      ("ENC.SYM 'a'", .enc, 0x30006100#32, .encSym 0x61),
      ("ENC.SYM 'b'", .enc, 0x30006200#32, .encSym 0x62),
      ("ENC.CODE 0b0000001", .enc, 0x40000001#32, .encCode 1),
      ("ENC.CODE 0x55", .enc, 0x40000055#32, .encCode 0x55),
      ("ENC.FINISH", .enc, 0x50000000#32, .encFinish),
      ("DEC.RESET", .dec, 0x90000000#32, .decReset),
      ("DEC.LOAD 'b', 0", .dec, 0xA0006200#32, .decLoad 0x62 0),
      ("DEC.LOAD 'a', 1", .dec, 0xA0006101#32, .decLoad 0x61 1),
      ("DEC.BYTE 0x02", .dec, 0xB0000002#32, .decByte 0x02),
      ("DEC.BYTE 0xF0", .dec, 0xB00000F0#32, .decByte 0xF0),
      ("DEC.END", .dec, 0xC0000000#32, .decEnd)],
    assembleLine x.1.toList = some (some (x.2.1, x.2.2.1)) ∧ decode x.2.1 x.2.2.1 = .ok x.2.2.2) ∧
  (∀ p, decode p 0x00000000#32 = .error .reservedOpcode) ∧
  decode .enc 0x50000001#32 = .error .reservedBits ∧
  decode .enc 0x20006180#32 = .error .reservedBits ∧
  decode .enc 0xB0000002#32 = .error .otherUnit ∧
  streamBits [1#7, 1#7, 0#7] = [false, false, false, false, false, false, true, false, false, false, false, false, false, true, false, false,
    false, false, false, false, false, true, true, true, true, true, true, true] ++ [false, false, false, false] ∧
  bitstream [1#7, 1#7, 0#7] = [0x02#8, 0x04#8, 0x07#8, 0xF0#8]

/-- R71 to R73, R75, R88: every well-formed command's word decodes to it on its own port, every operand kept, and is illegal on the other port. -/
def Obligations.DecodeOfEncodeIsTheCommand : Prop :=
  ∀ i : Instr, i.wellFormed = true →
    decode i.port (encode i) = .ok i ∧ ∀ p, p ≠ i.port → decode p (encode i) = .error .otherUnit

/-- R75, R88: a word that decodes is the word of the command it decodes to, and the command is one of the port's unit. -/
def Obligations.EncodeOfDecodeIsTheWord : Prop :=
  ∀ (p : Port) (w : Word) (i : Instr), decode p w = .ok i → i.port = p ∧ encode i = w

/-- R73, R75: no word matches two rows of the opcode map, and a word is a command of a port exactly when it matches a row of that port's unit. -/
def Obligations.OpcodeRowsAreDisjoint : Prop :=
  (∀ (w : Word) (r r' : Row), r ∈ opcodeMap → r' ∈ opcodeMap → w &&& r.mask = r.bits → w &&& r'.mask = r'.bits → r = r') ∧
  ∀ (p : Port) (w : Word), (∃ i, decode p w = .ok i) ↔
    ∃ r ∈ opcodeMap, r.mnemonic.port = p ∧ w &&& r.mask = r.bits

/-- R74 (a), (b), (c), (d): reserved opcodes, reserved bits and the other unit's opcodes are illegal on a port, and an illegal word
raises `ILLEGAL_CMD` in the unit that received it unless that unit is in FAULT, where it is discarded. -/
def Obligations.ReservedEncodingsAreIllegal : Prop :=
  (∀ (p : Port) (w : Word), w.extractLsb' 28 4 ∈ [0x0#4, 0x6#4, 0x7#4, 0x8#4, 0xD#4, 0xE#4, 0xF#4] →
    ∃ e, decode p w = .error e) ∧
  (∀ (p : Port) (w : Word) (i : Instr), decode p w = .ok i →
    w.extractLsb' 16 12 = 0#12 ∧
    (i.mnemonic.format ∈ [Format.z, Format.c, Format.b] → w.extractLsb' 8 8 = 0#8) ∧
    (i.mnemonic.format ∈ [Format.z, Format.sc, Format.s, Format.c] → w.getLsbD 7 = false) ∧
    (i.mnemonic.format ∈ [Format.z, Format.s] → w.extractLsb' 0 7 = 0#7)) ∧
  (∀ w : Word, w.extractLsb' 28 4 ∈ [0x9#4, 0xA#4, 0xB#4, 0xC#4] → ∃ e, decode .enc w = .error e) ∧
  (∀ w : Word, w.extractLsb' 28 4 ∈ [0x1#4, 0x2#4, 0x3#4, 0x4#4, 0x5#4] → ∃ e, decode .dec w = .error e) ∧
  (∀ (w : Word) (e : Illegal) (s : State) (rest : List HostEvent), decode .enc w = .error e → s.host = .cmd .enc w :: rest →
    step s = .next (if s.enc.state = .fault then { s with host := rest } else
      { s with host := rest, enc := { s.enc with state := .fault, fcause := .illegalCmd, fcmd := w } })) ∧
  ∀ (w : Word) (e : Illegal) (s : State) (rest : List HostEvent), decode .dec w = .error e → s.host = .cmd .dec w :: rest →
    step s = .next (if s.dec.state = .fault then { s with host := rest } else
      { s with host := rest, dec := { s.dec with state := .fault, fcause := .illegalCmd, fcmd := w } })

/-! ### The step -/

/-- R6, R75: when the host's next event is a word that decodes on its port, the step is that command's meaning, the event being taken. -/
def Obligations.StepRunsTheDecodedCommand : Prop :=
  ∀ (s : State) (p : Port) (w : Word) (rest : List HostEvent) (i : Instr),
    s.host = .cmd p w :: rest → decode p w = .ok i → step s = exec i { s with host := rest }

/-- R232: the common front end. A well-formed reset runs in every state (RBYTE, to which the spec gives no reset value, is not named);
else a unit in FAULT discards the word; else an illegal word raises `ILLEGAL_CMD`; else the decoded command runs. -/
def Obligations.FrontEndOfEveryCommand : Prop :=
  ∀ (s : State) (w : Word) (rest : List HostEvent),
    (s.host = .cmd .enc w :: rest →
      (decode .enc w = .ok .encReset → step s = .next { s with host := rest, enc := EncUnit.reset }) ∧
      (decode .enc w ≠ .ok .encReset → s.enc.state = .fault → step s = .next { s with host := rest }) ∧
      (∀ e, decode .enc w = .error e → s.enc.state ≠ .fault →
        step s = .next { s with host := rest, enc := { s.enc with state := .fault, fcause := .illegalCmd, fcmd := w } }) ∧
      ∀ i, decode .enc w = .ok i → i ≠ .encReset → s.enc.state ≠ .fault → step s = exec i { s with host := rest }) ∧
    (s.host = .cmd .dec w :: rest →
      (decode .dec w = .ok .decReset →
        ∃ rbyte, step s = .next { s with host := rest, dec := ⟨[], [], .idle, .none, 0#32, [], rbyte, 0#4⟩ }) ∧
      (decode .dec w ≠ .ok .decReset → s.dec.state = .fault → step s = .next { s with host := rest }) ∧
      (∀ e, decode .dec w = .error e → s.dec.state ≠ .fault →
        step s = .next { s with host := rest, dec := { s.dec with state := .fault, fcause := .illegalCmd, fcmd := w } }) ∧
      ∀ i, decode .dec w = .ok i → i ≠ .decReset → s.dec.state ≠ .fault → step s = exec i { s with host := rest })

/-- R270 (a), R271, R41: hardware reset gives every state element of both units its reset value, whatever it held (RBYTE, to which
the spec gives none, is not named), and leaves what the host has still to send. -/
def Obligations.HardwareResetClearsBothUnits : Prop :=
  ∀ (s : State) (rest : List HostEvent), s.host = .rst :: rest →
    ∃ t, step s = .next t ∧ t.host = rest ∧
      t.enc = ⟨[], 0#8, 0#4, .idle, false, .none, 0#32, []⟩ ∧
      t.dec.cb = [] ∧ t.dec.buf = [] ∧ t.dec.state = .idle ∧ t.dec.fcause = .none ∧ t.dec.fcmd = 0#32 ∧ t.dec.out = [] ∧
      t.dec.rcnt = 0#4 ∧ t.status = ⟨0#8, 0#7, 0#32, 0#8, 0#7, 0#32⟩

/-- The model's choice for R246 (log 2): with nothing from the host the step leaves the whole state as it is. -/
def Obligations.IdleBlockHoldsItsState : Prop :=
  ∀ s : State, s.host = [] → step s = .next s

/-- R287, provided the host takes the output items (R284): every host event is taken by one step that answers a next state.
That proviso is the model's premise (log 8, DEDUCED, UNSAFE as to progress); that there is a step also where the host has no event is the
model's choice (log 2). -/
def Obligations.EveryStepAnswersNext : Prop :=
  ∀ s : State, ∃ t, step s = .next t ∧ t.host = s.host.tail

/-! ### ENC's commands -/

/-- R101: `ENC.LOAD` in every state of ENC outside FAULT: the entry is appended, or the first of the three faults in the rule's order. -/
def Obligations.EncLoadAppendsOrFaults : Prop :=
  ∀ (sym : Sym) (code : Code) (s : State),
    (s.enc.state = .idle → code ≠ 127#7 → s.enc.cb.length < 127 →
      exec (.encLoad sym code) s = .next { s with enc := { s.enc with cb := s.enc.cb ++ [⟨sym, code⟩] } }) ∧
    (s.enc.state = .pack ∨ s.enc.state = .fin →
      exec (.encLoad sym code) s =
        .next { s with enc := { s.enc with state := .fault, fcause := .illegalState, fcmd := encode (.encLoad sym code) } }) ∧
    (s.enc.state = .idle → code = 127#7 →
      exec (.encLoad sym code) s =
        .next { s with enc := { s.enc with state := .fault, fcause := .codeSentinel, fcmd := encode (.encLoad sym code) } }) ∧
    (s.enc.state = .idle → code ≠ 127#7 → s.enc.cb.length = 127 →
      exec (.encLoad sym code) s =
        .next { s with enc := { s.enc with state := .fault, fcause := .cbFull, fcmd := encode (.encLoad sym code) } })

/-- R122, R123: `ENC.CODE` in IDLE or PACK pushes the seven bits of the code, most significant first, behind the bits taken so far,
emits a byte exactly when bits were pending, and changes nothing else but the state; the premises on NBITS and ACC are R42 (a).
In FIN it raises `ILLEGAL_STATE`; otherwise the code 127 raises `CODE_SENTINEL`. -/
def Obligations.EncCodePacksItsBits : Prop :=
  ∀ (code : Code) (s : State),
    (s.enc.state = .idle ∨ s.enc.state = .pack → code ≠ 127#7 → s.enc.nbits.toNat ≤ 7 →
      s.enc.acc.toNat < 2 ^ s.enc.nbits.toNat →
      ∃ acc nbits out,
        exec (.encCode code) s =
          .next { s with enc := { s.enc with acc := acc, nbits := nbits, out := out, state := .pack } } ∧
        bytesBits out ++ lastN (bitsMSB acc) nbits.toNat = s.enc.stream ++ bitsMSB code ∧
        nbits.toNat = (s.enc.nbits.toNat + 7) % 8 ∧ acc.toNat < 2 ^ nbits.toNat ∧
        (s.enc.nbits = 0#4 → out = s.enc.out) ∧ (s.enc.nbits ≠ 0#4 → ∃ b, out = s.enc.out ++ [b])) ∧
    (s.enc.state = .fin →
      exec (.encCode code) s =
        .next { s with enc := { s.enc with state := .fault, fcause := .illegalState, fcmd := encode (.encCode code) } }) ∧
    (s.enc.state = .idle ∨ s.enc.state = .pack → code = 127#7 →
      exec (.encCode code) s =
        .next { s with enc := { s.enc with state := .fault, fcause := .codeSentinel, fcmd := encode (.encCode code) } })

/-- R124: `ENC.SYM` in IDLE or PACK with a symbol of the table packs the code of the table, exactly as `ENC.CODE` of that code does
(the code being no sentinel, R42 (e)); with a symbol of no entry it raises `SYM_UNMAPPED`; in FIN `ILLEGAL_STATE`. -/
def Obligations.EncSymPacksTheMappedCode : Prop :=
  ∀ (sym : Sym) (s : State),
    (∀ code, s.enc.state = .idle ∨ s.enc.state = .pack → lookupSym s.enc.cb sym = some code → code ≠ 127#7 →
      s.enc.nbits.toNat ≤ 7 → s.enc.acc.toNat < 2 ^ s.enc.nbits.toNat →
      ∃ acc nbits out,
        exec (.encSym sym) s =
          .next { s with enc := { s.enc with acc := acc, nbits := nbits, out := out, state := .pack } } ∧
        exec (.encSym sym) s = exec (.encCode code) s ∧
        bytesBits out ++ lastN (bitsMSB acc) nbits.toNat = s.enc.stream ++ bitsMSB code ∧
        nbits.toNat = (s.enc.nbits.toNat + 7) % 8) ∧
    (s.enc.state = .idle ∨ s.enc.state = .pack → lookupSym s.enc.cb sym = none →
      exec (.encSym sym) s =
        .next { s with enc := { s.enc with state := .fault, fcause := .symUnmapped, fcmd := encode (.encSym sym) } }) ∧
    (s.enc.state = .fin →
      exec (.encSym sym) s =
        .next { s with enc := { s.enc with state := .fault, fcause := .illegalState, fcmd := encode (.encSym sym) } })

/-- R126, R125: `ENC.FINISH` in PACK emits the bits taken so far, the seven 1-bits of the sentinel and zero bits to the byte boundary,
one byte or two, leaving ACC and NBITS 0 and the state FIN; in IDLE it sets EMPTY and ends in FIN with nothing emitted; in FIN it faults.
The premises on NBITS and ACC are R42 (a). -/
def Obligations.EncFinishEndsTheStream : Prop :=
  ∀ s : State,
    (s.enc.state = .pack → s.enc.nbits.toNat ≤ 7 → s.enc.acc.toNat < 2 ^ s.enc.nbits.toNat →
      ∃ out,
        exec .encFinish s = .next { s with enc := { s.enc with acc := 0#8, nbits := 0#4, out := out, state := .fin } } ∧
        bytesBits out = s.enc.stream ++ [true, true, true, true, true, true, true] ++
          List.replicate ((8 - (s.enc.nbits.toNat + 7) % 8) % 8) false ∧
        out.length = s.enc.out.length + (if s.enc.nbits.toNat ≤ 1 then 1 else 2)) ∧
    (s.enc.state = .idle → exec .encFinish s = .next { s with enc := { s.enc with empty := true, state := .fin } }) ∧
    (s.enc.state = .fin →
      exec .encFinish s =
        .next { s with enc := { s.enc with state := .fault, fcause := .illegalState, fcmd := encode .encFinish } })

/-- R127: `ENC.RESET` in every state, FAULT included, gives every element of ENC its reset value and touches nothing of DEC;
a word of its opcode with another bit set is no reset but an illegal word. -/
def Obligations.EncResetStartsANewRun : Prop :=
  (∀ s : State, exec .encReset s = .next { s with enc := ⟨[], 0#8, 0#4, .idle, false, .none, 0#32, []⟩ }) ∧
  decode .enc 0x10000000#32 = .ok .encReset ∧
  ∀ w : Word, w.extractLsb' 28 4 = 0x1#4 → w ≠ 0x10000000#32 → ∃ e, decode .enc w = .error e

/-- R120: ENC's transition table, one clause per row, each covering every word on `enc_cmd`. -/
def Obligations.EncTransitionTable : Prop :=
  ∀ (s t : State) (w : Word) (rest : List HostEvent), s.host = .cmd .enc w :: rest → step s = .next t →
    (decode .enc w = .ok .encReset → t.enc.state = .idle) ∧
    (∀ e, decode .enc w = .error e → s.enc.state ≠ .fault → t.enc.state = .fault ∧ t.enc.fcause = .illegalCmd) ∧
    (∀ sym code, decode .enc w = .ok (.encLoad sym code) → s.enc.state = .idle →
      (t.enc.state = .idle ∧ t.enc.fcause = s.enc.fcause) ∨
      (t.enc.state = .fault ∧ (t.enc.fcause = .codeSentinel ∨ t.enc.fcause = .cbFull))) ∧
    (∀ sym code, decode .enc w = .ok (.encLoad sym code) → s.enc.state = .pack ∨ s.enc.state = .fin →
      t.enc.state = .fault ∧ t.enc.fcause = .illegalState) ∧
    (∀ i, (∃ code, i = .encCode code) ∨ (∃ sym, i = .encSym sym) → decode .enc w = .ok i →
      s.enc.state = .idle ∨ s.enc.state = .pack →
      (t.enc.state = .pack ∧ t.enc.fcause = s.enc.fcause) ∨
      (t.enc.state = .fault ∧ ((t.enc.fcause = .codeSentinel ∧ ∃ code, i = .encCode code) ∨
        (t.enc.fcause = .symUnmapped ∧ ∃ sym, i = .encSym sym)))) ∧
    (∀ i, (∃ code, i = .encCode code) ∨ (∃ sym, i = .encSym sym) ∨ i = .encFinish → decode .enc w = .ok i →
      s.enc.state = .fin → t.enc.state = .fault ∧ t.enc.fcause = .illegalState) ∧
    (decode .enc w = .ok .encFinish → s.enc.state = .idle →
      t.enc.state = .fin ∧ t.enc.empty = true ∧ t.enc.out = s.enc.out) ∧
    (decode .enc w = .ok .encFinish → s.enc.state = .pack → t.enc.state = .fin ∧ t.enc.empty = s.enc.empty) ∧
    (decode .enc w ≠ .ok .encReset → s.enc.state = .fault → t.enc = s.enc)

/-! ### DEC's commands -/

/-- R102: `DEC.LOAD` in every state of DEC outside FAULT: the entry is appended, or the first of the three faults in the rule's order. -/
def Obligations.DecLoadAppendsOrFaults : Prop :=
  ∀ (sym : Sym) (code : Code) (s : State),
    (s.dec.state = .idle → code ≠ 127#7 → s.dec.cb.length < 127 →
      exec (.decLoad sym code) s = .next { s with dec := { s.dec with cb := s.dec.cb ++ [⟨sym, code⟩] } }) ∧
    (s.dec.state = .run ∨ s.dec.state = .done ∨ s.dec.state = .ended →
      exec (.decLoad sym code) s =
        .next { s with dec := { s.dec with state := .fault, fcause := .illegalState, fcmd := encode (.decLoad sym code) } }) ∧
    (s.dec.state = .idle → code = 127#7 →
      exec (.decLoad sym code) s =
        .next { s with dec := { s.dec with state := .fault, fcause := .codeSentinel, fcmd := encode (.decLoad sym code) } }) ∧
    (s.dec.state = .idle → code ≠ 127#7 → s.dec.cb.length = 127 →
      exec (.decLoad sym code) s =
        .next { s with dec := { s.dec with state := .fault, fcause := .cbFull, fcmd := encode (.decLoad sym code) } })

/-- R151 to R154, R156: in IDLE or RUN, when the buffer is large enough for the byte, `DEC.BYTE` is the source's decoder on the byte's bits,
most significant first: its buffer, the symbols it emits, DONE exactly when it meets the sentinel; RBYTE holds the byte and RCNT the number
of bits not delivered, which the model carries on after the command (R37, R156; log 5, DEDUCED). -/
def Obligations.DecByteRunsTheGreedyMatcher : Prop :=
  ∀ (byte : Byte) (s : State), s.dec.state = .idle ∨ s.dec.state = .run →
    s.dec.greedy.fits 13 s.dec.cb (bitsMSB byte) →
    exec (.decByte byte) s = .next { s with dec := { s.dec with
      buf := (s.dec.greedy.bits s.dec.cb (bitsMSB byte)).buf
      out := s.dec.out ++ (s.dec.greedy.bits s.dec.cb (bitsMSB byte)).syms
      state := if (s.dec.greedy.bits s.dec.cb (bitsMSB byte)).ended then .done else .run
      rbyte := byte
      rcnt := BitVec.ofNat 4 (8 - (s.dec.greedy.bits s.dec.cb (bitsMSB byte)).taken) } }

/-- R155, R233: in IDLE or RUN with at most 13 bits buffered, when the buffer is not large enough for the byte, `DEC.BYTE` ends in FAULT with
`BUF_OVERFLOW` and a full buffer: the bits before the overflowing one, and only they, have had their effect on the buffer and the trace.
RBYTE holds the byte, and RCNT has already been decremented for the overflowing bit, so it is 7 less the bits delivered: the model's reading of
the loop of R156 (log 5, DEDUCED). -/
def Obligations.DecByteOverflowKeepsEarlierBits : Prop :=
  ∀ (byte : Byte) (s : State), s.dec.state = .idle ∨ s.dec.state = .run → s.dec.buf.length ≤ 13 →
    ¬ s.dec.greedy.fits 13 s.dec.cb (bitsMSB byte) →
    ∃ n < 8,
      (s.dec.greedy.bits s.dec.cb ((bitsMSB byte).take n)).ended = false ∧
      (s.dec.greedy.bits s.dec.cb ((bitsMSB byte).take n)).buf.length = 13 ∧
      exec (.decByte byte) s = .next { s with dec := { s.dec with
        buf := (s.dec.greedy.bits s.dec.cb ((bitsMSB byte).take n)).buf
        out := s.dec.out ++ (s.dec.greedy.bits s.dec.cb ((bitsMSB byte).take n)).syms
        state := .fault
        fcause := .bufOverflow
        fcmd := encode (.decByte byte)
        rbyte := byte
        rcnt := BitVec.ofNat 4 (7 - n) } }

/-- R156: outside IDLE and RUN: in DONE the byte is ignored, in ENDED it raises `ILLEGAL_STATE`, in FAULT it is discarded. -/
def Obligations.DecByteAfterTheRunEnded : Prop :=
  ∀ (byte : Byte) (s : State),
    (s.dec.state = .done → exec (.decByte byte) s = .next s) ∧
    (s.dec.state = .ended →
      exec (.decByte byte) s =
        .next { s with dec := { s.dec with state := .fault, fcause := .illegalState, fcmd := encode (.decByte byte) } }) ∧
    (s.dec.state = .fault → exec (.decByte byte) s = .next s)

/-- R156: three symbols from one byte are impossible. -/
def Obligations.DecByteEmitsAtMostTwoSymbols : Prop :=
  ∀ (byte : Byte) (s t : State), s.dec.buf.length ≤ 13 → exec (.decByte byte) s = .next t →
    ∃ syms, t.dec.out = s.dec.out ++ syms ∧ syms.length ≤ 2

/-- R155: with a buffer that has room for the whole byte the matcher never faults and is the source's software exactly; in particular
with a capacity beyond every buffer that occurs. -/
def Obligations.LargeBufferIsTheSoftware : Prop :=
  ∀ (cap : Nat) (byte : Byte) (cw : Word) (d : DecUnit), d.state = .idle ∨ d.state = .run → d.buf.length + 8 ≤ cap →
    (d.byte cap byte cw).fcause = d.fcause ∧
    (d.byte cap byte cw).buf = (d.greedy.bits d.cb (bitsMSB byte)).buf ∧
    (d.byte cap byte cw).out = d.out ++ (d.greedy.bits d.cb (bitsMSB byte)).syms ∧
    ((d.byte cap byte cw).state = .done ↔ (d.greedy.bits d.cb (bitsMSB byte)).ended = true) ∧
    ((d.byte cap byte cw).state = .run ↔ (d.greedy.bits d.cb (bitsMSB byte)).ended = false)

/-- R157: `DEC.END` ends a run in IDLE or RUN, changing the state alone; is ignored in DONE; raises `ILLEGAL_STATE` in ENDED;
and is discarded in FAULT. -/
def Obligations.DecEndEndsTheRun : Prop :=
  ∀ s : State,
    (s.dec.state = .idle ∨ s.dec.state = .run → exec .decEnd s = .next { s with dec := { s.dec with state := .ended } }) ∧
    (s.dec.state = .done → exec .decEnd s = .next s) ∧
    (s.dec.state = .ended →
      exec .decEnd s = .next { s with dec := { s.dec with state := .fault, fcause := .illegalState, fcmd := encode .decEnd } }) ∧
    (s.dec.state = .fault → exec .decEnd s = .next s)

/-- R158: `DEC.RESET` in every state, FAULT included, gives every element of DEC its reset value (RBYTE, which has none, is not named)
and touches nothing of ENC; a word of its opcode with another bit set is no reset but an illegal word. -/
def Obligations.DecResetStartsANewRun : Prop :=
  (∀ s : State, ∃ rbyte, exec .decReset s = .next { s with dec := ⟨[], [], .idle, .none, 0#32, [], rbyte, 0#4⟩ }) ∧
  decode .dec 0x90000000#32 = .ok .decReset ∧
  ∀ w : Word, w.extractLsb' 28 4 = 0x9#4 → w ≠ 0x90000000#32 → ∃ e, decode .dec w = .error e

/-- R150: DEC's transition table, one clause per entry, each covering every word on `dec_cmd`. -/
def Obligations.DecTransitionTable : Prop :=
  ∀ (s t : State) (w : Word) (rest : List HostEvent), s.host = .cmd .dec w :: rest → step s = .next t →
    (decode .dec w = .ok .decReset → t.dec.state = .idle) ∧
    (∀ e, decode .dec w = .error e → s.dec.state ≠ .fault → t.dec.state = .fault ∧ t.dec.fcause = .illegalCmd) ∧
    (∀ sym code, decode .dec w = .ok (.decLoad sym code) → s.dec.state = .idle →
      (t.dec.state = .idle ∧ t.dec.fcause = s.dec.fcause) ∨
      (t.dec.state = .fault ∧ (t.dec.fcause = .codeSentinel ∨ t.dec.fcause = .cbFull))) ∧
    (∀ sym code, decode .dec w = .ok (.decLoad sym code) → s.dec.state = .run ∨ s.dec.state = .done ∨ s.dec.state = .ended →
      t.dec.state = .fault ∧ t.dec.fcause = .illegalState) ∧
    (∀ byte, decode .dec w = .ok (.decByte byte) → s.dec.state = .idle → s.dec.buf = [] →
      t.dec.fcause = s.dec.fcause ∧ (t.dec.state = .run ∨ t.dec.state = .done)) ∧
    (∀ byte, decode .dec w = .ok (.decByte byte) → s.dec.state = .run →
      (t.dec.fcause = s.dec.fcause ∧ (t.dec.state = .run ∨ t.dec.state = .done)) ∨
      (t.dec.state = .fault ∧ t.dec.fcause = .bufOverflow)) ∧
    (decode .dec w = .ok .decEnd → s.dec.state = .idle ∨ s.dec.state = .run → t.dec.state = .ended) ∧
    (∀ i, (∃ byte, i = .decByte byte) ∨ i = .decEnd → decode .dec w = .ok i → s.dec.state = .done → t.dec = s.dec) ∧
    (∀ i, (∃ byte, i = .decByte byte) ∨ i = .decEnd → decode .dec w = .ok i → s.dec.state = .ended →
      t.dec.state = .fault ∧ t.dec.fcause = .illegalState) ∧
    (decode .dec w ≠ .ok .decReset → s.dec.state = .fault → t.dec = s.dec)

/-- R159: after the sentinel, bytes and ends of any number change nothing of the block; in ENDED nothing but a reset is accepted without a fault. -/
def Obligations.NothingIsDecodedAfterTermination : Prop :=
  (∀ (s : State) (l : List Instr), s.dec.state = .done → (∀ i ∈ l, (∃ byte, i = .decByte byte) ∨ i = .decEnd) →
    State.afterHost { s with host := l.map send } = .next { s with host := [] }) ∧
  ∀ (s t : State) (w : Word) (rest : List HostEvent), s.dec.state = .ended → s.host = .cmd .dec w :: rest →
    decode .dec w ≠ .ok .decReset → step s = .next t → t.dec.state = .fault

/-! ### Faults -/

/-- R233, R234: a command other than `DEC.BYTE` that faults has no effect but fault entry: state, cause and command word. -/
def Obligations.FaultEntryIsPrecise : Prop :=
  ∀ (i : Instr) (s t : State), (∀ byte, i ≠ .decByte byte) → exec i s = .next t →
    (s.enc.state ≠ .fault → t.enc.state = .fault → t.enc.fcause ≠ .none ∧
      t = { s with enc := { s.enc with state := .fault, fcause := t.enc.fcause, fcmd := encode i } }) ∧
    (s.dec.state ≠ .fault → t.dec.state = .fault → t.dec.fcause ≠ .none ∧
      t = { s with dec := { s.dec with state := .fault, fcause := t.dec.fcause, fcmd := encode i } })

/-- R235, R236: a unit in FAULT stays exactly as it is, the first fault recorded, through any words but its own well-formed reset,
whatever happens on the other port. -/
def Obligations.FaultStaysUntilReset : Prop :=
  (∀ (s : State) (evs : List HostEvent), s.enc.state = .fault →
    (∀ ev ∈ evs, ∃ p w, ev = .cmd p w ∧ (p = .enc → decode .enc w ≠ .ok .encReset)) →
    ∃ t, State.afterHost { s with host := evs } = .next t ∧ t.enc = s.enc) ∧
  ∀ (s : State) (evs : List HostEvent), s.dec.state = .fault →
    (∀ ev ∈ evs, ∃ p w, ev = .cmd p w ∧ (p = .dec → decode .dec w ≠ .ok .decReset)) →
    ∃ t, State.afterHost { s with host := evs } = .next t ∧ t.dec = s.dec

/-- R230: which command raises which cause, and in which state; the reset commands never fault. `ILLEGAL_STATE` is raised by a LOAD outside
IDLE, and by any command but the reset in FIN or ENDED. -/
def Obligations.CausesOfEachCommand : Prop :=
  ∀ (i : Instr) (s t : State), exec i s = .next t →
    (s.enc.state ≠ .fault → t.enc.state = .fault →
      (t.enc.fcause = .illegalState ∧ i.port = .enc ∧
        (((∃ sym code, i = .encLoad sym code) ∧ (s.enc.state = .pack ∨ s.enc.state = .fin)) ∨ (i ≠ .encReset ∧ s.enc.state = .fin))) ∨
      (t.enc.fcause = .codeSentinel ∧ ((∃ sym, i = .encLoad sym 127#7) ∨ i = .encCode 127#7)) ∨
      (t.enc.fcause = .cbFull ∧ s.enc.cb.length = 127 ∧ ∃ sym code, i = .encLoad sym code) ∨
      (t.enc.fcause = .symUnmapped ∧ ∃ sym, i = .encSym sym ∧ ∀ entry ∈ s.enc.cb, entry.sym ≠ sym)) ∧
    (s.dec.state ≠ .fault → t.dec.state = .fault →
      (t.dec.fcause = .illegalState ∧ i.port = .dec ∧
        (((∃ sym code, i = .decLoad sym code) ∧ (s.dec.state = .run ∨ s.dec.state = .done ∨ s.dec.state = .ended)) ∨
          (i ≠ .decReset ∧ s.dec.state = .ended))) ∨
      (t.dec.fcause = .codeSentinel ∧ ∃ sym, i = .decLoad sym 127#7) ∨
      (t.dec.fcause = .cbFull ∧ s.dec.cb.length = 127 ∧ ∃ sym code, i = .decLoad sym code) ∨
      (t.dec.fcause = .bufOverflow ∧ t.dec.buf.length = 13 ∧ ∃ byte, i = .decByte byte))

/-- R26, R34, R230, R238: the status registers show state, EMPTY and cause in their bits, bit 3 reads 0, and, while the invariants hold,
a cause is shown exactly in FAULT; the level signals are the tests R238 gives (that the sentinel signal drops when DONE goes to FAULT is log 20). -/
def Obligations.StatusRegistersShowTheState : Prop :=
  ∀ (k : Nat) (s : State), s.Inv k →
    s.status.encStat.extractLsb' 0 2 = s.enc.state.bits ∧ s.status.encStat.getLsbD 2 = s.enc.empty ∧
    s.status.encStat.getLsbD 3 = false ∧ s.status.encStat.extractLsb' 4 4 = s.enc.fcause.bits ∧
    s.status.decStat.extractLsb' 0 3 = s.dec.state.bits ∧ s.status.decStat.getLsbD 3 = false ∧
    s.status.decStat.extractLsb' 4 4 = s.dec.fcause.bits ∧
    (s.status.encStat.extractLsb' 4 4 ≠ 0#4 ↔ s.status.encFault = true) ∧
    (s.status.decStat.extractLsb' 4 4 ≠ 0#4 ↔ s.status.decFault = true) ∧
    (s.status.encFault = true ↔ s.enc.state = .fault) ∧ (s.status.decFault = true ↔ s.dec.state = .fault) ∧
    (s.status.sentinelSeen = true ↔ s.dec.state = .done) ∧ (s.status.emptyRun = true ↔ s.enc.empty = true) ∧
    s.status.encCbn.toNat = s.enc.cb.length ∧ s.status.decCbn.toNat = s.dec.cb.length ∧ s.dec.blen.toNat = s.dec.buf.length

/-! ### Invariants -/

/-- R41, R42: the invariants hold after reset, no code having been packed. -/
def Obligations.InvariantsHoldAtReset : Prop := State.reset.Inv 0

/-- R42: every step keeps the invariants, `k` being the number of codes packed in ENC's run. -/
def Obligations.StepKeepsTheInvariants : Prop :=
  ∀ (k : Nat) (s t : State), s.Inv k → step s = .next t → t.Inv (s.packedNext k)

/-! ### The two units, the tables, the traces -/

/-- R20: a command of one unit changes nothing of the other, and what it does depends on its own unit's state alone. -/
def Obligations.UnitsShareNoState : Prop :=
  ∀ (i : Instr) (s t s' t' : State), exec i s = .next t → exec i s' = .next t' →
    t.host = s.host ∧
    (i.port = .enc → t.dec = s.dec ∧ (s.enc = s'.enc → t.enc = t'.enc)) ∧
    (i.port = .dec → t.enc = s.enc ∧ (s.dec = s'.dec → t.dec = t'.dec))

/-- R63: any interleaving of words to ENC and words to DEC gives each unit the state and the trace it has when its own words run alone. -/
def Obligations.InterleavingLeavesEachUnitAsAlone : Prop :=
  ∀ (s : State) (xs : List (Port × Word)), ∃ t u v,
    State.afterHost { s with host := xs.map fun x => .cmd x.1 x.2 } = .next t ∧
    State.afterHost { s with host := (xs.filter fun x => decide (x.1 = .enc)).map fun x => .cmd x.1 x.2 } = .next u ∧
    State.afterHost { s with host := (xs.filter fun x => decide (x.1 = .dec)).map fun x => .cmd x.1 x.2 } = .next v ∧
    t.enc = u.enc ∧ t.dec = v.dec ∧ u.dec = s.dec ∧ v.enc = s.enc

/-- R51: a table entry is written once, at the end of the table, by a LOAD; no command overwrites or removes one; only reset empties a table. -/
def Obligations.TablesAreAppendOnly : Prop :=
  ∀ (i : Instr) (s t : State), exec i s = .next t →
    (t.enc.cb = s.enc.cb ∨ (i = .encReset ∧ t.enc.cb = []) ∨
      ∃ sym code, i = .encLoad sym code ∧ s.enc.state = .idle ∧ t.enc.cb = s.enc.cb ++ [⟨sym, code⟩]) ∧
    (t.dec.cb = s.dec.cb ∨ (i = .decReset ∧ t.dec.cb = []) ∨
      ∃ sym code, i = .decLoad sym code ∧ s.dec.state = .idle ∧ t.dec.cb = s.dec.cb ++ [⟨sym, code⟩])

/-- R52, R162: no command but a unit's reset takes back or reorders what was emitted, and only the streaming commands emit:
at most one byte for `ENC.CODE` and `ENC.SYM`, two for `ENC.FINISH`, two symbols for `DEC.BYTE`. -/
def Obligations.TracesOnlyGrow : Prop :=
  ∀ (i : Instr) (s t : State), s.enc.nbits.toNat ≤ 7 → s.dec.buf.length ≤ 13 → exec i s = .next t →
    (i ≠ .encReset → ∃ more, t.enc.out = s.enc.out ++ more ∧
      more.length ≤ match i with
        | .encCode _ => 1
        | .encSym _ => 1
        | .encFinish => 2
        | _ => 0) ∧
    (i ≠ .decReset → ∃ more, t.dec.out = s.dec.out ++ more ∧
      more.length ≤ match i with
        | .decByte _ => 2
        | _ => 0)

/-- R103, R104, R105: both lookups find the entry of the lowest matching index and no other, and find nothing exactly when no entry matches:
the loop is the parallel compare with a lowest-index-first priority encoder. -/
def Obligations.LookupsTakeTheLowestIndex : Prop :=
  ∀ cb : List Entry,
    (∀ (s : Sym) (c : Code), lookupSym cb s = some c ↔
      ∃ (n : Nat) (h : n < cb.length), cb[n].sym = s ∧ cb[n].code = c ∧ ∀ (m : Nat) (hm : m < n), cb[m].sym ≠ s) ∧
    (∀ s : Sym, lookupSym cb s = none ↔ ∀ entry ∈ cb, entry.sym ≠ s) ∧
    (∀ (w : Code) (s : Sym), lookupCode cb w = some s ↔
      ∃ (n : Nat) (h : n < cb.length), cb[n].code = w ∧ cb[n].sym = s ∧ ∀ (m : Nat) (hm : m < n), cb[m].code ≠ w) ∧
    (∀ w : Code, lookupCode cb w = none ↔ ∀ entry ∈ cb, entry.code ≠ w)

/-- R164: with pairwise distinct codes the order of the entries of DCB changes no lookup, so it changes no decoding;
with pairwise distinct symbols the order of ECB changes no encoding. -/
def Obligations.EntryOrderDoesNotMatter : Prop :=
  ∀ cb cb' : List Entry, cb.Perm cb' →
    ((cb.map Entry.sym).Nodup → ∀ (s : State) (sym : Sym), s.enc.cb = cb →
      ∃ t, exec (.encSym sym) s = .next t ∧
        exec (.encSym sym) { s with enc := { s.enc with cb := cb' } } = .next { t with enc := { t.enc with cb := cb' } }) ∧
    ((cb.map Entry.code).Nodup → ∀ (s : State) (byte : Byte), s.dec.cb = cb →
      ∃ t, exec (.decByte byte) s = .next t ∧
        exec (.decByte byte) { s with dec := { s.dec with cb := cb' } } = .next { t with dec := { t.dec with cb := cb' } })

/-! ### Laws of whole runs. That a run completes has the premise of R284, that the host takes every output item (log 8). -/

/-- R128, R42 (b): from any state, after `ENC.RESET`, the LOADs of a table and `k` legal pushes, ENC has emitted `floor(7k/8)` bytes,
`7k mod 8` bits are pending, and the bits taken are the codes' bits in order. -/
def Obligations.PackedBitsBeforeFinish : Prop :=
  ∀ (s : State) (cb : List Entry) (pushes : List Instr) (codes : List Code), cb.length ≤ 127 → (∀ entry ∈ cb, entry.code ≠ 127#7) →
    pushes.map (pushedCode cb) = codes.map some →
    ∃ t, State.afterHost { s with host :=
        [send .encReset] ++ cb.map (fun e => send (.encLoad e.sym e.code)) ++ pushes.map send } = .next t ∧
      t.enc.out.length = 7 * codes.length / 8 ∧ t.enc.nbits.toNat = 7 * codes.length % 8 ∧
      t.enc.stream = codes.flatMap bitsMSB ∧ t.enc.cb = cb ∧ t.enc.fcause = .none ∧ t.dec = s.dec

/-- R80, R82, R128, R129: from any state, an encode run of `N >= 1` legal pushes ends in FIN with no fault, and its bytes, most significant
bit first, are the codes, the sentinel and the padding: `ceil((7N + 7) / 8)` bytes. -/
def Obligations.EncodeRunGivesTheBitstream : Prop :=
  ∀ (s : State) (cb : List Entry) (pushes : List Instr) (codes : List Code), cb.length ≤ 127 → (∀ entry ∈ cb, entry.code ≠ 127#7) →
    pushes.map (pushedCode cb) = codes.map some → codes ≠ [] →
    ∃ t, State.afterHost { s with host := encodeRunOf cb pushes } = .next t ∧
      t.enc.state = .fin ∧ t.enc.fcause = .none ∧ t.enc.empty = false ∧
      bytesBits t.enc.out = streamBits codes ∧ t.enc.out = bitstream codes ∧
      t.enc.out.length = (7 * codes.length + 7 + 7) / 8 ∧ t.dec = s.dec

/-- R126 (b), R237 (a): a run that pushes nothing ends in FIN with EMPTY set, no byte and no fault, whatever was loaded. -/
def Obligations.EmptyRunEmitsNothing : Prop :=
  ∀ (s : State) (cb : List Entry), cb.length ≤ 127 → (∀ entry ∈ cb, entry.code ≠ 127#7) →
    ∃ t, State.afterHost { s with host := encodeRunOf cb [] } = .next t ∧
      t.enc.state = .fin ∧ t.enc.empty = true ∧ t.enc.out = [] ∧ t.enc.fcause = .none ∧ t.enc.cb = cb ∧ t.dec = s.dec

/-- R159, R160, R207: a decode run on a well-formed stream, followed by any bytes, ends in DONE with no fault, the symbols being those of the codes
in order; and at no point of the run after its reset are more than seven bits buffered. -/
def Obligations.WellFormedStreamDecodes : Prop :=
  ∀ (s : State) (cb : List Entry) (codes : List Code) (extra : List Byte), WellFormedCodebook cb → codes ≠ [] →
    (∀ c ∈ codes, c ∈ cb.map Entry.code) →
    (∃ t, State.afterHost { s with host := decodeRun cb (bitstream codes ++ extra) } = .next t ∧
      t.dec.state = .done ∧ t.dec.fcause = .none ∧ t.dec.out.map some = codes.map (lookupCode cb) ∧ t.enc = s.enc) ∧
    ∀ n ≥ 1, ∃ t, Host.Core.run Sys2Proof.core n { s with host := decodeRun cb (bitstream codes ++ extra) } = .next t ∧
      t.dec.buf.length ≤ 7

/-- R163: the round trip at block level. With a well-formed codebook and symbols of it, the bytes of an encode run fed to a decode run
with the same codebook give the symbols back, with no fault, ENC in FIN and DEC in DONE; for no symbol at all, no byte, EMPTY, and ENDED. -/
def Obligations.BlockRoundTrip : Prop :=
  ∀ (s : State) (cb : List Entry) (syms : List Sym), WellFormedCodebook cb → (∀ x ∈ syms, x ∈ cb.map Entry.sym) →
    ∃ t u, State.afterHost { s with host := encodeRun cb syms } = .next t ∧
      State.afterHost { t with host := decodeRun cb t.enc.out } = .next u ∧
      u.clean ∧ u.enc.over ∧ u.dec.over ∧ u.dec.out = syms ∧
      (syms ≠ [] → u.enc.empty = false ∧ u.dec.state = .done) ∧
      (syms = [] → t.enc.out = [] ∧ u.enc.empty = true ∧ u.dec.state = .ended)

/-! ### The host's side (`43_host_codebook.md`); the runs in it complete under the premise of R284 (log 8) -/

/-- R193, R195, R196, R206: the builder gives a well-formed codebook of exactly the bytes that occur, in rank order, the code of rank `i` being `i`;
R192, R197: it reports an empty input, and an input with more than 127 distinct bytes. -/
def Obligations.BuilderGivesAWellFormedCodebook : Prop :=
  ∀ input : List Byte,
    (∀ cb, buildCodebook input = .ok cb →
      WellFormedCodebook (cb.map HostEntry.toEntry) ∧ (∀ x, x ∈ cb.map HostEntry.sym ↔ x ∈ input) ∧
      (∀ e ∈ cb, e.count = input.count e.sym ∧ e.total = input.length) ∧
      (∀ (n : Nat) (h : n < cb.length), cb[n].code.toNat = n) ∧
      cb.Pairwise fun a b => a.count < b.count ∨ (a.count = b.count ∧ a.sym < b.sym)) ∧
    (buildCodebook input = .error .emptyInput ↔ input = []) ∧
    (buildCodebook input = .error .tooManySymbols ↔ 127 < input.toFinset.card)

/-- R208, R200, R204: for every byte and every notion of printable, parsing the field of a symbol gives the symbol. -/
def Obligations.SymbolEscapingRoundTrip : Prop :=
  ∀ (isPrintable : Byte → Bool) (s : Sym), parseSymbolField isPrintable (symbolField isPrintable s) = some s

/-- R198 to R205: parsing the file the serializer writes gives the pairs back in order, for every notion of printable and every rounding and number of
leading zeros of the probability; and the parser discards the count and the probability: any digits, a point and seven digits will do. -/
def Obligations.CodebookFileRoundTrip : Prop :=
  ∀ (isPrintable : Byte → Bool) (cb : List HostEntry),
    (∀ f : ProbFormat, parseCodebookFile isPrintable (codebookFile isPrintable f cb) = cb.map HostEntry.toEntry) ∧
    ∀ prob : Nat → Nat → List Byte,
      (∀ c n, ∃ whole frac, whole ≠ [] ∧ whole.all isDigit = true ∧ frac.length = 7 ∧ frac.all isDigit = true ∧
        prob c n = whole ++ [0x2E#8] ++ frac) →
      parseCodebookFile isPrintable (cb.flatMap fun e => recordTextWith isPrintable (prob e.count e.total) e) = cb.map HostEntry.toEntry

/-- R208, R192, R197: for every byte sequence that is not empty and has at most 127 distinct values, building a codebook, encoding with it,
writing the codebook and reading it back, and decoding the bytes reproduces the sequence. -/
def Obligations.EndToEndRoundTrip : Prop :=
  ∀ (s : State) (isPrintable : Byte → Bool) (f : ProbFormat) (input : List Byte),
    input ≠ [] → input.toFinset.card ≤ 127 →
    ∃ cb t u, buildCodebook input = .ok cb ∧
      State.afterHost { s with host := encodeRun (cb.map HostEntry.toEntry) input } = .next t ∧
      State.afterHost { t with
        host := decodeRun (parseCodebookFile isPrintable (codebookFile isPrintable f cb)) t.enc.out } = .next u ∧
      u.clean ∧ u.dec.state = .done ∧ u.dec.out = input

/-! ### Assembler text -/

/-- R88: assembling what the disassembler prints for a word that is a command of a port gives the word back, on that port. -/
def Obligations.AssemblingThePrintedCommandGivesTheWord : Prop :=
  ∀ (p : Port) (w : Word) (i : Instr), decode p w = .ok i → assembleLine (disassemble p w) = some (some (p, w))

/-- R72, R86: the assembler makes an instruction of exactly the well-formed commands, and every instruction is written as one. -/
def Obligations.AssemblerTakesWellFormedCommands : Prop :=
  (∀ c : SourceCommand, c.toInstr.isSome = true ↔ c.wellFormed = true) ∧
  (∀ i : Instr, i.wellFormed = true ∧ i.toSource.toInstr = some i) ∧
  ∀ (c : SourceCommand) (i : Instr), c.toInstr = some i → i.toSource = c

/-- R88: printed without a port, every word that matches a row of R73 assembles back to itself, on the port its opcode names,
and a word of no row prints as `.illegal` and its digits. Spacing and the case of those digits are the model's choice (log 17). -/
def Obligations.EveryOpcodeMapWordPrintsAndAssemblesBack : Prop :=
  ∀ w : Word,
    (∀ r ∈ opcodeMap, w &&& r.mask = r.bits →
      portOf w = r.mnemonic.port ∧ assembleLine (disassembleWord w) = some (some (r.mnemonic.port, w))) ∧
    ((∀ r ∈ opcodeMap, w &&& r.mask ≠ r.bits) → disassembleWord w = ".illegal ".toList ++ hexText32 w)

/-! ### The end-to-end properties of the source (`43_host_codebook.md` R208) -/

/-- R208: every codebook the builder gives has distinct seven-bit codes in rank order, the sentinel not among them; every symbol field reads back;
and an input that is not empty and has at most 127 distinct bytes is written as two files that decode to it on any block, the bitstream having
`ceil((N*7 + 7)/8)` bytes. R192, R197: an empty input and one with more distinct bytes are reported, and no file is written.
The text details of the file are the model's reading (log 16); that the runs complete has the premise of R284 (log 8). -/
def Obligations.EndToEndPropertiesOfTheSource : Prop :=
  ∀ (isPrintable : Byte → Bool) (f : ProbFormat) (s s' : State) (input : List Byte),
    EscapingRoundTrips isPrintable ∧
    (∀ cb, buildCodebook input = .ok cb → CodesUnique cb ∧ RankOrdered cb ∧ SentinelExclusive cb) ∧
    (input ≠ [] → input.toFinset.card ≤ 127 →
      RoundTrips isPrintable f s s' input ∧
      ∃ files, encodeFiles isPrintable f s input = .ok files ∧ LengthLaw input.length files.bitstream) ∧
    (input = [] → encodeFiles isPrintable f s input = .error .emptyInput) ∧
    (127 < input.toFinset.card → encodeFiles isPrintable f s input = .error .tooManySymbols)

/-- R201, R194: the count field is the count in decimal; the probability field is digits, a point and exactly seven digits, and the number
they stand for is `count / total` to less than one unit of the seventh digit, and at most 1, whatever the rounding and the digits before the point,
which the spec leaves open (D32); the builder's counts are at least 1 and at most the total. -/
def Obligations.ProbabilityFieldIsTheQuotient : Prop :=
  (∀ n : Nat, (decimalText n).all isDigit = true ∧ digitsValue (decimalText n) = n) ∧
  (∀ (f : ProbFormat) (count total : Nat), 1 ≤ count → count ≤ total →
    ∃ whole frac, probabilityText f count total = whole ++ [0x2E#8] ++ frac ∧ whole ≠ [] ∧ whole.all isDigit = true ∧
      frac.length = 7 ∧ frac.all isDigit = true ∧ digitsValue (whole ++ frac) ≤ 10 ^ 7 ∧
      digitsValue (whole ++ frac) * total < count * 10 ^ 7 + total ∧ count * 10 ^ 7 < (digitsValue (whole ++ frac) + 1) * total) ∧
  ∀ (input : List Byte) (cb : List HostEntry), buildCodebook input = .ok cb → ∀ e ∈ cb, 1 ≤ e.count ∧ e.count ≤ e.total
end

