-- ==== Sys2Proof/Laws/BitSeq.lean ====
section
/-! SUPPORT. Bit sequences: `bits_MSB` and `val` undo each other, windows, and the bits of bytes (`00_scope.md` R9, `20_memory.md` R54). -/

namespace Sys2Proof.Machine

/-! ### `bits_MSB` and `val` (`00_scope.md` R9) -/

@[simp] theorem length_bitsMSB {n : Nat} (v : BitVec n) : (bitsMSB v).length = n := by simp [bitsMSB]

@[simp] theorem getElem_bitsMSB {n : Nat} (v : BitVec n) (i : Nat) (h : i < (bitsMSB v).length) :
    (bitsMSB v)[i] = v.getMsbD i := by simp [bitsMSB]

@[simp] theorem val_nil : val [] = 0 := rfl

@[simp] theorem val_append_singleton (s : List Bool) (b : Bool) : val (s ++ [b]) = 2 * val s + b.toNat := by
  simp [val]

theorem val_append (s t : List Bool) : val (s ++ t) = 2 ^ t.length * val s + val t := by
  induction t using List.reverseRecOn with
  | nil => simp
  | append_singleton t b ih =>
    rw [← List.append_assoc, val_append_singleton, val_append_singleton, ih, List.length_append]
    simp [Nat.pow_succ]; ring

theorem val_lt (s : List Bool) : val s < 2 ^ s.length := by
  induction s using List.reverseRecOn with
  | nil => simp
  | append_singleton s b ih =>
    rw [val_append_singleton, List.length_append, List.length_singleton, Nat.pow_succ]
    cases b <;> simp <;> omega

theorem testBit_val (s : List Bool) (i : Nat) : (val s).testBit i = (s.reverse[i]?).getD false := by
  induction s using List.reverseRecOn generalizing i with
  | nil => simp
  | append_singleton s b ih =>
    rw [val_append_singleton, List.reverse_append]
    cases i with
    | zero => cases b <;> simp [Nat.testBit_zero]
    | succ i =>
      have h : (2 * val s + b.toNat) / 2 = val s := by cases b <;> simp; omega
      rw [Nat.testBit_succ, h, ih]
      simp

/-- `val` undoes `bits_MSB` (R9). -/
@[simp] theorem val_bitsMSB {n : Nat} (v : BitVec n) : val (bitsMSB v) = v.toNat := by
  apply Nat.eq_of_testBit_eq
  intro i
  rw [testBit_val, BitVec.testBit_toNat]
  by_cases h : i < n
  · rw [List.getElem?_reverse (by simpa using h)]
    simp [BitVec.getMsbD, show n - 1 - (n - 1 - i) = i by omega, show n - 1 - i < n by omega]
  · have h' : n ≤ i := by omega
    simp [h']

/-- `bits_MSB` undoes `val` (R9). -/
theorem bitsMSB_ofNat_val {n : Nat} (s : List Bool) (h : s.length = n) : bitsMSB (BitVec.ofNat n (val s)) = s := by
  subst h
  apply List.ext_getElem (by simp)
  intro i h1 h2
  rw [getElem_bitsMSB, BitVec.getMsbD, BitVec.getLsbD_ofNat, testBit_val, List.getElem?_reverse (by omega),
    show s.length - 1 - (s.length - 1 - i) = i by omega]
  simp [h2, show s.length - 1 - i < s.length by omega]

theorem bitsMSB_injective {n : Nat} {v w : BitVec n} (h : bitsMSB v = bitsMSB w) : v = w := by
  apply BitVec.eq_of_toNat_eq
  rw [← val_bitsMSB, ← val_bitsMSB, h]

/-- The bits of a byte in the order `DEC.BYTE` delivers them. -/
theorem bitsMSB_byte (b : Byte) : bitsMSB b =
    [b.getLsbD 7, b.getLsbD 6, b.getLsbD 5, b.getLsbD 4, b.getLsbD 3, b.getLsbD 2, b.getLsbD 1, b.getLsbD 0] := by
  simp [bitsMSB, List.range, List.range.loop, BitVec.getMsbD]

/-! ### `last_n` and `drop_last_n` (R9) -/

@[simp] theorem lastN_append (s t : List Bool) : lastN (s ++ t) t.length = t := by simp [lastN]

@[simp] theorem dropLastN_append (s t : List Bool) : dropLastN (s ++ t) t.length = s := by simp [dropLastN]

theorem lastN_append' {s t : List Bool} {n : Nat} (h : t.length = n) : lastN (s ++ t) n = t := by subst h; simp

theorem dropLastN_append' {s t : List Bool} {n : Nat} (h : t.length = n) : dropLastN (s ++ t) n = s := by subst h; simp

theorem length_lastN (s : List Bool) (n : Nat) (h : n ≤ s.length) : (lastN s n).length = n := by
  simp [lastN]; omega

theorem length_dropLastN (s : List Bool) (n : Nat) : (dropLastN s n).length = s.length - n := by simp [dropLastN]

theorem dropLastN_append_lastN (s : List Bool) (n : Nat) : dropLastN s n ++ lastN s n = s := by
  simp [lastN, dropLastN]

/-- A window that is a code's bits is that code (`42_decoder.md` R153). -/
@[simp] theorem window_append_bitsMSB (s : List Bool) (c : Code) : window (s ++ bitsMSB c) = c := by
  rw [window, lastN_append' (by simp : (bitsMSB c).length = Config.codeLen), val_bitsMSB, BitVec.ofNat_toNat,
    BitVec.setWidth_eq]

/-- The bits of a window are the trailing seven bits (R151). -/
theorem bitsMSB_window (buf : List Bool) (h : Config.codeLen ≤ buf.length) : bitsMSB (window buf) = lastN buf Config.codeLen :=
  bitsMSB_ofNat_val _ (length_lastN _ _ h)

/-! ### Byte sequences -/

@[simp] theorem bytesBits_nil : bytesBits [] = [] := rfl

@[simp] theorem bytesBits_append (a b : List Byte) : bytesBits (a ++ b) = bytesBits a ++ bytesBits b := by
  simp [bytesBits]

@[simp] theorem bytesBits_singleton (b : Byte) : bytesBits [b] = bitsMSB b := by simp [bytesBits]

@[simp] theorem length_bytesBits (l : List Byte) : (bytesBits l).length = 8 * l.length := by
  induction l with
  | nil => rfl
  | cons b l ih => simp only [bytesBits, List.flatMap_cons, List.length_append, length_bitsMSB, List.length_cons] at ih ⊢; omega

theorem bytesBits_injective {a b : List Byte} (h : bytesBits a = bytesBits b) : a = b := by
  induction a generalizing b with
  | nil =>
    cases b with
    | nil => rfl
    | cons x b => have := congrArg List.length h; simp at this
  | cons x a ih =>
    cases b with
    | nil => have := congrArg List.length h; simp at this
    | cons y b =>
      have h' : bitsMSB x ++ bytesBits a = bitsMSB y ++ bytesBits b := by simpa [bytesBits] using h
      obtain ⟨h1, h2⟩ := List.append_inj h' (by simp)
      rw [bitsMSB_injective h1, ih h2]

/-- Regrouping the bits of bytes gives the bytes (`30_encoding.md` R80). -/
theorem bitsToBytes_bytesBits (l : List Byte) : bitsToBytes (bytesBits l) = l := by
  induction l with
  | nil => rfl
  | cons b l ih =>
    have h : bytesBits (b :: l) = bitsMSB b ++ bytesBits l := by simp [bytesBits]
    have e := val_bitsMSB b
    rw [h, bitsMSB_byte] at *
    simp only [List.cons_append, List.nil_append, bitsToBytes, ih, e, BitVec.ofNat_toNat, BitVec.setWidth_eq]

end Sys2Proof.Machine
end

