-- ==== Sys2Proof/Laws/Decode.lean ====
section
/-! SUPPORT. Fields of laid-out words, masked words, and what decoding answers (`30_encoding.md` R71 to R75). -/

namespace Sys2Proof

open Machine

/-! ### Fields of a laid-out word (`30_encoding.md` R71, R72) -/

@[simp] theorem opField_layoutSC (op : BitVec 4) (sym : Sym) (code : Code) : opField (layoutSC op sym code) = op := by
  ext i hi
  simp only [opField, layoutSC]
  interval_cases i <;> simp

@[simp] theorem symField_layoutSC (op : BitVec 4) (sym : Sym) (code : Code) : symField (layoutSC op sym code) = sym := by
  ext i hi
  simp only [symField, layoutSC]
  interval_cases i <;> simp

@[simp] theorem codeField_layoutSC (op : BitVec 4) (sym : Sym) (code : Code) : codeField (layoutSC op sym code) = code := by
  ext i hi
  simp only [codeField, layoutSC]
  interval_cases i <;> simp

@[simp] theorem opField_layoutB (op : BitVec 4) (byte : Byte) : opField (layoutB op byte) = op := by
  ext i hi
  simp only [opField, layoutB]
  interval_cases i <;> simp

@[simp] theorem byteField_layoutB (op : BitVec 4) (byte : Byte) : byteField (layoutB op byte) = byte := by
  ext i hi
  simp only [byteField, layoutB]
  interval_cases i <;> simp

@[simp] theorem opField_encode (i : Instr) : opField (encode i) = i.mnemonic.op := by
  cases i <;> simp [encode, Instr.mnemonic]

/-! ### Masked words (R73) -/

/-- The must-be-zero bits of format SC. -/
theorem layoutSC_and_maskSC (op : BitVec 4) (sym : Sym) (code : Code) :
    layoutSC op sym code &&& 0xFFFF0080#32 = op.zeroExtend 32 <<< 28 := by
  ext i hi
  simp only [layoutSC]
  interval_cases i <;> simp

/-- The must-be-zero bits of format S. -/
theorem layoutSC_and_maskS (op : BitVec 4) (sym : Sym) :
    layoutSC op sym 0#7 &&& 0xFFFF00FF#32 = op.zeroExtend 32 <<< 28 := by
  have e : layoutSC op sym 0#7 = (op.zeroExtend 32 <<< 28) ||| (sym.zeroExtend 32 <<< 8) := by simp [layoutSC]
  rw [e]
  ext i hi
  interval_cases i <;> simp

/-- The must-be-zero bits of format C. -/
theorem layoutSC_and_maskC (op : BitVec 4) (code : Code) :
    layoutSC op 0#8 code &&& 0xFFFFFF80#32 = op.zeroExtend 32 <<< 28 := by
  have e : layoutSC op 0#8 code = (op.zeroExtend 32 <<< 28) ||| code.zeroExtend 32 := by simp [layoutSC]
  rw [e]
  ext i hi
  interval_cases i <;> simp

/-- The must-be-zero bits of format B. -/
theorem layoutB_and_maskB (op : BitVec 4) (byte : Byte) :
    layoutB op byte &&& 0xFFFFFF00#32 = op.zeroExtend 32 <<< 28 := by
  ext i hi
  simp only [layoutB]
  interval_cases i <;> simp

/-- A word whose bits outside the operands of format SC are the opcode's is laid out from its own fields. -/
theorem eq_layoutSC {w : Word} (h : w &&& 0xFFFF0080#32 = (opField w).zeroExtend 32 <<< 28) :
    w = layoutSC (opField w) (symField w) (codeField w) := by
  have hb : ∀ i, (w &&& 0xFFFF0080#32).getLsbD i = ((opField w).zeroExtend 32 <<< 28).getLsbD i := fun i => by rw [h]
  apply BitVec.eq_of_getLsbD_eq
  intro i hi
  have := hb i
  simp only [layoutSC, opField, symField, codeField] at this ⊢
  interval_cases i <;> simp at this ⊢ <;> exact this

/-- A word whose bits outside the operand of format B are the opcode's is laid out from its own fields. -/
theorem eq_layoutB {w : Word} (h : w &&& 0xFFFFFF00#32 = (opField w).zeroExtend 32 <<< 28) :
    w = layoutB (opField w) (byteField w) := by
  have hb : ∀ i, (w &&& 0xFFFFFF00#32).getLsbD i = ((opField w).zeroExtend 32 <<< 28).getLsbD i := fun i => by rw [h]
  apply BitVec.eq_of_getLsbD_eq
  intro i hi
  have := hb i
  simp only [layoutB, opField, byteField] at this ⊢
  interval_cases i <;> simp at this ⊢ <;> exact this

/-! ### Rows -/

/-- A row's fixed bits hold its opcode, which every word of the row has (R73). -/
theorem opField_of_holds {r : Row} (hr : r ∈ opcodeMap) {w : Word} (h : r.holds w = true) : opField w = r.mnemonic.op := by
  have hb : w &&& r.mask = r.bits := by simpa [Row.holds] using h
  have e : opField (w &&& r.mask) = opField w &&& opField r.mask := by
    ext i hi; simp [opField]
  have h15 : ∀ x : BitVec 4, x &&& 15#4 = x := by decide
  rw [hb] at e
  simp only [opcodeMap, List.mem_cons, List.not_mem_nil, or_false] at hr
  rcases hr with rfl | rfl | rfl | rfl | rfl | rfl | rfl | rfl | rfl <;>
    simpa [opField, Mnemonic.op, h15] using e.symm

/-- The word of a row on the row's own port finds the row (R75). -/
theorem findRow_of_holds {r : Row} (hr : r ∈ opcodeMap) {w : Word} (h : r.holds w = true) :
    findRow r.mnemonic.port w = some r := by
  have hop := opField_of_holds hr h
  unfold findRow
  cases hf : opcodeMap.find? fun q => decide (q.mnemonic.port = r.mnemonic.port) && q.holds w with
  | none =>
    have := List.find?_eq_none.1 hf r hr
    simp [h] at this
  | some q =>
    have hq := List.mem_of_find?_eq_some hf
    have hqh : q.holds w = true := by have := List.find?_some hf; simp at this; exact this.2
    have hop' := opField_of_holds hq hqh
    rw [hop] at hop'
    congr 1
    simp only [opcodeMap, List.mem_cons, List.not_mem_nil, or_false] at hr hq
    rcases hr with rfl | rfl | rfl | rfl | rfl | rfl | rfl | rfl | rfl <;>
      rcases hq with rfl | rfl | rfl | rfl | rfl | rfl | rfl | rfl | rfl <;>
      first | rfl | exact absurd hop' (by decide)

/-- What decoding answers, in terms of the row found (R75). -/
theorem decode_eq_ok {p : Port} {w : Word} {i : Instr} (h : decode p w = .ok i) :
    ∃ r ∈ opcodeMap, r.mnemonic.port = p ∧ r.holds w = true ∧ i = withOperands r.mnemonic w := by
  unfold decode at h
  cases hf : findRow p w with
  | none => rw [hf] at h; cases h
  | some r =>
    rw [hf] at h
    have hs := List.find?_some hf
    simp only [Bool.and_eq_true, decide_eq_true_eq] at hs
    exact ⟨r, List.mem_of_find?_eq_some hf, hs.1, hs.2, by cases h; rfl⟩

theorem decode_of_holds {r : Row} (hr : r ∈ opcodeMap) {w : Word} (h : r.holds w = true) :
    decode r.mnemonic.port w = .ok (withOperands r.mnemonic w) := by
  simp [decode, findRow_of_holds hr h]

@[simp] theorem mnemonic_withOperands (m : Mnemonic) (w : Word) : (withOperands m w).mnemonic = m := by cases m <;> rfl

theorem port_of_decode {p : Port} {w : Word} {i : Instr} (h : decode p w = .ok i) : i.port = p := by
  obtain ⟨r, _, hp, _, rfl⟩ := decode_eq_ok h
  simpa [Instr.port] using hp

end Sys2Proof
end

