-- ==== Sys2Proof/Laws/EndToEnd.lean ====
section
/-! SUPPORT. What the host reads off the status after a run (`70_reset_and_hazards.md` R273 (5), R274 (5)), and what it then collects. -/

namespace Sys2Proof.Machine

/-- The encoder's host goes on exactly when ENC is in FIN and no fault is recorded. -/
theorem State.encFinished_iff (s : State) : s.status.encFinished = true ↔ s.enc.state = .fin ∧ s.enc.fcause = .none := by
  rw [StatusOutputs.encFinished, decide_eq_true_eq]
  simp only [State.status, EncUnit.estat]
  cases s.enc.state <;> cases s.enc.fcause <;> cases s.enc.empty <;> decide

/-- The decoder's host goes on exactly when DEC's run is over and no fault is recorded. -/
theorem State.decFinished_iff (s : State) : s.status.decFinished = true ↔ s.dec.over ∧ s.dec.fcause = .none := by
  rw [StatusOutputs.decFinished, decide_eq_true_eq]
  simp only [State.status, DecUnit.dstat, DecUnit.over]
  cases s.dec.state <;> cases s.dec.fcause <;> decide

/-- A trace is collected exactly from a run that came to an end with the status asked for. -/
theorem collect_eq_ok {finished : StatusOutputs → Bool} {trace : State → List Byte} {o : Host.Outcome State Fault Refusal} {bytes : List Byte} :
    collect finished trace o = .ok bytes ↔ ∃ t, o = .next t ∧ finished t.status = true ∧ trace t = bytes := by
  cases o with
  | next t => by_cases h : finished t.status = true <;> simp [collect, h]
  | fault r => simp [collect]
  | refused r => simp [collect]

end Sys2Proof.Machine
end

