-- ==== Sys2Proof/Laws/HostCodebook.lean ====
section
/-! SUPPORT. The digits the serializer writes (`43_host_codebook.md` R201): their form, and the number they stand for. -/

namespace Sys2Proof.Machine

theorem isDigit_digitByte (n : Nat) (h : n < 10) : isDigit (digitByte n) = true := by
  interval_cases n <;> rfl

theorem digitByte_value (n : Nat) (h : n < 10) : (digitByte n).toNat - 0x30 = n := by
  interval_cases n <;> rfl

theorem digitByte_eq_digitChar (n : Nat) (h : n < 10) : BitVec.ofNat 8 (Nat.digitChar n).toNat = digitByte n := by
  interval_cases n <;> rfl

/-! ### The number a text of digits stands for -/

@[simp] theorem digitsValue_nil : digitsValue [] = 0 := rfl

@[simp] theorem digitsValue_append_singleton (text : List Byte) (c : Byte) :
    digitsValue (text ++ [c]) = 10 * digitsValue text + (c.toNat - 0x30) := by
  simp [digitsValue]

theorem digitsValue_append (a b : List Byte) : digitsValue (a ++ b) = digitsValue a * 10 ^ b.length + digitsValue b := by
  induction b using List.reverseRecOn with
  | nil => simp
  | append_singleton b c ih =>
    rw [← List.append_assoc, digitsValue_append_singleton, ih, digitsValue_append_singleton, List.length_append]
    simp only [List.length_singleton, pow_succ]; ring

@[simp] theorem digitsValue_zeros (n : Nat) : digitsValue (List.replicate n (digitByte 0)) = 0 := by
  induction n with
  | zero => rfl
  | succ n ih => rw [List.replicate_succ', digitsValue_append_singleton, ih]; rfl

/-! ### A number of any length, and one of a fixed length -/

theorem decimalText_of_lt {n : Nat} (h : n < 10) : decimalText n = [digitByte n] := by
  simp [decimalText, Nat.toDigits_of_lt_base h, digitByte_eq_digitChar n h]

theorem decimalText_of_le {n : Nat} (h : 10 ≤ n) : decimalText n = decimalText (n / 10) ++ [digitByte (n % 10)] := by
  simp [decimalText, Nat.toDigits_of_base_le (by decide) h, digitByte_eq_digitChar (n % 10) (by omega)]

/-- The count field: decimal digits, one at least, standing for the count. -/
theorem decimalText_spec (n : Nat) : decimalText n ≠ [] ∧ (decimalText n).all isDigit = true ∧ digitsValue (decimalText n) = n := by
  induction n using Nat.strongRecOn with
  | _ n ih =>
    by_cases h : n < 10
    · rw [decimalText_of_lt h]
      exact ⟨by simp, by simp [isDigit_digitByte n h], by simp [digitsValue, digitByte_value n h]⟩
    · rw [decimalText_of_le (by omega)]
      obtain ⟨_, h2, h3⟩ := ih (n / 10) (by omega)
      refine ⟨by simp, by simp [h2, isDigit_digitByte (n % 10) (by omega)], ?_⟩
      rw [digitsValue_append_singleton, h3, digitByte_value _ (by omega)]; omega

/-- `k` digits, standing for the number modulo `10 ^ k`. -/
theorem fixedDigits_spec (k n : Nat) :
    (fixedDigits k n).length = k ∧ (fixedDigits k n).all isDigit = true ∧ digitsValue (fixedDigits k n) = n % 10 ^ k := by
  induction k generalizing n with
  | zero => exact ⟨rfl, rfl, by simp [fixedDigits, Nat.mod_one]⟩
  | succ k ih =>
    obtain ⟨h1, h2, h3⟩ := ih (n / 10)
    refine ⟨by simp [fixedDigits, h1], by simp [fixedDigits, h2, isDigit_digitByte (n % 10) (by omega)], ?_⟩
    rw [fixedDigits, digitsValue_append_singleton, h3, digitByte_value _ (by omega), pow_succ', Nat.mod_mul]; omega

/-! ### The probability -/

/-- The field is digits, a point and seven digits, which stand for the rounded quotient. -/
theorem probabilityText_spec (f : ProbFormat) (count total : Nat) :
    ∃ whole frac, probabilityText f count total = whole ++ [0x2E#8] ++ frac ∧ whole ≠ [] ∧ whole.all isDigit = true ∧
      frac.length = 7 ∧ frac.all isDigit = true ∧ digitsValue (whole ++ frac) = f.units count total := by
  obtain ⟨h1, h2, h3⟩ := decimalText_spec (f.units count total / 10 ^ 7)
  obtain ⟨k1, k2, k3⟩ := fixedDigits_spec 7 (f.units count total)
  refine ⟨List.replicate (f.leadingZeros count total) (digitByte 0) ++ decimalText (f.units count total / 10 ^ 7),
    fixedDigits 7 (f.units count total), rfl, fun h => h1 (List.append_eq_nil_iff.1 h).2, ?_, k1, k2, ?_⟩
  · rw [List.all_append, h2, Bool.and_true, List.all_eq_true]
    intro c hc
    rw [List.eq_of_mem_replicate hc]; rfl
  · rw [digitsValue_append, digitsValue_append, digitsValue_zeros, h3, k1, k3]; omega

end Sys2Proof.Machine
end

