-- ==== Sys2Proof/Laws/State.lean ====
section
/-! SUPPORT. One lemma per field per update of the state, and the two cases of the common front end. -/

namespace Sys2Proof.Machine

/-! ### One unit's change leaves the rest (`10_state.md` R20) -/

@[simp] theorem State.onEnc_enc (f : EncUnit → EncUnit) (s : State) : (s.onEnc f).enc = f s.enc := rfl
@[simp] theorem State.onEnc_dec (f : EncUnit → EncUnit) (s : State) : (s.onEnc f).dec = s.dec := rfl
@[simp] theorem State.onEnc_host (f : EncUnit → EncUnit) (s : State) : (s.onEnc f).host = s.host := rfl
@[simp] theorem State.onDec_enc (f : DecUnit → DecUnit) (s : State) : (s.onDec f).enc = s.enc := rfl
@[simp] theorem State.onDec_dec (f : DecUnit → DecUnit) (s : State) : (s.onDec f).dec = f s.dec := rfl
@[simp] theorem State.onDec_host (f : DecUnit → DecUnit) (s : State) : (s.onDec f).host = s.host := rfl
@[simp] theorem State.hardReset_enc (s : State) : s.hardReset.enc = EncUnit.reset := rfl
@[simp] theorem State.hardReset_dec (s : State) : s.hardReset.dec = DecUnit.reset := rfl
@[simp] theorem State.hardReset_host (s : State) : s.hardReset.host = s.host := rfl
@[simp] theorem EncUnit.toReset_eq (e : EncUnit) : e.toReset = EncUnit.reset := rfl
@[simp] theorem DecUnit.toReset_eq (d : DecUnit) : d.toReset = DecUnit.reset := rfl

/-! ### Fault entry writes three fields (`60_exceptions.md` R234) -/

section
variable (c : Cause) (cw : Word) (e : EncUnit) (d : DecUnit)

@[simp] theorem EncUnit.raise_cb : (e.raise c cw).cb = e.cb := rfl
@[simp] theorem EncUnit.raise_acc : (e.raise c cw).acc = e.acc := rfl
@[simp] theorem EncUnit.raise_nbits : (e.raise c cw).nbits = e.nbits := rfl
@[simp] theorem EncUnit.raise_state : (e.raise c cw).state = .fault := rfl
@[simp] theorem EncUnit.raise_empty : (e.raise c cw).empty = e.empty := rfl
@[simp] theorem EncUnit.raise_fcause : (e.raise c cw).fcause = c := rfl
@[simp] theorem EncUnit.raise_fcmd : (e.raise c cw).fcmd = cw := rfl
@[simp] theorem EncUnit.raise_out : (e.raise c cw).out = e.out := rfl

@[simp] theorem DecUnit.raise_cb : (d.raise c cw).cb = d.cb := rfl
@[simp] theorem DecUnit.raise_buf : (d.raise c cw).buf = d.buf := rfl
@[simp] theorem DecUnit.raise_state : (d.raise c cw).state = .fault := rfl
@[simp] theorem DecUnit.raise_fcause : (d.raise c cw).fcause = c := rfl
@[simp] theorem DecUnit.raise_fcmd : (d.raise c cw).fcmd = cw := rfl
@[simp] theorem DecUnit.raise_out : (d.raise c cw).out = d.out := rfl
@[simp] theorem DecUnit.raise_rbyte : (d.raise c cw).rbyte = d.rbyte := rfl
@[simp] theorem DecUnit.raise_rcnt : (d.raise c cw).rcnt = d.rcnt := rfl

end

/-! ### The front end (`60_exceptions.md` R232) -/

theorem EncUnit.unlessFault_of_fault {f : EncUnit → EncUnit} {e : EncUnit} (h : e.state = .fault) : e.unlessFault f = e :=
  if_pos h

theorem EncUnit.unlessFault_of_not_fault {f : EncUnit → EncUnit} {e : EncUnit} (h : e.state ≠ .fault) : e.unlessFault f = f e :=
  if_neg h

theorem DecUnit.unlessFault_of_fault {f : DecUnit → DecUnit} {d : DecUnit} (h : d.state = .fault) : d.unlessFault f = d :=
  if_pos h

theorem DecUnit.unlessFault_of_not_fault {f : DecUnit → DecUnit} {d : DecUnit} (h : d.state ≠ .fault) : d.unlessFault f = f d :=
  if_neg h

end Sys2Proof.Machine
end

