-- ==== Sys2Proof/Laws/Matcher.lean ====
section
/-! SUPPORT. The greedy matcher: the source's decoder on bits, and `DecBit` and the loop of `DEC.BYTE` against it (`42_decoder.md` R151 to R156). -/

namespace Sys2Proof.Machine

/-! ### The source's decoder on bits -/

@[simp] theorem Greedy.bits_nil (cb : List Entry) (g : Greedy) : g.bits cb [] = g := rfl

@[simp] theorem Greedy.bits_cons (cb : List Entry) (g : Greedy) (b : Bool) (bits : List Bool) :
    g.bits cb (b :: bits) = (g.bit cb b).bits cb bits := rfl

theorem Greedy.bits_append (cb : List Entry) (g : Greedy) (s t : List Bool) :
    g.bits cb (s ++ t) = (g.bits cb s).bits cb t := by simp [Greedy.bits]

theorem Greedy.bit_of_ended {cb : List Entry} {g : Greedy} (h : g.ended = true) (b : Bool) : g.bit cb b = g := by
  simp [Greedy.bit, h]

/-- Bits beyond the sentinel are ignored (`42_decoder.md` R159). -/
theorem Greedy.bits_of_ended {cb : List Entry} {g : Greedy} (h : g.ended = true) (bits : List Bool) : g.bits cb bits = g := by
  induction bits with
  | nil => rfl
  | cons b bits ih => rw [Greedy.bits_cons, Greedy.bit_of_ended h, ih]

/-- All a bit can do: accumulate, end at the sentinel, or emit a symbol and lose seven bits (R152 to R154). -/
theorem Greedy.bit_cases {cb : List Entry} {g : Greedy} (h : g.ended = false) (b : Bool) :
    (Config.codeLen ≤ g.buf.length + 1 ∧ window (g.buf ++ [b]) = Config.sent ∧
      g.bit cb b = ⟨g.buf ++ [b], g.syms, true, g.taken + 1⟩) ∨
    (∃ s, Config.codeLen ≤ g.buf.length + 1 ∧ window (g.buf ++ [b]) ≠ Config.sent ∧
      lookupCode cb (window (g.buf ++ [b])) = some s ∧
      g.bit cb b = ⟨dropLastN (g.buf ++ [b]) Config.codeLen, g.syms ++ [s], false, g.taken + 1⟩) ∨
    ((Config.codeLen ≤ g.buf.length + 1 →
        window (g.buf ++ [b]) ≠ Config.sent ∧ lookupCode cb (window (g.buf ++ [b])) = none) ∧
      g.bit cb b = ⟨g.buf ++ [b], g.syms, false, g.taken + 1⟩) := by
  by_cases hl : Config.codeLen ≤ g.buf.length + 1
  · by_cases hs : window (g.buf ++ [b]) = Config.sent
    · exact .inl ⟨hl, hs, by simp [Greedy.bit, h, hl, hs]⟩
    · cases hc : lookupCode cb (window (g.buf ++ [b])) with
      | some s => exact .inr (.inl ⟨s, hl, hs, rfl, by simp [Greedy.bit, h, hl, hs, hc]⟩)
      | none => exact .inr (.inr ⟨fun _ => ⟨hs, rfl⟩, by simp [Greedy.bit, h, hl, hs, hc]⟩)
  · exact .inr (.inr ⟨fun hh => absurd hh hl, by simp [Greedy.bit, h, hl]⟩)

theorem Greedy.bit_taken {cb : List Entry} {g : Greedy} (h : g.ended = false) (b : Bool) : (g.bit cb b).taken = g.taken + 1 := by
  obtain ⟨_, _, e⟩ | ⟨_, _, _, _, e⟩ | ⟨_, e⟩ := Greedy.bit_cases h b <;> rw [e]

/-- A bit makes the buffer at most one bit longer. -/
theorem Greedy.bit_buf_le (cb : List Entry) (g : Greedy) (b : Bool) : (g.bit cb b).buf.length ≤ g.buf.length + 1 := by
  cases h : g.ended with
  | true => rw [Greedy.bit_of_ended h]; omega
  | false =>
    obtain ⟨_, _, e⟩ | ⟨_, _, _, _, e⟩ | ⟨_, e⟩ := Greedy.bit_cases h b <;> rw [e] <;> simp [length_dropLastN]

/-- Every bit taken is in the buffer or in a symbol's seven (`42_decoder.md` R165). -/
theorem Greedy.bit_count (cb : List Entry) (g : Greedy) (b : Bool) :
    (g.bit cb b).buf.length + 7 * (g.bit cb b).syms.length + g.taken = g.buf.length + 7 * g.syms.length + (g.bit cb b).taken := by
  cases h : g.ended with
  | true => rw [Greedy.bit_of_ended h]
  | false =>
    obtain ⟨_, _, e⟩ | ⟨_, hl, _, _, e⟩ | ⟨_, e⟩ := Greedy.bit_cases h b <;> rw [e] <;>
      simp [length_dropLastN, Config.codeLen] at * <;> omega

theorem Greedy.bits_count (cb : List Entry) (g : Greedy) (bits : List Bool) :
    (g.bits cb bits).buf.length + 7 * (g.bits cb bits).syms.length + g.taken =
      g.buf.length + 7 * g.syms.length + (g.bits cb bits).taken := by
  induction bits generalizing g with
  | nil => rfl
  | cons b bits ih =>
    have h1 := ih (g.bit cb b)
    have h2 := Greedy.bit_count cb g b
    rw [Greedy.bits_cons]; omega

theorem Greedy.bits_taken_le (cb : List Entry) (g : Greedy) (bits : List Bool) :
    (g.bits cb bits).taken ≤ g.taken + bits.length := by
  induction bits generalizing g with
  | nil => simp
  | cons b bits ih =>
    have h1 := ih (g.bit cb b)
    have h2 : (g.bit cb b).taken ≤ g.taken + 1 := by
      cases h : g.ended with
      | true => rw [Greedy.bit_of_ended h]; omega
      | false => rw [Greedy.bit_taken h]
    rw [Greedy.bits_cons, List.length_cons]; omega

theorem Greedy.bits_taken {cb : List Entry} {g : Greedy} {bits : List Bool} (h : (g.bits cb bits).ended = false) :
    (g.bits cb bits).taken = g.taken + bits.length := by
  induction bits generalizing g with
  | nil => rfl
  | cons b bits ih =>
    rw [Greedy.bits_cons] at h ⊢
    have h0 : g.ended = false := by
      by_contra hh
      have hh : g.ended = true := by simpa using hh
      rw [Greedy.bit_of_ended hh, Greedy.bits_of_ended hh, hh] at h; exact absurd h (by decide)
    rw [ih h, Greedy.bit_taken h0, List.length_cons]; omega

/-- Symbols are only added. -/
theorem Greedy.bits_syms (cb : List Entry) (g : Greedy) (bits : List Bool) : ∃ more, (g.bits cb bits).syms = g.syms ++ more := by
  induction bits generalizing g with
  | nil => exact ⟨[], by simp⟩
  | cons b bits ih =>
    obtain ⟨m, hm⟩ := ih (g.bit cb b)
    have : ∃ m', (g.bit cb b).syms = g.syms ++ m' := by
      cases h : g.ended with
      | true => exact ⟨[], by rw [Greedy.bit_of_ended h]; simp⟩
      | false =>
        obtain ⟨_, _, e⟩ | ⟨s, _, _, _, e⟩ | ⟨_, e⟩ := Greedy.bit_cases h b
        · exact ⟨[], by rw [e]; simp⟩
        · exact ⟨[s], by rw [e]⟩
        · exact ⟨[], by rw [e]; simp⟩
    obtain ⟨m', hm'⟩ := this
    exact ⟨m' ++ m, by rw [Greedy.bits_cons, hm, hm', List.append_assoc]⟩

/-! ### DEC's registers as the source's decoder -/

/-- DEC with the buffer, symbols and ending of the source's decoder in its registers, the bits not taken counted in RCNT. -/
def DecUnit.withGreedy (d : DecUnit) (g : Greedy) : DecUnit :=
  { d with
    buf := g.buf
    out := d.out ++ g.syms
    state := if g.ended then .done else .run
    rcnt := BitVec.ofNat 4 (8 - g.taken) }

@[simp] theorem DecUnit.withGreedy_cb (d : DecUnit) (g : Greedy) : (d.withGreedy g).cb = d.cb := rfl

@[simp] theorem DecUnit.withGreedy_buf (d : DecUnit) (g : Greedy) : (d.withGreedy g).buf = g.buf := rfl

/-- DEC when `DEC.BYTE` has loaded the byte (`42_decoder.md` R156). -/
theorem DecUnit.withGreedy_greedy (d : DecUnit) (byte : Byte) :
    ({ d with rbyte := byte } : DecUnit).withGreedy d.greedy = { d with state := .run, rbyte := byte, rcnt := 8#4 } := by
  simp [DecUnit.withGreedy, DecUnit.greedy]

/-- RCNT counts down with the bits taken. -/
theorem rcnt_sub_one {t : Nat} (h : t < 8) : BitVec.ofNat 4 (8 - t) - 1#4 = BitVec.ofNat 4 (8 - (t + 1)) := by
  interval_cases t <;> rfl

/-- `DecBit` is the source's step while there is room in the buffer (R151 to R154). -/
theorem DecUnit.decBit_greedy {cap : Nat} {cw : Word} {d : DecUnit} {g : Greedy} (b : Bool) (he : g.ended = false)
    (ht : g.taken < 8) (hc : g.buf.length ≠ cap) :
    DecUnit.decBit cap cw b { d.withGreedy g with rcnt := (d.withGreedy g).rcnt - 1#4 } = d.withGreedy (g.bit d.cb b) := by
  have hr : (d.withGreedy g).rcnt - 1#4 = BitVec.ofNat 4 (8 - (g.taken + 1)) := rcnt_sub_one ht
  rw [hr]
  obtain ⟨hl, hs, e⟩ | ⟨s, hl, hs, hk, e⟩ | ⟨hn, e⟩ := Greedy.bit_cases (cb := d.cb) he b
  · simp [DecUnit.decBit, hc, hl, hs, e, DecUnit.withGreedy]
  · simp [DecUnit.decBit, hc, hl, hs, hk, e, DecUnit.withGreedy, DecUnit.emit, he]
  · by_cases hl : Config.codeLen ≤ g.buf.length + 1
    · obtain ⟨hs, hk⟩ := hn hl
      simp [DecUnit.decBit, hc, hl, hs, hk, e, DecUnit.withGreedy, he]
    · simp [DecUnit.decBit, hc, hl, e, DecUnit.withGreedy, he]

/-- The low `n` bits of a byte, highest first. -/
def lowBits (byte : Byte) : Nat → List Bool
  | 0 => []
  | n + 1 => byte.getLsbD n :: lowBits byte n

@[simp] theorem length_lowBits (byte : Byte) (n : Nat) : (lowBits byte n).length = n := by
  induction n with
  | zero => rfl
  | succ n ih => simp [lowBits, ih]

theorem lowBits_eight (byte : Byte) : lowBits byte 8 = bitsMSB byte := (bitsMSB_byte byte).symm

/-- The buffer's room, one bit on. -/
theorem Greedy.fits_cons {cap : Nat} {cb : List Entry} {g : Greedy} {b : Bool} {bits : List Bool} :
    g.fits cap cb (b :: bits) ↔ (g.ended = false → g.buf.length < cap) ∧ (g.bit cb b).fits cap cb bits := by
  constructor
  · intro h
    refine ⟨fun he => h 0 (by simp) (by simpa using he), fun n hn he => ?_⟩
    exact h (n + 1) (by simpa using hn) (by simpa using he)
  · rintro ⟨h0, h1⟩ n hn he
    cases n with
    | zero => exact h0 (by simpa using he)
    | succ n => exact h1 n (by simpa using hn) (by simpa using he)

/-- One turn of the loop (R156). -/
theorem DecUnit.feedBits_succ_of_run {cap : Nat} {cw : Word} {byte : Byte} {d : DecUnit} (n : Nat) (h : d.state = .run) :
    DecUnit.feedBits cap cw byte (n + 1) d =
      DecUnit.feedBits cap cw byte n (DecUnit.decBit cap cw (byte.getLsbD n) { d with rcnt := d.rcnt - 1#4 }) := if_pos h

/-- The loop of `DEC.BYTE` is the source's decoder on the bits it delivers, while they fit the buffer (R156). -/
theorem DecUnit.feedBits_fits {cap : Nat} {cw : Word} {byte : Byte} {d : DecUnit} (n : Nat) {g : Greedy}
    (ht : g.ended = false → g.taken + n = 8) (hf : g.fits cap d.cb (lowBits byte n)) :
    DecUnit.feedBits cap cw byte n (d.withGreedy g) = d.withGreedy (g.bits d.cb (lowBits byte n)) := by
  induction n generalizing g with
  | zero => rfl
  | succ n ih =>
    cases he : g.ended with
    | true =>
      rw [Greedy.bits_of_ended he]
      simp [DecUnit.feedBits, DecUnit.withGreedy, he]
    | false =>
      have ht' := ht he
      obtain ⟨h0, h1⟩ := Greedy.fits_cons.1 (show g.fits cap d.cb (byte.getLsbD n :: lowBits byte n) from hf)
      have hs : (d.withGreedy g).state = .run := by simp [DecUnit.withGreedy, he]
      rw [DecUnit.feedBits_succ_of_run n hs, DecUnit.decBit_greedy _ he (by omega) (by have := h0 he; omega),
        ih (fun _ => by rw [Greedy.bit_taken he]; omega) h1]
      rfl

/-- After a fault the loop delivers nothing more. -/
theorem DecUnit.feedBits_of_not_run {cap : Nat} {cw : Word} {byte : Byte} {d : DecUnit} (n : Nat) (h : d.state ≠ .run) :
    DecUnit.feedBits cap cw byte n d = d := by
  cases n with
  | zero => rfl
  | succ n => simp [DecUnit.feedBits, h]

/-- When the bits do not fit, the loop ends at the first that finds the buffer full, the ones before it having had their effect
(`42_decoder.md` R155, `60_exceptions.md` R233). -/
theorem DecUnit.feedBits_overflow {cap : Nat} {cw : Word} {byte : Byte} {d : DecUnit} (n : Nat) {g : Greedy}
    (ht : g.ended = false → g.taken + n = 8) (hb : g.buf.length ≤ cap) (hf : ¬ g.fits cap d.cb (lowBits byte n)) :
    ∃ k < n, (g.bits d.cb ((lowBits byte n).take k)).ended = false ∧
      (g.bits d.cb ((lowBits byte n).take k)).buf.length = cap ∧
      DecUnit.feedBits cap cw byte n (d.withGreedy g) =
        DecUnit.raise .bufOverflow cw { d.withGreedy (g.bits d.cb ((lowBits byte n).take k)) with
          rcnt := BitVec.ofNat 4 (n - 1 - k) } := by
  induction n generalizing g with
  | zero => exact absurd (fun k hk _ => absurd hk (by simp [lowBits])) hf
  | succ n ih =>
    cases he : g.ended with
    | true =>
      refine absurd (fun k _ hk => ?_) hf
      rw [Greedy.bits_of_ended he, he] at hk
      exact absurd hk (by decide)
    | false =>
      have ht' := ht he
      have hs : (d.withGreedy g).state = .run := by simp [DecUnit.withGreedy, he]
      by_cases hfull : g.buf.length = cap
      · refine ⟨0, by omega, by simpa using he, by simpa using hfull, ?_⟩
        have hr : (d.withGreedy g).rcnt - 1#4 = BitVec.ofNat 4 (n + 1 - 1 - 0) := by
          rw [show (d.withGreedy g).rcnt - 1#4 = BitVec.ofNat 4 (8 - (g.taken + 1)) from rcnt_sub_one (by omega)]
          congr 1; omega
        rw [DecUnit.feedBits_succ_of_run n hs, hr]
        have e : DecUnit.decBit cap cw (byte.getLsbD n) { d.withGreedy g with rcnt := BitVec.ofNat 4 (n + 1 - 1 - 0) } =
            DecUnit.raise .bufOverflow cw { d.withGreedy g with rcnt := BitVec.ofNat 4 (n + 1 - 1 - 0) } := if_pos hfull
        rw [e, DecUnit.feedBits_of_not_run _ (by simp [DecUnit.raise])]
        rfl
      · have hf' : ¬ (g.bit d.cb (byte.getLsbD n)).fits cap d.cb (lowBits byte n) := fun hh =>
          hf (Greedy.fits_cons.2 ⟨fun _ => by omega, hh⟩)
        have hb' : (g.bit d.cb (byte.getLsbD n)).buf.length ≤ cap := by
          have := Greedy.bit_buf_le d.cb g (byte.getLsbD n); omega
        obtain ⟨k, hk, h1, h2, h3⟩ := ih (fun _ => by rw [Greedy.bit_taken he]; omega) hb' hf'
        refine ⟨k + 1, by omega, by simpa [lowBits] using h1, by simpa [lowBits] using h2, ?_⟩
        rw [DecUnit.feedBits_succ_of_run n hs, DecUnit.decBit_greedy _ he (by omega) hfull, h3,
          show n + 1 - 1 - (k + 1) = n - 1 - k by omega]
        rfl

/-! ### What `DecBit` and the loop can do -/

/-- All `DecBit` can do in RUN: BUF, the trace and the state change, the state to DONE only with the sentinel in the window; or the buffer
is full and the unit faults (R151 to R155). -/
theorem DecUnit.decBit_cases (cap : Nat) (cw : Word) (b : Bool) (d : DecUnit) (h : d.state = .run) :
    (∃ buf out st, d.decBit cap cw b = { d with buf := buf, out := d.out ++ out, state := st } ∧
      (st = .run ∨ st = .done ∧ Config.codeLen ≤ buf.length ∧ window buf = Config.sent) ∧ buf.length ≤ d.buf.length + 1) ∨
    (d.buf.length = cap ∧ d.decBit cap cw b = d.raise .bufOverflow cw) := by
  unfold DecUnit.decBit
  split
  · rename_i h; exact .inr ⟨h, rfl⟩
  · left
    generalize hb : d.buf ++ [b] = buf
    have hbl : buf.length = d.buf.length + 1 := by rw [← hb]; simp
    dsimp only
    split
    · rename_i h1
      split
      · rename_i h2; exact ⟨buf, [], .done, by simp, .inr ⟨rfl, h1, h2⟩, by omega⟩
      · split
        · rename_i sy _
          exact ⟨dropLastN buf Config.codeLen, [sy], .run, by simp [← h, DecUnit.emit], .inl rfl, by rw [length_dropLastN]; omega⟩
        · exact ⟨buf, [], .run, by simp [← h], .inl rfl, by omega⟩
    · exact ⟨buf, [], .run, by simp [← h], .inl rfl, by omega⟩

/-- All the loop of `DEC.BYTE` can do, whatever the capacity (R156). -/
theorem DecUnit.feedBits_cases (cap : Nat) (cw : Word) (byte : Byte) (n : Nat) (d : DecUnit)
    (h : d.state = .run ∨ d.state = .done ∧ Config.codeLen ≤ d.buf.length ∧ window d.buf = Config.sent) (hn : n ≤ d.rcnt.toNat) :
    ∃ buf out st fc cm rc, d.feedBits cap cw byte n =
        { d with buf := buf, out := d.out ++ out, state := st, fcause := fc, fcmd := cm, rcnt := rc } ∧
      ((fc = d.fcause ∧ cm = d.fcmd ∧ (st = .run ∨ st = .done ∧ Config.codeLen ≤ buf.length ∧ window buf = Config.sent)) ∨
        (fc = .bufOverflow ∧ cm = cw ∧ st = .fault)) ∧
      (d.buf.length ≤ cap → buf.length ≤ cap) ∧ rc.toNat ≤ d.rcnt.toNat := by
  induction n generalizing d with
  | zero => exact ⟨d.buf, [], d.state, d.fcause, d.fcmd, d.rcnt, by simp [DecUnit.feedBits], .inl ⟨rfl, rfl, h⟩, id, le_refl _⟩
  | succ n ih =>
    by_cases hr : d.state = .run
    · have hd : (d.rcnt - 1#4).toNat = d.rcnt.toNat - 1 := by
        have := d.rcnt.isLt; rw [BitVec.toNat_sub]; simp; omega
      rw [DecUnit.feedBits_succ_of_run n hr]
      obtain ⟨buf, out, st, e, hst, hl⟩ | ⟨hl, e⟩ := DecUnit.decBit_cases cap cw (byte.getLsbD n) { d with rcnt := d.rcnt - 1#4 } hr
      · obtain ⟨buf', out', st', fc, cm, rc, e', h1, h2, h3⟩ :=
          ih ({ d with buf := buf, out := d.out ++ out, state := st, rcnt := d.rcnt - 1#4 } : DecUnit) hst
            (by show n ≤ (d.rcnt - 1#4).toNat; omega)
        simp only at e e' h1 h2 h3 hl
        rw [e, e']
        refine ⟨buf', out ++ out', st', fc, cm, rc, by simp, h1, fun hh => ?_, by omega⟩
        by_cases hb : d.buf.length = cap
        · exfalso
          have : DecUnit.decBit cap cw (byte.getLsbD n) { d with rcnt := d.rcnt - 1#4 } =
              DecUnit.raise .bufOverflow cw { d with rcnt := d.rcnt - 1#4 } := if_pos hb
          rw [this] at e
          have := congrArg DecUnit.state e
          simp at this
          rcases hst with h | h <;> simp [← this] at h
        · exact h2 (by omega)
      · rw [e, DecUnit.feedBits_of_not_run _ (by simp)]
        exact ⟨d.buf, [], .fault, .bufOverflow, cw, d.rcnt - 1#4, by simp [DecUnit.raise], .inr ⟨rfl, rfl, rfl⟩, id, by omega⟩
    · rw [DecUnit.feedBits_of_not_run _ hr]
      exact ⟨d.buf, [], d.state, d.fcause, d.fcmd, d.rcnt, by simp, .inl ⟨rfl, rfl, h⟩, id, le_refl _⟩

/-! ### A stream on code boundaries (`42_decoder.md` R160) -/

/-- Fewer than seven bits in an empty buffer only accumulate. -/
theorem Greedy.bits_short {cb : List Entry} (bits : List Bool) {g : Greedy} (he : g.ended = false)
    (hl : g.buf.length + bits.length < 7) :
    g.bits cb bits = ⟨g.buf ++ bits, g.syms, false, g.taken + bits.length⟩ := by
  induction bits generalizing g with
  | nil => cases g; simp_all
  | cons b bits ih =>
    have e : g.bit cb b = ⟨g.buf ++ [b], g.syms, false, g.taken + 1⟩ := by
      simp only [List.length_cons] at hl
      obtain ⟨h, _⟩ | ⟨_, h, _⟩ | ⟨_, e⟩ := Greedy.bit_cases (cb := cb) he b
      · simp [Config.codeLen] at h; omega
      · simp [Config.codeLen] at h; omega
      · exact e
    rw [Greedy.bits_cons, e, ih rfl (by simp at hl ⊢; omega)]
    simp; omega

/-- Seven bits into an empty buffer: the window examined is exactly that code. -/
theorem Greedy.bits_code {cb : List Entry} {g : Greedy} (he : g.ended = false) (hb : g.buf = []) (c : Code) :
    g.bits cb (bitsMSB c) =
      if c = Config.sent then ⟨bitsMSB c, g.syms, true, g.taken + 7⟩
      else match lookupCode cb c with
        | some s => ⟨[], g.syms ++ [s], false, g.taken + 7⟩
        | none => ⟨bitsMSB c, g.syms, false, g.taken + 7⟩ := by
  obtain ⟨six, b, hsb, h6⟩ : ∃ six b, bitsMSB c = six ++ [b] ∧ six.length = 6 := by
    refine ⟨(bitsMSB c).take 6, c.getLsbD 0, ?_, by simp⟩
    simp [bitsMSB, List.range, List.range.loop, BitVec.getMsbD]
  have hw : window (six ++ [b]) = c := by rw [← hsb]; simpa using window_append_bitsMSB [] c
  have h7 : (six ++ [b]).length = 7 := by simp [h6]
  rw [hsb, Greedy.bits_append, Greedy.bits_short six he (by simp [hb, h6]), hb, h6]
  simp only [Greedy.bits_cons, Greedy.bits_nil, List.nil_append]
  obtain ⟨_, hs, e⟩ | ⟨s, _, hs, hk, e⟩ | ⟨hn, e⟩ :=
    Greedy.bit_cases (cb := cb) (g := ⟨six, g.syms, false, g.taken + 6⟩) rfl b <;> rw [e]
  · rw [hw] at hs; simp [hs]
  · rw [hw] at hs hk; simp [hs, hk, dropLastN, h6]
  · obtain ⟨hs, hk⟩ := hn (by simp [h6])
    rw [hw] at hs hk; simp [hs, hk]

end Sys2Proof.Machine
end

