-- ==== Sys2Proof/Laws/Packer.lean ====
section
/-! SUPPORT. The Bit Packer: what `PackBit`, `PackCode` and `Flush` do to the bits taken so far, and what they leave alone (`41_encoder.md` R121, R122, R125). -/

namespace Sys2Proof.Machine

/-! ### `PackBit` (`41_encoder.md` R121) -/

/-- `PackBit` when it fills the byte (R121). -/
theorem EncUnit.packBit_full {e : EncUnit} (b : Bool) (h : e.nbits + 1#4 = 8#4) :
    e.packBit b = { e with acc := 0#8, nbits := 0#4, out := e.out ++ [(e.acc <<< 1) ||| (BitVec.ofBool b).zeroExtend 8] } :=
  if_pos h

/-- `PackBit` when it does not (R121). -/
theorem EncUnit.packBit_notFull {e : EncUnit} (b : Bool) (h : e.nbits + 1#4 ≠ 8#4) :
    e.packBit b = { e with acc := (e.acc <<< 1) ||| (BitVec.ofBool b).zeroExtend 8, nbits := e.nbits + 1#4 } :=
  if_neg h

theorem toNat_add_one {n : BitVec 4} (h : n.toNat ≤ 7) : (n + 1#4).toNat = n.toNat + 1 := by
  rw [BitVec.toNat_add]; simp; omega

theorem add_one_eq_eight {n : BitVec 4} (h : n.toNat ≤ 7) : n + 1#4 = 8#4 ↔ n.toNat = 7 := by
  rw [← BitVec.toNat_inj, toNat_add_one h]; simp

/-- What R42 (a) says of ACC and NBITS. -/
def EncUnit.PackerOk (e : EncUnit) : Prop := e.nbits.toNat ≤ 7 ∧ e.acc.toNat < 2 ^ e.nbits.toNat

/-- The trailing bits of a register, newest last. -/
theorem getElem_lastN_bitsMSB (v : BitVec 8) (n i : Nat) (hn : n ≤ 8) (hi : i < n) (h : i < (lastN (bitsMSB v) n).length) :
    (lastN (bitsMSB v) n)[i] = v.getLsbD (n - 1 - i) := by
  simp only [lastN, List.getElem_drop, getElem_bitsMSB, length_bitsMSB, BitVec.getMsbD]
  simp [show 8 - n + i < 8 by omega, show 7 - (8 - n + i) = n - 1 - i by omega]

@[simp] theorem EncUnit.length_pending (e : EncUnit) (h : e.nbits.toNat ≤ 8) : e.pending.length = e.nbits.toNat := by
  simp [EncUnit.pending, length_lastN, h]

/-- Shifting a bit in appends it to the pending bits. -/
theorem lastN_bitsMSB_shift (acc : BitVec 8) (b : Bool) (n : Nat) (hn : n ≤ 7) :
    lastN (bitsMSB ((acc <<< 1) ||| (BitVec.ofBool b).zeroExtend 8)) (n + 1) = lastN (bitsMSB acc) n ++ [b] := by
  apply List.ext_getElem
  · rw [length_lastN _ _ (by simp; omega), List.length_append, length_lastN _ _ (by simp; omega)]; rfl
  · intro i h1 h2
    have hi : i < n + 1 := by rwa [length_lastN _ _ (by simp; omega)] at h1
    rw [getElem_lastN_bitsMSB _ _ _ (by omega) hi]
    have hl : (lastN (bitsMSB acc) n).length = n := length_lastN _ _ (by simp; omega)
    by_cases h : i < n
    · rw [List.getElem_append_left (by omega), getElem_lastN_bitsMSB _ _ _ (by omega) h]
      simp [show ¬ n - i = 0 by omega, show n - i - 1 = n - 1 - i by omega, show n - i < 8 by omega,
        show ¬ n - i < 1 by omega, BitVec.getLsbD_eq_getElem (show n - 1 - i < 8 by omega)]
    · have : i = n := by omega
      subst this
      rw [List.getElem_append_right (by omega)]
      simp

theorem toNat_shift (acc : BitVec 8) (b : Bool) (h : acc.toNat < 128) :
    ((acc <<< 1) ||| (BitVec.ofBool b).zeroExtend 8).toNat = 2 * acc.toNat + b.toNat := by
  have e : (acc <<< 1) ||| (BitVec.ofBool b).zeroExtend 8 = (acc <<< 1) + (BitVec.ofBool b).zeroExtend 8 := by
    rw [BitVec.add_eq_or_of_and_eq_zero]
    ext i hi
    cases b <;> simp; omega
  rw [e]
  cases b <;> simp [BitVec.toNat_add, BitVec.toNat_shiftLeft, Nat.shiftLeft_eq] <;> omega

theorem EncUnit.packBit_ok {e : EncUnit} (h : e.PackerOk) (b : Bool) : (e.packBit b).PackerOk := by
  obtain ⟨h1, h2⟩ := h
  have h128 : e.acc.toNat < 128 := lt_of_lt_of_le h2 (Nat.pow_le_pow_right (by decide) h1 : 2 ^ e.nbits.toNat ≤ 2 ^ 7)
  by_cases h8 : e.nbits + 1#4 = 8#4
  · rw [packBit_full b h8]; exact ⟨by simp, by simp⟩
  · have h7 := mt (add_one_eq_eight h1).2 h8
    rw [packBit_notFull b h8]
    refine ⟨?_, ?_⟩
    · show (e.nbits + 1#4).toNat ≤ 7
      rw [toNat_add_one h1]; omega
    · show BitVec.toNat (_ ||| _) < 2 ^ (e.nbits + 1#4).toNat
      rw [toNat_add_one h1, toNat_shift _ _ h128, Nat.pow_succ]
      cases b <;> simp <;> omega

theorem EncUnit.packBit_stream {e : EncUnit} (h : e.PackerOk) (b : Bool) : (e.packBit b).stream = e.stream ++ [b] := by
  have h1 := h.1
  have hs := lastN_bitsMSB_shift e.acc b e.nbits.toNat h1
  by_cases h8 : e.nbits + 1#4 = 8#4
  · rw [(add_one_eq_eight h1).1 h8] at hs
    rw [packBit_full b h8]
    simp only [EncUnit.stream, EncUnit.pending, bytesBits_append, bytesBits_singleton, (add_one_eq_eight h1).1 h8,
      List.append_assoc]
    rw [← hs]
    simp [lastN]
  · rw [packBit_notFull b h8]
    simp only [EncUnit.stream, EncUnit.pending, toNat_add_one h1, hs, List.append_assoc]

theorem EncUnit.packBit_nbits {e : EncUnit} (h : e.PackerOk) (b : Bool) :
    (e.packBit b).nbits.toNat = (e.nbits.toNat + 1) % 8 := by
  have h1 := h.1
  by_cases h8 : e.nbits + 1#4 = 8#4
  · rw [packBit_full b h8, (add_one_eq_eight h1).1 h8]; rfl
  · have h7 := mt (add_one_eq_eight h1).2 h8
    rw [packBit_notFull b h8]
    show (e.nbits + 1#4).toNat = _
    rw [toNat_add_one h1]; omega

/-- `PackBit` writes ACC, NBITS and the trace alone, and the trace only grows (R121). -/
theorem EncUnit.packBit_frame (e : EncUnit) (b : Bool) :
    ∃ acc nbits more, e.packBit b = { e with acc := acc, nbits := nbits, out := e.out ++ more } := by
  by_cases h8 : e.nbits + 1#4 = 8#4
  · exact ⟨_, _, _, packBit_full b h8⟩
  · exact ⟨_, _, [], by rw [packBit_notFull b h8, List.append_nil]⟩

/-! ### Pushing a sequence of bits, `PackCode` (R122) -/

@[simp] theorem EncUnit.packBits_nil (e : EncUnit) : e.packBits [] = e := rfl

@[simp] theorem EncUnit.packBits_cons (e : EncUnit) (b : Bool) (bits : List Bool) :
    e.packBits (b :: bits) = (e.packBit b).packBits bits := rfl

theorem EncUnit.packBits_ok {e : EncUnit} (h : e.PackerOk) (bits : List Bool) : (e.packBits bits).PackerOk := by
  induction bits generalizing e with
  | nil => exact h
  | cons b bits ih => exact ih (packBit_ok h b)

theorem EncUnit.packBits_stream {e : EncUnit} (h : e.PackerOk) (bits : List Bool) :
    (e.packBits bits).stream = e.stream ++ bits := by
  induction bits generalizing e with
  | nil => simp
  | cons b bits ih => rw [packBits_cons, ih (packBit_ok h b), packBit_stream h]; simp

theorem EncUnit.packBits_nbits {e : EncUnit} (h : e.PackerOk) (bits : List Bool) :
    (e.packBits bits).nbits.toNat = (e.nbits.toNat + bits.length) % 8 := by
  induction bits generalizing e with
  | nil => have := h.1; simp; omega
  | cons b bits ih => rw [packBits_cons, ih (packBit_ok h b), packBit_nbits h, List.length_cons]; omega

/-- Pushing bits writes ACC, NBITS and the trace alone, and the trace only grows. -/
theorem EncUnit.packBits_frame (e : EncUnit) (bits : List Bool) :
    ∃ acc nbits more, e.packBits bits = { e with acc := acc, nbits := nbits, out := e.out ++ more } := by
  induction bits generalizing e with
  | nil => exact ⟨e.acc, e.nbits, [], by simp⟩
  | cons b bits ih =>
    obtain ⟨a1, n1, o1, h1⟩ := packBit_frame e b
    obtain ⟨a2, n2, o2, h2⟩ := ih (e := e.packBit b)
    exact ⟨a2, n2, o1 ++ o2, by rw [packBits_cons, h2, h1, ← List.append_assoc]⟩

theorem EncUnit.length_stream {e : EncUnit} (h : e.PackerOk) : e.stream.length = 8 * e.out.length + e.nbits.toNat := by
  have h1 : e.nbits.toNat ≤ 8 := by have := h.1; omega
  simp [EncUnit.stream, h1]

/-- Bits in are bits out or pending: the count of bytes emitted (R122, R128). -/
theorem EncUnit.packBits_count {e : EncUnit} (h : e.PackerOk) (bits : List Bool) :
    8 * (e.packBits bits).out.length + (e.packBits bits).nbits.toNat = 8 * e.out.length + e.nbits.toNat + bits.length := by
  rw [← length_stream (packBits_ok h bits), packBits_stream h, List.length_append, length_stream h]

theorem EncUnit.packCode_eq (c : Code) (e : EncUnit) : e.packCode c = e.packBits (bitsMSB c) := rfl

/-! ### What the packer leaves alone (R121, R122, R125) -/

@[simp] theorem EncUnit.packBit_cb (e : EncUnit) (b : Bool) : (e.packBit b).cb = e.cb := by
  obtain ⟨_, _, _, h⟩ := packBit_frame e b; rw [h]
@[simp] theorem EncUnit.packBit_state (e : EncUnit) (b : Bool) : (e.packBit b).state = e.state := by
  obtain ⟨_, _, _, h⟩ := packBit_frame e b; rw [h]
@[simp] theorem EncUnit.packBit_empty (e : EncUnit) (b : Bool) : (e.packBit b).empty = e.empty := by
  obtain ⟨_, _, _, h⟩ := packBit_frame e b; rw [h]
@[simp] theorem EncUnit.packBit_fcause (e : EncUnit) (b : Bool) : (e.packBit b).fcause = e.fcause := by
  obtain ⟨_, _, _, h⟩ := packBit_frame e b; rw [h]
@[simp] theorem EncUnit.packBit_fcmd (e : EncUnit) (b : Bool) : (e.packBit b).fcmd = e.fcmd := by
  obtain ⟨_, _, _, h⟩ := packBit_frame e b; rw [h]

@[simp] theorem EncUnit.packBits_cb (e : EncUnit) (bits : List Bool) : (e.packBits bits).cb = e.cb := by
  obtain ⟨_, _, _, h⟩ := packBits_frame e bits; rw [h]
@[simp] theorem EncUnit.packBits_state (e : EncUnit) (bits : List Bool) : (e.packBits bits).state = e.state := by
  obtain ⟨_, _, _, h⟩ := packBits_frame e bits; rw [h]
@[simp] theorem EncUnit.packBits_empty (e : EncUnit) (bits : List Bool) : (e.packBits bits).empty = e.empty := by
  obtain ⟨_, _, _, h⟩ := packBits_frame e bits; rw [h]
@[simp] theorem EncUnit.packBits_fcause (e : EncUnit) (bits : List Bool) : (e.packBits bits).fcause = e.fcause := by
  obtain ⟨_, _, _, h⟩ := packBits_frame e bits; rw [h]
@[simp] theorem EncUnit.packBits_fcmd (e : EncUnit) (bits : List Bool) : (e.packBits bits).fcmd = e.fcmd := by
  obtain ⟨_, _, _, h⟩ := packBits_frame e bits; rw [h]

@[simp] theorem EncUnit.packCode_cb (e : EncUnit) (c : Code) : (e.packCode c).cb = e.cb := packBits_cb e _
@[simp] theorem EncUnit.packCode_state (e : EncUnit) (c : Code) : (e.packCode c).state = e.state := packBits_state e _
@[simp] theorem EncUnit.packCode_empty (e : EncUnit) (c : Code) : (e.packCode c).empty = e.empty := packBits_empty e _
@[simp] theorem EncUnit.packCode_fcause (e : EncUnit) (c : Code) : (e.packCode c).fcause = e.fcause := packBits_fcause e _
@[simp] theorem EncUnit.packCode_fcmd (e : EncUnit) (c : Code) : (e.packCode c).fcmd = e.fcmd := packBits_fcmd e _

@[simp] theorem EncUnit.flush_cb (e : EncUnit) : e.flush.cb = e.cb := by
  unfold EncUnit.flush; split <;> rfl
@[simp] theorem EncUnit.flush_state (e : EncUnit) : e.flush.state = e.state := by
  unfold EncUnit.flush; split <;> rfl
@[simp] theorem EncUnit.flush_empty (e : EncUnit) : e.flush.empty = e.empty := by
  unfold EncUnit.flush; split <;> rfl
@[simp] theorem EncUnit.flush_fcause (e : EncUnit) : e.flush.fcause = e.fcause := by
  unfold EncUnit.flush; split <;> rfl
@[simp] theorem EncUnit.flush_fcmd (e : EncUnit) : e.flush.fcmd = e.fcmd := by
  unfold EncUnit.flush; split <;> rfl

/-- All `PackCode` does: ACC, NBITS and the trace change alone, the seven bits follow those taken, and a byte comes out exactly when
bits were pending (R122). -/
theorem EncUnit.packCode_spec {e : EncUnit} (h : e.PackerOk) (c : Code) :
    ∃ acc nbits out, e.packCode c = { e with acc := acc, nbits := nbits, out := out } ∧
      bytesBits out ++ lastN (bitsMSB acc) nbits.toNat = e.stream ++ bitsMSB c ∧
      nbits.toNat = (e.nbits.toNat + 7) % 8 ∧ nbits.toNat ≤ 7 ∧ acc.toNat < 2 ^ nbits.toNat ∧
        (e.nbits = 0#4 → out = e.out) ∧ (e.nbits ≠ 0#4 → ∃ b, out = e.out ++ [b]) := by
  obtain ⟨acc, nbits, more, hf⟩ := EncUnit.packBits_frame e (bitsMSB c)
  have hs := EncUnit.packBits_stream h (bitsMSB c)
  have hn := EncUnit.packBits_nbits h (bitsMSB c)
  have ho := EncUnit.packBits_ok h (bitsMSB c)
  have hc := EncUnit.packBits_count h (bitsMSB c)
  rw [hf] at hs hn ho hc
  have h1 := h.1
  have hl : more.length = if e.nbits = 0#4 then 0 else 1 := by
    have e0 : e.nbits = 0#4 ↔ e.nbits.toNat = 0 := by rw [← BitVec.toNat_inj]; simp
    simp at hc hn
    split <;> rename_i hh <;> rw [e0] at hh <;> omega
  refine ⟨acc, nbits, e.out ++ more, hf, hs, by simpa using hn, ho.1, ho.2, fun h0 => ?_, fun h0 => ?_⟩
  · rw [if_pos h0] at hl; simp [List.length_eq_zero_iff.1 hl]
  · rw [if_neg h0] at hl
    obtain ⟨b, hb⟩ := List.length_eq_one_iff.1 hl
    exact ⟨b, by rw [hb]⟩

/-! ### `Flush` (R125) -/

/-- The pending bits shifted to the top of the byte, zero bits below (R125). -/
theorem bitsMSB_flush (acc : BitVec 8) (n : Nat) (h0 : 0 < n) (hn : n ≤ 7) :
    bitsMSB (acc <<< (8 - n)) = lastN (bitsMSB acc) n ++ List.replicate (8 - n) false := by
  have hl : (lastN (bitsMSB acc) n).length = n := length_lastN _ _ (by simp; omega)
  apply List.ext_getElem
  · simp [hl]; omega
  · intro i h1 h2
    have hi : i < 8 := by simpa using h1
    rw [getElem_bitsMSB]
    by_cases h : i < n
    · rw [List.getElem_append_left (by omega), getElem_lastN_bitsMSB _ _ _ (by omega) h, BitVec.getMsbD]
      simp [hi, show ¬ 7 - i < 8 - n by omega, show 7 - i - (8 - n) = n - 1 - i by omega, show 7 - i < 8 by omega,
        BitVec.getLsbD_eq_getElem (show n - 1 - i < 8 by omega)]
    · rw [List.getElem_append_right (by omega), BitVec.getMsbD]
      simp [show 7 - i < 8 - n by omega]

/-- `Flush` pads the pending bits with zero bits to the byte boundary and empties the packer (R125). -/
theorem EncUnit.flush_spec {e : EncUnit} (h : e.PackerOk) :
    ∃ out, e.flush = { e with acc := 0#8, nbits := 0#4, out := out } ∧
      bytesBits out = e.stream ++ List.replicate ((8 - e.nbits.toNat) % 8) false := by
  obtain ⟨h1, h2⟩ := h
  by_cases h0 : e.nbits = 0#4
  · have ha : e.acc = 0 := by
      apply BitVec.eq_of_toNat_eq
      rw [h0] at h2; simp at h2; simp [h2]
    refine ⟨e.out, ?_, ?_⟩
    · cases e; simp_all [EncUnit.flush]
    · simp [EncUnit.stream, EncUnit.pending, h0, lastN]
  · have hpos : 0 < e.nbits.toNat := Nat.pos_of_ne_zero fun hh => h0 (BitVec.eq_of_toNat_eq hh)
    refine ⟨e.out ++ [e.acc <<< (8 - e.nbits.toNat)], if_neg h0, ?_⟩
    rw [bytesBits_append, bytesBits_singleton, bitsMSB_flush _ _ hpos h1, EncUnit.stream, EncUnit.pending,
      Nat.mod_eq_of_lt (by omega : 8 - e.nbits.toNat < 8), List.append_assoc]

end Sys2Proof.Machine
end

