-- ==== Sys2Proof/Laws/PerInstr.lean ====
section
/-! SUPPORT. The word of every instruction is of the instruction's own row, one lemma per constructor. -/

namespace Sys2Proof.Laws.EncodedWordIsOfItsRow

open Sys2Proof Machine

/-- The word of an instruction matches the row of its own mnemonic in the opcode map (`30_encoding.md` R73). -/
def Statement (i : Instr) : Prop := ∃ r ∈ opcodeMap, r.mnemonic = i.mnemonic ∧ r.holds (encode i) = true

theorem encReset : Statement .encReset := ⟨⟨.encReset, 0x10000000#32, 0xFFFFFFFF#32⟩, by decide, rfl, by decide⟩

theorem encLoad (sym : Sym) (code : Code) : Statement (.encLoad sym code) :=
  ⟨⟨.encLoad, 0x20000000#32, 0xFFFF0080#32⟩, by decide, rfl, by
    simp only [Row.holds, encode, Instr.mnemonic, layoutSC_and_maskSC]; decide⟩

theorem encSym (sym : Sym) : Statement (.encSym sym) :=
  ⟨⟨.encSym, 0x30000000#32, 0xFFFF00FF#32⟩, by decide, rfl, by
    simp only [Row.holds, encode, Instr.mnemonic, layoutSC_and_maskS]; decide⟩

theorem encCode (code : Code) : Statement (.encCode code) :=
  ⟨⟨.encCode, 0x40000000#32, 0xFFFFFF80#32⟩, by decide, rfl, by
    simp only [Row.holds, encode, Instr.mnemonic, layoutSC_and_maskC]; decide⟩

theorem encFinish : Statement .encFinish := ⟨⟨.encFinish, 0x50000000#32, 0xFFFFFFFF#32⟩, by decide, rfl, by decide⟩

theorem decReset : Statement .decReset := ⟨⟨.decReset, 0x90000000#32, 0xFFFFFFFF#32⟩, by decide, rfl, by decide⟩

theorem decLoad (sym : Sym) (code : Code) : Statement (.decLoad sym code) :=
  ⟨⟨.decLoad, 0xA0000000#32, 0xFFFF0080#32⟩, by decide, rfl, by
    simp only [Row.holds, encode, Instr.mnemonic, layoutSC_and_maskSC]; decide⟩

theorem decByte (byte : Byte) : Statement (.decByte byte) :=
  ⟨⟨.decByte, 0xB0000000#32, 0xFFFFFF00#32⟩, by decide, rfl, by
    simp only [Row.holds, encode, Instr.mnemonic, layoutB_and_maskB]; decide⟩

theorem decEnd : Statement .decEnd := ⟨⟨.decEnd, 0xC0000000#32, 0xFFFFFFFF#32⟩, by decide, rfl, by decide⟩

end Sys2Proof.Laws.EncodedWordIsOfItsRow
end

