-- ==== Sys2Proof/Laws/Step.lean ====
section
/-! SUPPORT. Everything a command, an event, a step and a run of steps can do, once: one effect on each unit. -/

namespace Sys2Proof.Machine

/-! ### What a command does to each unit -/

/-- What a command does to ENC. -/
def encEffect : Instr → EncUnit → EncUnit
  | .encReset => EncUnit.toReset
  | .encLoad sym code => EncUnit.unlessFault (EncUnit.load sym code (encode (.encLoad sym code)))
  | .encSym sym => EncUnit.unlessFault (EncUnit.symbol sym (encode (.encSym sym)))
  | .encCode code => EncUnit.unlessFault (EncUnit.code code (encode (.encCode code)))
  | .encFinish => EncUnit.unlessFault (EncUnit.finish (encode .encFinish))
  | .decReset | .decLoad _ _ | .decByte _ | .decEnd => id

/-- What a command does to DEC. -/
def decEffect : Instr → DecUnit → DecUnit
  | .decReset => DecUnit.toReset
  | .decLoad sym code => DecUnit.unlessFault (DecUnit.load sym code (encode (.decLoad sym code)))
  | .decByte byte => DecUnit.unlessFault (DecUnit.byte Config.bufCap byte (encode (.decByte byte)))
  | .decEnd => DecUnit.unlessFault (DecUnit.finish (encode .decEnd))
  | .encReset | .encLoad _ _ | .encSym _ | .encCode _ | .encFinish => id

/-- Everything a command can do: one unit's effect, the other unit and the host untouched (`10_state.md` R20). -/
theorem exec_eq (i : Instr) (s : State) :
    exec i s = .next { s with enc := encEffect i s.enc, dec := decEffect i s.dec } := by
  cases i <;> rfl

theorem exec_eq_next {i : Instr} {s t : State} (h : exec i s = .next t) :
    t = { s with enc := encEffect i s.enc, dec := decEffect i s.dec } := by
  rw [exec_eq] at h; cases h; rfl

theorem encEffect_of_dec {i : Instr} (h : i.port = .dec) : encEffect i = id := by
  cases i <;> first | rfl | nomatch h

theorem decEffect_of_enc {i : Instr} (h : i.port = .enc) : decEffect i = id := by
  cases i <;> first | rfl | nomatch h

/-! ### What a host event does to each unit -/

/-- What a word accepted on `enc_cmd` does to ENC (`60_exceptions.md` R232). -/
def encAccept (w : Word) : EncUnit → EncUnit :=
  match decode .enc w with
  | .ok i => encEffect i
  | .error _ => EncUnit.unlessFault (EncUnit.raise .illegalCmd w)

/-- What a word accepted on `dec_cmd` does to DEC (`60_exceptions.md` R232). -/
def decAccept (w : Word) : DecUnit → DecUnit :=
  match decode .dec w with
  | .ok i => decEffect i
  | .error _ => DecUnit.unlessFault (DecUnit.raise .illegalCmd w)

/-- What a host event does to ENC. -/
def encEvent : HostEvent → EncUnit → EncUnit
  | .cmd .enc w => encAccept w
  | .cmd .dec _ => id
  | .rst => EncUnit.toReset

/-- What a host event does to DEC. -/
def decEvent : HostEvent → DecUnit → DecUnit
  | .cmd .enc _ => id
  | .cmd .dec w => decAccept w
  | .rst => DecUnit.toReset

theorem encAccept_of_ok {w : Word} {i : Instr} (h : decode .enc w = .ok i) : encAccept w = encEffect i := by
  simp [encAccept, h]

theorem encAccept_of_error {w : Word} {e : Illegal} (h : decode .enc w = .error e) :
    encAccept w = EncUnit.unlessFault (EncUnit.raise .illegalCmd w) := by
  simp [encAccept, h]

theorem decAccept_of_ok {w : Word} {i : Instr} (h : decode .dec w = .ok i) : decAccept w = decEffect i := by
  simp [decAccept, h]

theorem decAccept_of_error {w : Word} {e : Illegal} (h : decode .dec w = .error e) :
    decAccept w = DecUnit.unlessFault (DecUnit.raise .illegalCmd w) := by
  simp [decAccept, h]

/-- A word accepted on a port does what its event does. -/
theorem accept_eq (p : Port) (w : Word) (s : State) :
    accept p w s = .next { s with enc := encEvent (.cmd p w) s.enc, dec := decEvent (.cmd p w) s.dec } := by
  unfold accept
  cases h : decode p w with
  | ok i =>
    have hp := port_of_decode h
    show exec i s = _
    rw [exec_eq]
    cases p with
    | enc => simp [encEvent, decEvent, encAccept_of_ok h, decEffect_of_enc hp]
    | dec => simp [encEvent, decEvent, decAccept_of_ok h, encEffect_of_dec hp]
  | error e =>
    cases p with
    | enc => simp [State.illegalWord, State.onEnc, encEvent, decEvent, encAccept_of_error h]
    | dec => simp [State.illegalWord, State.onDec, encEvent, decEvent, decAccept_of_error h]

/-- Everything a step can do when the host has an event: the event's effect on each unit, the event taken. -/
theorem step_of_cons {s : State} {ev : HostEvent} {rest : List HostEvent} (h : s.host = ev :: rest) :
    step s = .next ⟨encEvent ev s.enc, decEvent ev s.dec, rest⟩ := by
  have ht : s.takeEvent = some (ev, { s with host := rest }) := by simp [State.takeEvent, h]
  unfold step
  rw [ht]
  cases ev with
  | rst => rfl
  | cmd p w => exact accept_eq p w _

theorem step_of_nil {s : State} (h : s.host = []) : step s = .next s := by
  simp [step, State.takeEvent, h]

/-! ### Many steps -/

/-- One step more, when it answers a next state. -/
theorem run_succ {M : Host.Core} {s s' : M.State} (h : M.step s = .next s') (n : Nat) : M.run (n + 1) s = M.run n s' := by
  rw [Host.Core.run, h]

/-- A number of steps: the events taken act on each unit in order. -/
theorem run_eq (n : Nat) (s : State) :
    Host.Core.run Sys2Proof.core n s =
      .next ⟨(s.host.take n).foldl (fun e ev => encEvent ev e) s.enc, (s.host.take n).foldl (fun d ev => decEvent ev d) s.dec,
        s.host.drop n⟩ := by
  induction n generalizing s with
  | zero => rfl
  | succ n ih =>
    cases h : s.host with
    | nil =>
      rw [run_succ (M := Sys2Proof.core) (step_of_nil h), ih, h]
      simp
    | cons ev rest =>
      rw [run_succ (M := Sys2Proof.core) (step_of_cons h), ih]
      simp

/-- All the host's events. -/
theorem State.afterHost_eq (s : State) :
    s.afterHost = .next ⟨s.host.foldl (fun e ev => encEvent ev e) s.enc, s.host.foldl (fun d ev => decEvent ev d) s.dec, []⟩ := by
  rw [State.afterHost, run_eq, List.take_length, List.drop_length]; rfl

end Sys2Proof.Machine
end

