-- ==== Sys2Proof/Laws/Tables.lean ====
section
/-! SUPPORT. The codebook tables: every append keeps their form, and what a lookup finds is an entry (`40_codebook.md` R101 to R104, `10_state.md` R42). -/

namespace Sys2Proof.Machine

/-! ### The tables keep their form (`10_state.md` R42 (d), (e)) -/

/-- The form every reachable table has: at most 127 entries, none with the sentinel for a code. -/
abbrev TableOk (cb : List Entry) : Prop := cb.length ≤ Config.ncb ∧ ∀ entry ∈ cb, entry.code ≠ Config.sent

theorem TableOk.nil : TableOk [] := ⟨by decide, by simp⟩

/-- The append of a LOAD keeps the form (`40_codebook.md` R101, R102). -/
theorem TableOk.append {cb : List Entry} (h : TableOk cb) {sym : Sym} {code : Code} (hc : code ≠ Config.sent)
    (hl : cbIsFull cb = false) : TableOk (cb ++ [⟨sym, code⟩]) := by
  have hne : cb.length ≠ Config.ncb := by simpa [cbIsFull] using hl
  have hle := h.1
  refine ⟨?_, ?_⟩
  · rw [List.length_append, List.length_singleton]; omega
  · intro entry he
    rw [List.mem_append, List.mem_singleton] at he
    rcases he with he | rfl
    · exact h.2 entry he
    · exact hc

/-! ### What a lookup finds is an entry (`40_codebook.md` R103, R104) -/

theorem mem_of_lookupSym {cb : List Entry} {s : Sym} {c : Code} (h : lookupSym cb s = some c) : ⟨s, c⟩ ∈ cb := by
  induction cb with
  | nil => cases h
  | cons entry rest ih =>
    rw [lookupSym] at h
    split at h
    · rename_i hs
      cases h; subst hs
      exact List.mem_cons_self
    · exact List.mem_cons_of_mem _ (ih h)

theorem mem_of_lookupCode {cb : List Entry} {w : Code} {s : Sym} (h : lookupCode cb w = some s) : ⟨s, w⟩ ∈ cb := by
  induction cb with
  | nil => cases h
  | cons entry rest ih =>
    rw [lookupCode] at h
    split at h
    · rename_i hs
      cases h; subst hs
      exact List.mem_cons_self
    · exact List.mem_cons_of_mem _ (ih h)

/-- With pairwise distinct symbols an entry is what its symbol finds. -/
theorem lookupSym_of_mem {cb : List Entry} (hd : (cb.map Entry.sym).Nodup) {entry : Entry} (h : entry ∈ cb) :
    lookupSym cb entry.sym = some entry.code := by
  induction cb with
  | nil => cases h
  | cons x rest ih =>
    simp only [List.map_cons, List.nodup_cons, List.mem_map] at hd
    rw [lookupSym]
    rcases List.mem_cons.1 h with rfl | h
    · simp
    · rw [if_neg fun hx => hd.1 ⟨entry, h, hx.symm⟩]; exact ih hd.2 h

/-- With pairwise distinct codes an entry is what its code finds. -/
theorem lookupCode_of_mem {cb : List Entry} (hd : (cb.map Entry.code).Nodup) {entry : Entry} (h : entry ∈ cb) :
    lookupCode cb entry.code = some entry.sym := by
  induction cb with
  | nil => cases h
  | cons x rest ih =>
    simp only [List.map_cons, List.nodup_cons, List.mem_map] at hd
    rw [lookupCode]
    rcases List.mem_cons.1 h with rfl | h
    · simp
    · rw [if_neg fun hx => hd.1 ⟨entry, h, hx.symm⟩]; exact ih hd.2 h

end Sys2Proof.Machine
end

