-- ==== Sys2Proof/Tests/Slice0.lean ====
section
/-! SUPPORT. The model's own tests: ill-formed commands, words decoded from the spec's encoding, one-step vectors of
`95_test_vectors.md` (named by their V number), and a witness for the hypotheses of every statement that has some. -/

namespace Sys2Proof.Tests

open Sys2Proof Machine

-- One test after the other: many kernel evaluations at once take much memory.
set_option Elab.async false

/-! ### Helpers -/

/-- The next state of an outcome. -/
def nextOf : Host.Outcome State Fault Refusal → Option State
  | .next s => some s
  | .fault _ => none
  | .refused _ => none

/-- The decoded instruction. -/
def okOf : Except Illegal Instr → Option Instr
  | .ok i => some i
  | .error _ => none

/-- The block after reset with this ENC. -/
def withEnc (e : EncUnit) : State := { State.reset with enc := e }

/-- The block after reset with this DEC. -/
def withDec (d : DecUnit) : State := { State.reset with dec := d }

/-- ENC after reset but for its sequencing state. -/
def encIn (st : EncState) : EncUnit := { EncUnit.reset with state := st }

/-- DEC after reset but for its sequencing state. -/
def decIn (st : DecState) : DecUnit := { DecUnit.reset with state := st }

/-- A full table: `NCB` entries. -/
def fullTable : List Entry := List.replicate 127 ⟨0x41#8, 0#7⟩

/-- A table with room for one entry more. -/
def almostFullTable : List Entry := List.replicate 126 ⟨0x41#8, 0#7⟩

/-- The table of V1. -/
def tableV1 : List Entry := [⟨0x62#8, 0#7⟩, ⟨0x61#8, 1#7⟩]

/-- The state with one word to accept. -/
def sending (p : Port) (w : Word) (s : State) : State := { s with host := [.cmd p w] }

/-- Probabilities rounded down, without leading zeros. -/
def plainProb : ProbFormat := ⟨fun _ _ => false, fun _ _ => 0⟩

/-! ### Well-formed commands (`30_encoding.md` R72, R86): each check refuses an ill-formed one -/

theorem test_operand_of_format_z_refused : (⟨.encReset, [0]⟩ : SourceCommand).toInstr = none := by decide
theorem test_missing_operand_refused : (⟨.encLoad, [0x41]⟩ : SourceCommand).toInstr = none := by decide
theorem test_extra_operand_refused : (⟨.decByte, [1, 2]⟩ : SourceCommand).toInstr = none := by decide
theorem test_symbol_256_of_sc_refused : (⟨.decLoad, [256, 0]⟩ : SourceCommand).toInstr = none := by decide
theorem test_code_128_of_sc_refused : (⟨.encLoad, [0, 128]⟩ : SourceCommand).toInstr = none := by decide
theorem test_symbol_256_of_s_refused : (⟨.encSym, [256]⟩ : SourceCommand).toInstr = none := by decide
theorem test_code_128_of_c_refused : (⟨.encCode, [128]⟩ : SourceCommand).toInstr = none := by decide
theorem test_byte_256_of_b_refused : (⟨.decByte, [256]⟩ : SourceCommand).toInstr = none := by decide
theorem test_code_127_is_well_formed : (⟨.encLoad, [0x41, 127]⟩ : SourceCommand).toInstr = some (.encLoad 0x41 127) := by decide

/-! ### Words written out from R71 to R73: `op` in 31:28, `sym` in 15:8, `code` in 6:0, `byte` in 7:0 (V3) -/

theorem test_decode_encReset : okOf (decode .enc 0b00010000000000000000000000000000#32) = some .encReset := by decide
theorem test_decode_encLoad : okOf (decode .enc 0b00100000000000001111111101111110#32) = some (.encLoad 0xFF 126) := by decide
theorem test_decode_encSym : okOf (decode .enc 0b00110000000000000110000100000000#32) = some (.encSym 0x61) := by decide
theorem test_decode_encCode : okOf (decode .enc 0b01000000000000000000000001010101#32) = some (.encCode 0x55) := by decide
theorem test_decode_encFinish : okOf (decode .enc 0b01010000000000000000000000000000#32) = some .encFinish := by decide
theorem test_decode_decReset : okOf (decode .dec 0b10010000000000000000000000000000#32) = some .decReset := by decide
theorem test_decode_decLoad : okOf (decode .dec 0b10100000000000000110000100000001#32) = some (.decLoad 0x61 1) := by decide
theorem test_decode_decByte : okOf (decode .dec 0b10110000000000000000000011110000#32) = some (.decByte 0xF0) := by decide
theorem test_decode_decEnd : okOf (decode .dec 0b11000000000000000000000000000000#32) = some .decEnd := by decide
theorem test_illegal_words_of_V3_on_enc : [0x00000000#32, 0x60000000#32, 0xF0000000#32, 0x50000001#32, 0x10000001#32, 0x20006180#32,
    0x20016100#32, 0x30006101#32, 0x40000100#32, 0x90000000#32, 0xA0006101#32, 0xB00000F0#32, 0xC0000000#32].all
    (fun w => (okOf (decode .enc w)).isNone) = true := by decide
theorem test_illegal_words_of_V3_on_dec : [0x00000000#32, 0x60000000#32, 0xF0000000#32, 0xB0000100#32, 0x10000000#32, 0x20006200#32,
    0x30006100#32, 0x40000055#32, 0x50000000#32].all (fun w => (okOf (decode .dec w)).isNone) = true := by decide
theorem test_table_word : decodeTableWord 32 0xA0006101 = some (.decLoad 0x61 1) := by decide
theorem test_fetch_runs_the_word : nextOf (step (State.reset.withFetchWord 32 0x40000055)) = nextOf (exec (.encCode 0x55) State.reset) := by decide

/-! ### ENC, one step each -/

/-- V18 row 3. -/
theorem test_encReset : nextOf (exec .encReset (withEnc { EncUnit.reset with cb := [⟨0x41, 0⟩], acc := 0x03, nbits := 7, state := .pack })) =
    some State.reset := by decide
/-- V17 k: the 128th entry. -/
theorem test_encLoad_full : (nextOf (exec (.encLoad 0x7F 0) (withEnc { EncUnit.reset with cb := fullTable }))).map
    (fun t => (t.enc.estat, t.enc.fcmd, t.enc.ecbn)) = some (0x33, 0x20007F00, 127) := by decide +kernel
/-- V17 k2: `CODE_SENTINEL` outranks `CB_FULL`. -/
theorem test_encLoad_sentinel_before_full : (nextOf (exec (.encLoad 0xC8 127) (withEnc { EncUnit.reset with cb := fullTable }))).map
    (fun t => t.enc.fcause) = some .codeSentinel := by decide
/-- V5 row 4: the lower index wins. -/
theorem test_encSym_lowest_index : (nextOf (exec (.encSym 0x41) (withEnc { EncUnit.reset with cb := [⟨0x41, 5⟩, ⟨0x42, 9⟩, ⟨0x41, 6⟩] }))).map
    (fun t => (t.enc.state, t.enc.acc, t.enc.nbits)) = some (.pack, 0x05, 7) := by decide
/-- V5, unmapped, row 3. -/
theorem test_encSym_unmapped : (nextOf (exec (.encSym 0x43)
    (withEnc { EncUnit.reset with cb := [⟨0x41, 5⟩], acc := 0x05, nbits := 7, state := .pack }))).map
    (fun t => (t.enc.estat, t.enc.fcmd, t.enc.acc, t.enc.nbits)) = some (0x53, 0x30004300, 0x05, 7) := by decide
/-- V8, the third code. -/
theorem test_encCode_alignment : (nextOf (exec (.encCode 0x2A) (withEnc { EncUnit.reset with acc := 0x2A, nbits := 6, state := .pack, out := [0x54] }))).map
    (fun t => (t.enc.acc, t.enc.nbits, t.enc.out)) = some (0x0A, 5, [0x54, 0xA9]) := by decide
/-- V4, the last row. -/
theorem test_encCode_sentinel : (nextOf (exec (.encCode 0x7F) State.reset)).map (fun t => (t.enc.estat, t.enc.fcmd, t.enc.nbits)) =
    some (0x43, 0x4000007F, 0) := by decide
/-- V6, `N = 7`: the exact fit, no padding. -/
theorem test_encFinish_exact_fit : (nextOf (exec .encFinish (withEnc { EncUnit.reset with nbits := 1, state := .pack }))).map
    (fun t => (t.enc.estat, t.enc.out)) = some (0x02, [0x7F]) := by decide
/-- V2: the empty run. -/
theorem test_encFinish_empty : (nextOf (exec .encFinish State.reset)).map (fun t => (t.enc.estat, t.enc.out)) = some (0x06, []) := by decide

/-! ### DEC, one step each -/

/-- V16, the last row. -/
theorem test_decReset : nextOf (exec .decReset (withDec { decIn .fault with buf := List.replicate 13 false, fcause := .bufOverflow, fcmd := 0xB0000055 })) =
    some State.reset := by decide
/-- V17 n: a LOAD in RUN. -/
theorem test_decLoad_in_run : (nextOf (exec (.decLoad 1 1) (withDec (decIn .run)))).map (fun t => (t.dec.dstat, t.dec.dcbn)) = some (0x24, 0) := by decide
/-- V1, decode run, row 3. -/
theorem test_decLoad_appends : (nextOf (exec (.decLoad 0x61 1) (withDec { DecUnit.reset with cb := [⟨0x62, 0⟩] }))).map (fun t => t.dec.cb) =
    some tableV1 := by decide
/-- V9, the seventh byte: two symbols from one byte. -/
theorem test_decByte_two_symbols : (nextOf (exec (.decByte 0x2A)
    (withDec { decIn .run with cb := [⟨0x2A, 0x2A⟩], buf := [false, true, false, true, false, true] }))).map
    (fun t => (t.dec.out, t.dec.buf, t.dec.rbyte, t.dec.rcnt)) = some ([0x2A, 0x2A], [], 0x2A, 0) := by decide
/-- V16: the overflow at the sixth bit; two bits of the byte are lost. -/
theorem test_decByte_overflow : (nextOf (exec (.decByte 0x55)
    (withDec { decIn .run with cb := [⟨0x78, 0⟩], buf := [false, true, false, true, false, true, false, true] }))).map
    (fun t => (t.dec.dstat, t.dec.fcmd, t.dec.buf, t.dec.rcnt)) =
    some (0x64, 0xB0000055, [false, true, false, true, false, true, false, true, false, true, false, true, false], 2) := by decide
/-- V10: an end without sentinel. -/
theorem test_decEnd_in_run : (nextOf (exec .decEnd (withDec { decIn .run with buf := [false, false], out := [0x61, 0x61] }))).map
    (fun t => (t.dec.dstat, t.dec.buf, t.dec.out)) = some (0x03, [false, false], [0x61, 0x61]) := by decide
/-- V1, decode run, row 8: an end after the sentinel changes nothing. -/
theorem test_decEnd_in_done : nextOf (exec .decEnd (withDec (decIn .done))) = some (withDec (decIn .done)) := by decide
/-- V17 s: EMPTY survives fault entry. -/
theorem test_estat_empty_in_fault : (nextOf (exec .encFinish (withEnc { encIn .fin with empty := true }))).map (fun t => t.enc.estat) =
    some 0x27 := by decide

/-! ### The host's side -/

/-- V1: the codebook of "aab". -/
theorem test_codebook_of_aab : (match buildCodebook [0x61, 0x61, 0x62] with
    | .ok cb => cb.map HostEntry.toEntry
    | .error _ => []) = tableV1 := by decide
/-- R198, R199: the first line of V1's codebook file, with a probability of seven fractional digits, and an ill-formed line that is skipped (R203). -/
theorem test_codebook_file : parseCodebookFile (fun _ => true)
    ("\"b\",1,0.3333333,\"0000000\"\n\"a\",2,0.66,\"0000001\"\n".toList.map fun c => BitVec.ofNat 8 c.toNat) = [⟨0x62, 0⟩] := by decide
/-- V3: the assembler's spelling of R86. -/
theorem test_assemble_load : assembleLine "ENC.LOAD 'b', 0b0000000 ; first entry".toList = some (some (.enc, 0x20006200#32)) := by decide
/-- R86: a line marked with the other port. -/
theorem test_assemble_marked : assembleLine "D> ENC.SYM 'a'".toList = some (some (.dec, 0x30006100#32)) := by decide
/-- R88: the canonical spelling. -/
theorem test_print_load : printInstr (.decLoad 0x61 1) = "DEC.LOAD 0x61, 0b0000001".toList := by decide
/-- R74, R88: a word of the other unit on a port, and the same word without a port. -/
theorem test_print_other_unit : disassemble .enc 0xB00000F0#32 = ".illegal 0xB00000F0".toList ∧
    disassembleWord 0xB00000F0#32 = "DEC.BYTE 0xF0".toList := by decide
/-- V1: the input `aab` gives the bytes 02 04 07 F0. -/
theorem test_encode_aab : (encodeFiles (fun _ => true) plainProb State.reset [0x61, 0x61, 0x62]).toOption.map EncodedFiles.bitstream =
    some [0x02, 0x04, 0x07, 0xF0] := by decide +kernel
/-- R88: an illegal word. -/
theorem test_print_illegal : disassemble .enc 0x50000001#32 = ".illegal 0x50000001".toList := by decide

/-- R201: a count of 1 out of 3 begins `0.333`, and 2 out of 3 begins `0.66` and has seven digits, under either rounding. -/
theorem test_probability_thirds : (probabilityText plainProb 1 3).take 5 = [0x30#8, 0x2E#8, 0x33#8, 0x33#8, 0x33#8] ∧
    (probabilityText ⟨fun _ _ => true, fun _ _ => 0⟩ 1 3).take 5 = [0x30#8, 0x2E#8, 0x33#8, 0x33#8, 0x33#8] ∧
    (probabilityText ⟨fun _ _ => true, fun _ _ => 0⟩ 2 3) =
      [0x30#8, 0x2E#8, 0x36#8, 0x36#8, 0x36#8, 0x36#8, 0x36#8, 0x36#8, 0x37#8] := by decide +kernel

/-! ### Witnesses: encoding -/

theorem witness_DecodeOfEncodeIsTheCommand : (Instr.encLoad 0xFF 127).wellFormed = true ∧ Port.dec ≠ (Instr.encLoad 0xFF 127).port := by decide
theorem witness_EncodeOfDecodeIsTheWord : decode .enc 0x2000FF7E#32 = .ok (.encLoad 0xFF 126) := rfl
theorem witness_OpcodeRowsAreDisjoint : (⟨.encReset, 0x10000000#32, 0xFFFFFFFF#32⟩ : Row) ∈ opcodeMap ∧
    0x10000000#32 &&& 0xFFFFFFFF#32 = 0x10000000#32 := by decide
theorem witness_ReservedEncodings_opcode : (0x6FFFFFFF#32).extractLsb' 28 4 ∈ [0x0#4, 0x6#4, 0x7#4, 0x8#4, 0xD#4, 0xE#4, 0xF#4] := by decide
theorem witness_ReservedEncodings_bits : decode .enc 0x40000055#32 = .ok (.encCode 0x55) ∧
    (Instr.encCode 0x55).mnemonic.format ∈ [Format.z, Format.c, Format.b] ∧
    (Instr.encCode 0x55).mnemonic.format ∈ [Format.z, Format.sc, Format.s, Format.c] := ⟨rfl, by decide, by decide⟩
theorem witness_ReservedEncodings_bits_z : decode .dec 0xC0000000#32 = .ok .decEnd ∧ Instr.decEnd.mnemonic.format ∈ [Format.z, Format.s] :=
  ⟨rfl, by decide⟩
theorem witness_ReservedEncodings_otherUnit : (0xB0000002#32).extractLsb' 28 4 ∈ [0x9#4, 0xA#4, 0xB#4, 0xC#4] ∧
    (0x5FFFFFFF#32).extractLsb' 28 4 ∈ [0x1#4, 0x2#4, 0x3#4, 0x4#4, 0x5#4] := by decide
theorem witness_ReservedEncodings_raise_enc : decode .enc 0x20006180#32 = .error .reservedBits ∧
    (sending .enc 0x20006180#32 State.reset).host = [.cmd .enc 0x20006180#32] := ⟨rfl, rfl⟩
theorem witness_ReservedEncodings_raise_dec : decode .dec 0x30006100#32 = .error .otherUnit ∧
    (sending .dec 0x30006100#32 (withDec (decIn .fault))).host = [.cmd .dec 0x30006100#32] := ⟨rfl, rfl⟩

/-! ### Witnesses: the step -/

theorem witness_StepRunsTheDecodedCommand : (sending .enc 0x40000001#32 State.reset).host = [.cmd .enc 0x40000001#32] ∧
    decode .enc 0x40000001#32 = .ok (.encCode 1) := ⟨rfl, rfl⟩
theorem witness_FrontEnd_enc_reset : decode .enc 0x10000000#32 = .ok .encReset ∧
    (sending .enc 0x10000000#32 (withEnc (encIn .fault))).host = [.cmd .enc 0x10000000#32] := ⟨rfl, rfl⟩
theorem witness_FrontEnd_enc_fault : okOf (decode .enc 0x10000001#32) ≠ some .encReset ∧
    (sending .enc 0x10000001#32 (withEnc (encIn .fault))).enc.state = .fault := by decide
theorem witness_FrontEnd_enc_illegal : decode .enc 0x10000001#32 = .error .reservedBits ∧
    (sending .enc 0x10000001#32 State.reset).enc.state ≠ .fault := ⟨rfl, by decide⟩
theorem witness_FrontEnd_enc_runs : decode .enc 0x50000000#32 = .ok .encFinish ∧ Instr.encFinish ≠ .encReset ∧
    (sending .enc 0x50000000#32 State.reset).enc.state ≠ .fault := ⟨rfl, by decide, by decide⟩
theorem witness_FrontEnd_dec_reset : decode .dec 0x90000000#32 = .ok .decReset ∧
    (sending .dec 0x90000000#32 (withDec (decIn .fault))).host = [.cmd .dec 0x90000000#32] := ⟨rfl, rfl⟩
theorem witness_FrontEnd_dec_fault : okOf (decode .dec 0xB0000000#32) ≠ some .decReset ∧
    (sending .dec 0xB0000000#32 (withDec (decIn .fault))).dec.state = .fault := by decide
theorem witness_FrontEnd_dec_illegal : decode .dec 0x40000001#32 = .error .otherUnit ∧
    (sending .dec 0x40000001#32 State.reset).dec.state ≠ .fault := ⟨rfl, by decide⟩
theorem witness_FrontEnd_dec_runs : decode .dec 0xC0000000#32 = .ok .decEnd ∧ Instr.decEnd ≠ .decReset ∧
    (sending .dec 0xC0000000#32 State.reset).dec.state ≠ .fault := ⟨rfl, by decide, by decide⟩
theorem witness_HardwareResetClearsBothUnits : ({ withEnc (encIn .fault) with host := [.rst, .rst] } : State).host = .rst :: [.rst] := rfl
theorem witness_IdleBlockHoldsItsState : (withDec (decIn .run)).host = [] := rfl

/-! ### Witnesses: ENC's commands -/

theorem witness_EncLoad_appends : (withEnc { EncUnit.reset with cb := almostFullTable }).enc.state = .idle ∧ (126#7 : Code) ≠ 127#7 ∧
    (withEnc { EncUnit.reset with cb := almostFullTable }).enc.cb.length < 127 := by decide +kernel
theorem witness_EncLoad_illegalState : (withEnc (encIn .pack)).enc.state = .pack ∧ (withEnc (encIn .fin)).enc.state = .fin := by decide
theorem witness_EncLoad_sentinel : (withEnc { EncUnit.reset with cb := fullTable }).enc.state = .idle ∧ (0x7F#7 : Code) = 127#7 := by decide
theorem witness_EncLoad_full : (withEnc { EncUnit.reset with cb := fullTable }).enc.state = .idle ∧ (126#7 : Code) ≠ 127#7 ∧
    (withEnc { EncUnit.reset with cb := fullTable }).enc.cb.length = 127 := by decide +kernel
theorem witness_EncReset_malformed : (0x10000001#32).extractLsb' 28 4 = 0x1#4 ∧ 0x10000001#32 ≠ 0x10000000#32 := by decide
/-- Seven pending bits, all ones. -/
def packedSeven : EncUnit := { EncUnit.reset with acc := 0x7F, nbits := 7, state := .pack }
theorem witness_EncCode_packs : (withEnc packedSeven).enc.state = .pack ∧ (126#7 : Code) ≠ 127#7 ∧ (withEnc packedSeven).enc.nbits.toNat ≤ 7 ∧
    (withEnc packedSeven).enc.acc.toNat < 2 ^ (withEnc packedSeven).enc.nbits.toNat := by decide
theorem witness_EncCode_packs_from_idle : State.reset.enc.state = .idle ∧ (0#7 : Code) ≠ 127#7 ∧ State.reset.enc.nbits.toNat ≤ 7 ∧
    State.reset.enc.acc.toNat < 2 ^ State.reset.enc.nbits.toNat := by decide
theorem witness_EncCode_fin : (withEnc (encIn .fin)).enc.state = .fin := by decide
theorem witness_EncCode_sentinel : (withEnc packedSeven).enc.state = .pack ∧ Config.sent = 127#7 := by decide
theorem witness_EncSym_packs : (withEnc { packedSeven with cb := tableV1 }).enc.state = .pack ∧
    lookupSym (withEnc { packedSeven with cb := tableV1 }).enc.cb 0x61 = some 1 ∧ (1#7 : Code) ≠ 127#7 ∧ packedSeven.nbits.toNat ≤ 7 ∧
    packedSeven.acc.toNat < 2 ^ packedSeven.nbits.toNat := by decide
theorem witness_EncSym_unmapped : State.reset.enc.state = .idle ∧ lookupSym State.reset.enc.cb 0x61 = none := by decide
theorem witness_EncSym_fin : (withEnc (encIn .fin)).enc.state = .fin := by decide
theorem witness_EncFinish_two_bytes : (withEnc packedSeven).enc.state = .pack ∧ packedSeven.nbits.toNat ≤ 7 ∧
    packedSeven.acc.toNat < 2 ^ packedSeven.nbits.toNat := by decide
theorem witness_EncFinish_one_byte : (withEnc { encIn .pack with acc := 1, nbits := 1 }).enc.state = .pack ∧ (1#4).toNat ≤ 7 ∧
    (1#8).toNat < 2 ^ (1#4).toNat := by decide
theorem witness_EncFinish_idle : State.reset.enc.state = .idle := by decide
theorem witness_EncFinish_fin : (withEnc (encIn .fin)).enc.state = .fin := by decide

theorem witness_EncTransition_reset : decode .enc 0x10000000#32 = .ok .encReset ∧
    ∃ t, step (sending .enc 0x10000000#32 (withEnc (encIn .fault))) = .next t := ⟨rfl, _, rfl⟩
theorem witness_EncTransition_illegal : decode .enc 0#32 = .error .reservedOpcode ∧ (sending .enc 0#32 (withEnc (encIn .fin))).enc.state ≠ .fault ∧
    ∃ t, step (sending .enc 0#32 (withEnc (encIn .fin))) = .next t := ⟨rfl, by decide, _, rfl⟩
theorem witness_EncTransition_load : decode .enc 0x20006200#32 = .ok (.encLoad 0x62 0) ∧ (sending .enc 0x20006200#32 State.reset).enc.state = .idle ∧
    ∃ t, step (sending .enc 0x20006200#32 State.reset) = .next t := ⟨rfl, rfl, _, rfl⟩
theorem witness_EncTransition_load_late : decode .enc 0x20006200#32 = .ok (.encLoad 0x62 0) ∧
    (sending .enc 0x20006200#32 (withEnc (encIn .pack))).enc.state = .pack ∧
    ∃ t, step (sending .enc 0x20006200#32 (withEnc (encIn .pack))) = .next t := ⟨rfl, rfl, _, rfl⟩
theorem witness_EncTransition_code : decode .enc 0x4000007F#32 = .ok (.encCode 127) ∧
    (sending .enc 0x4000007F#32 (withEnc packedSeven)).enc.state = .pack ∧
    ∃ t, step (sending .enc 0x4000007F#32 (withEnc packedSeven)) = .next t := ⟨rfl, rfl, _, rfl⟩
theorem witness_EncTransition_sym : decode .enc 0x30006100#32 = .ok (.encSym 0x61) ∧ (sending .enc 0x30006100#32 State.reset).enc.state = .idle ∧
    ∃ t, step (sending .enc 0x30006100#32 State.reset) = .next t := ⟨rfl, rfl, _, rfl⟩
theorem witness_EncTransition_in_fin : decode .enc 0x50000000#32 = .ok .encFinish ∧
    (sending .enc 0x50000000#32 (withEnc (encIn .fin))).enc.state = .fin ∧
    ∃ t, step (sending .enc 0x50000000#32 (withEnc (encIn .fin))) = .next t := ⟨rfl, rfl, _, rfl⟩
theorem witness_EncTransition_finish_idle : decode .enc 0x50000000#32 = .ok .encFinish ∧ (sending .enc 0x50000000#32 State.reset).enc.state = .idle ∧
    ∃ t, step (sending .enc 0x50000000#32 State.reset) = .next t := ⟨rfl, rfl, _, rfl⟩
theorem witness_EncTransition_finish_pack : decode .enc 0x50000000#32 = .ok .encFinish ∧
    (sending .enc 0x50000000#32 (withEnc packedSeven)).enc.state = .pack ∧
    ∃ t, step (sending .enc 0x50000000#32 (withEnc packedSeven)) = .next t := ⟨rfl, rfl, _, rfl⟩
theorem witness_EncTransition_fault : okOf (decode .enc 0x40000001#32) ≠ some .encReset ∧
    (sending .enc 0x40000001#32 (withEnc (encIn .fault))).enc.state = .fault ∧
    ∃ t, step (sending .enc 0x40000001#32 (withEnc (encIn .fault))) = .next t := ⟨by decide, rfl, _, rfl⟩

/-! ### Witnesses: DEC's commands -/

theorem witness_DecLoad_appends : (withDec { DecUnit.reset with cb := almostFullTable }).dec.state = .idle ∧ (126#7 : Code) ≠ 127#7 ∧
    (withDec { DecUnit.reset with cb := almostFullTable }).dec.cb.length < 127 := by decide +kernel
theorem witness_DecLoad_illegalState : (withDec (decIn .run)).dec.state = .run ∧ (withDec (decIn .done)).dec.state = .done ∧
    (withDec (decIn .ended)).dec.state = .ended := by decide
theorem witness_DecLoad_sentinel : (withDec { DecUnit.reset with cb := fullTable }).dec.state = .idle ∧ (0x7F#7 : Code) = 127#7 := by decide
theorem witness_DecLoad_full : (withDec { DecUnit.reset with cb := fullTable }).dec.state = .idle ∧ (126#7 : Code) ≠ 127#7 ∧
    (withDec { DecUnit.reset with cb := fullTable }).dec.cb.length = 127 := by decide +kernel
theorem witness_DecReset_malformed : (0x90000080#32).extractLsb' 28 4 = 0x9#4 ∧ 0x90000080#32 ≠ 0x90000000#32 := by decide
/-- The longest buffer from which any byte fits: five bits. -/
def fiveBits : DecUnit := { decIn .run with buf := [false, false, false, false, true] }
theorem witness_DecByte_fits : (withDec fiveBits).dec.state = .run ∧
    (withDec fiveBits).dec.greedy.fits 13 (withDec fiveBits).dec.cb (bitsMSB 0x00#8) := ⟨rfl, by unfold Greedy.fits; decide⟩
/-- A full buffer of zero bits, no table. -/
def thirteenBits : DecUnit := { decIn .run with buf := List.replicate 13 false }
theorem witness_DecByte_overflow : (withDec thirteenBits).dec.state = .run ∧ (withDec thirteenBits).dec.buf.length ≤ 13 ∧
    ¬ (withDec thirteenBits).dec.greedy.fits 13 (withDec thirteenBits).dec.cb (bitsMSB 0x00#8) :=
  ⟨rfl, by decide, by unfold Greedy.fits; decide⟩
/-- V12: eight zero bits, then a byte whose sixth bit overflows. -/
theorem witness_DecByte_overflow_at_sixth_bit : ({ decIn .run with buf := List.replicate 8 false } : DecUnit).state = .run ∧
    ¬ ({ decIn .run with buf := List.replicate 8 false } : DecUnit).greedy.fits 13 [] (bitsMSB 0x00#8) :=
  ⟨rfl, by unfold Greedy.fits; decide⟩
theorem witness_DecByte_after : (withDec (decIn .done)).dec.state = .done ∧ (withDec (decIn .ended)).dec.state = .ended ∧
    (withDec (decIn .fault)).dec.state = .fault := by decide
theorem witness_DecByteEmitsAtMostTwoSymbols : (withDec thirteenBits).dec.buf.length ≤ 13 ∧
    ∃ t, exec (.decByte 0) (withDec thirteenBits) = .next t := ⟨by decide, _, rfl⟩
theorem witness_LargeBufferIsTheSoftware : thirteenBits.state = .run ∧ thirteenBits.buf.length + 8 ≤ 21 := by decide
theorem witness_DecEnd_ends : (withDec (decIn .run)).dec.state = .run ∧ State.reset.dec.state = .idle := by decide
theorem witness_DecEnd_else : (withDec (decIn .done)).dec.state = .done ∧ (withDec (decIn .ended)).dec.state = .ended ∧
    (withDec (decIn .fault)).dec.state = .fault := by decide

theorem witness_DecTransition_reset : decode .dec 0x90000000#32 = .ok .decReset ∧
    ∃ t, step (sending .dec 0x90000000#32 (withDec (decIn .fault))) = .next t := ⟨rfl, _, rfl⟩
theorem witness_DecTransition_illegal : decode .dec 0#32 = .error .reservedOpcode ∧ (sending .dec 0#32 (withDec (decIn .done))).dec.state ≠ .fault ∧
    ∃ t, step (sending .dec 0#32 (withDec (decIn .done))) = .next t := ⟨rfl, by decide, _, rfl⟩
theorem witness_DecTransition_load : decode .dec 0xA0006200#32 = .ok (.decLoad 0x62 0) ∧ (sending .dec 0xA0006200#32 State.reset).dec.state = .idle ∧
    ∃ t, step (sending .dec 0xA0006200#32 State.reset) = .next t := ⟨rfl, rfl, _, rfl⟩
theorem witness_DecTransition_load_late : decode .dec 0xA0006200#32 = .ok (.decLoad 0x62 0) ∧
    (sending .dec 0xA0006200#32 (withDec (decIn .done))).dec.state = .done ∧
    ∃ t, step (sending .dec 0xA0006200#32 (withDec (decIn .done))) = .next t := ⟨rfl, rfl, _, rfl⟩
theorem witness_DecTransition_byte_idle : decode .dec 0xB00000FE#32 = .ok (.decByte 0xFE) ∧ (sending .dec 0xB00000FE#32 State.reset).dec.state = .idle ∧
    (sending .dec 0xB00000FE#32 State.reset).dec.buf = [] ∧
    ∃ t, step (sending .dec 0xB00000FE#32 State.reset) = .next t := ⟨rfl, rfl, rfl, _, rfl⟩
theorem witness_DecTransition_byte_run : decode .dec 0xB0000000#32 = .ok (.decByte 0) ∧
    (sending .dec 0xB0000000#32 (withDec thirteenBits)).dec.state = .run ∧
    ∃ t, step (sending .dec 0xB0000000#32 (withDec thirteenBits)) = .next t := ⟨rfl, rfl, _, rfl⟩
theorem witness_DecTransition_end : decode .dec 0xC0000000#32 = .ok .decEnd ∧ (sending .dec 0xC0000000#32 (withDec fiveBits)).dec.state = .run ∧
    ∃ t, step (sending .dec 0xC0000000#32 (withDec fiveBits)) = .next t := ⟨rfl, rfl, _, rfl⟩
theorem witness_DecTransition_done : decode .dec 0xC0000000#32 = .ok .decEnd ∧ (sending .dec 0xC0000000#32 (withDec (decIn .done))).dec.state = .done ∧
    ∃ t, step (sending .dec 0xC0000000#32 (withDec (decIn .done))) = .next t := ⟨rfl, rfl, _, rfl⟩
theorem witness_DecTransition_ended : decode .dec 0xB0000000#32 = .ok (.decByte 0) ∧
    (sending .dec 0xB0000000#32 (withDec (decIn .ended))).dec.state = .ended ∧
    ∃ t, step (sending .dec 0xB0000000#32 (withDec (decIn .ended))) = .next t := ⟨rfl, rfl, _, rfl⟩
theorem witness_DecTransition_fault : okOf (decode .dec 0xB0000000#32) ≠ some .decReset ∧
    (sending .dec 0xB0000000#32 (withDec (decIn .fault))).dec.state = .fault ∧
    ∃ t, step (sending .dec 0xB0000000#32 (withDec (decIn .fault))) = .next t := ⟨by decide, rfl, _, rfl⟩
theorem witness_NothingIsDecoded_done : (withDec (decIn .done)).dec.state = .done ∧
    ∀ i ∈ [Instr.decByte 2, Instr.decEnd], (∃ byte, i = .decByte byte) ∨ i = .decEnd := ⟨rfl, by simp⟩
theorem witness_NothingIsDecoded_ended : (sending .dec 0xA0000101#32 (withDec (decIn .ended))).dec.state = .ended ∧
    okOf (decode .dec 0xA0000101#32) ≠ some .decReset ∧
    ∃ t, step (sending .dec 0xA0000101#32 (withDec (decIn .ended))) = .next t := ⟨rfl, by decide, _, rfl⟩

/-! ### Witnesses: faults, status, invariants -/

theorem witness_FaultEntry_enc : (∀ byte, Instr.encFinish ≠ .decByte byte) ∧ (withEnc (encIn .fin)).enc.state ≠ .fault ∧
    ∃ t, exec .encFinish (withEnc (encIn .fin)) = .next t ∧ t.enc.state = .fault := ⟨by simp, by decide, _, rfl, rfl⟩
theorem witness_FaultEntry_dec : (∀ byte, Instr.decEnd ≠ .decByte byte) ∧ (withDec (decIn .ended)).dec.state ≠ .fault ∧
    ∃ t, exec .decEnd (withDec (decIn .ended)) = .next t ∧ t.dec.state = .fault := ⟨by simp, by decide, _, rfl, rfl⟩
theorem witness_FaultStays_enc : (withEnc (encIn .fault)).enc.state = .fault ∧
    ∀ ev ∈ [HostEvent.cmd .enc 0x10000001#32, HostEvent.cmd .dec 0xB0000000#32],
      ∃ p w, ev = .cmd p w ∧ (p = .enc → decode .enc w ≠ .ok .encReset) := by
  refine ⟨rfl, fun ev h => ?_⟩
  simp only [List.mem_cons, List.not_mem_nil, or_false] at h
  rcases h with rfl | rfl
  · exact ⟨_, _, rfl, fun _ h => nomatch (h : Except.error Illegal.reservedBits = _)⟩
  · exact ⟨_, _, rfl, nofun⟩
theorem witness_FaultStays_dec : (withDec (decIn .fault)).dec.state = .fault ∧
    ∀ ev ∈ [HostEvent.cmd .dec 0xB0000000#32], ∃ p w, ev = .cmd p w ∧ (p = .dec → decode .dec w ≠ .ok .decReset) := by
  refine ⟨rfl, fun ev h => ?_⟩
  simp only [List.mem_cons, List.not_mem_nil, or_false] at h
  subst h
  exact ⟨_, _, rfl, fun _ h => nomatch (h : Except.ok (Instr.decByte 0) = _)⟩
theorem witness_Causes_symUnmapped : State.reset.enc.state ≠ .fault ∧
    ∃ t, exec (.encSym 0x43) State.reset = .next t ∧ t.enc.state = .fault := ⟨by decide, _, rfl, rfl⟩
theorem witness_Causes_enc :
    [exec (.encLoad 1 1) (withEnc (encIn .pack)), exec (.encLoad 1 1) (withEnc (encIn .fin)), exec .encFinish (withEnc (encIn .fin)),
     exec (.encLoad 1 127) State.reset, exec (.encCode 127) State.reset, exec (.encLoad 1 1) (withEnc { EncUnit.reset with cb := fullTable })].map
      (fun o => (nextOf o).map fun t => (t.enc.state, t.enc.fcause)) =
    [.illegalState, .illegalState, .illegalState, .codeSentinel, .codeSentinel, .cbFull].map fun c => some (.fault, c) := by decide +kernel
theorem witness_Causes_dec :
    [exec (.decLoad 1 1) (withDec (decIn .run)), exec (.decLoad 1 1) (withDec (decIn .done)), exec (.decByte 1) (withDec (decIn .ended)),
     exec .decEnd (withDec (decIn .ended)), exec (.decLoad 1 127) State.reset, exec (.decLoad 1 1) (withDec { DecUnit.reset with cb := fullTable })].map
      (fun o => (nextOf o).map fun t => (t.dec.state, t.dec.fcause)) =
    [.illegalState, .illegalState, .illegalState, .illegalState, .codeSentinel, .cbFull].map fun c => some (.fault, c) := by decide +kernel
theorem witness_Causes_bufOverflow : (withDec thirteenBits).dec.state ≠ .fault ∧
    ∃ t, exec (.decByte 0) (withDec thirteenBits) = .next t ∧ t.dec.state = .fault := ⟨by decide, _, rfl, rfl⟩

/-- The block after one code was packed, DEC having met the sentinel, with a word still to accept. -/
def afterOneCode : State where
  enc := { EncUnit.reset with acc := 0x55, nbits := 7, state := .pack }
  dec := { decIn .done with buf := List.replicate 7 true }
  host := [.cmd .enc 0x4000007E#32]
theorem witness_Invariants : afterOneCode.Inv 1 :=
  ⟨{ nbits_le := by decide, acc_pending := by decide, nbits_open := fun _ => rfl, out_open := fun _ => rfl, nbits_fin := nofun, cb_le := by decide,
     cb_codes := nofun, fcause_iff := by decide, fcmd_zero := fun _ => rfl, fcause_enc := by decide, empty_run := nofun, idle_start := nofun,
     pack_some := by decide },
   { buf_le := by decide, cb_le := by decide, cb_codes := nofun, fcause_iff := by decide, fcmd_zero := fun _ => rfl, fcause_dec := by decide,
     idle_start := nofun, rcnt_le := by decide, done_sentinel := by decide }⟩
theorem witness_StepKeepsTheInvariants : afterOneCode.Inv 1 ∧ ∃ t, step afterOneCode = .next t ∧ afterOneCode.packedNext 1 = 2 :=
  ⟨witness_Invariants, _, rfl, rfl⟩
theorem witness_StatusRegistersShowTheState : afterOneCode.Inv 1 := witness_Invariants

/-! ### Witnesses: units, tables, traces -/

theorem witness_UnitsShareNoState : (∃ t, exec (.encCode 1) State.reset = .next t) ∧
    (∃ t, exec (.encCode 1) (withDec (decIn .fault)) = .next t) ∧ (Instr.encCode 1).port = .enc ∧
    State.reset.enc = (withDec (decIn .fault)).enc := ⟨⟨_, rfl⟩, ⟨_, rfl⟩, rfl, rfl⟩
theorem witness_UnitsShareNoState_dec : (∃ t, exec (.decByte 1) State.reset = .next t) ∧
    (∃ t, exec (.decByte 1) (withEnc (encIn .fin)) = .next t) ∧ (Instr.decByte 1).port = .dec ∧
    State.reset.dec = (withEnc (encIn .fin)).dec := ⟨⟨_, rfl⟩, ⟨_, rfl⟩, rfl, rfl⟩
theorem witness_TablesAreAppendOnly : ∃ t, exec (.encLoad 0x41 0) State.reset = .next t ∧ t.enc.cb = [⟨0x41, 0⟩] := ⟨_, rfl, rfl⟩
theorem witness_TracesOnlyGrow : (withEnc packedSeven).enc.nbits.toNat ≤ 7 ∧ (withEnc packedSeven).dec.buf.length ≤ 13 ∧
    (∃ t, exec .encFinish (withEnc packedSeven) = .next t) ∧ Instr.encFinish ≠ .encReset ∧ Instr.encFinish ≠ .decReset :=
  ⟨by decide, by decide, ⟨_, rfl⟩, by decide, by decide⟩
theorem witness_EntryOrderDoesNotMatter : tableV1.Perm tableV1.reverse ∧ (tableV1.map Entry.sym).Nodup ∧ (tableV1.map Entry.code).Nodup ∧
    (withEnc { EncUnit.reset with cb := tableV1 }).enc.cb = tableV1 ∧
    (withDec { DecUnit.reset with cb := tableV1 }).dec.cb = tableV1 := ⟨(List.reverse_perm _).symm, by decide, by decide, rfl, rfl⟩

/-! ### Witnesses: whole runs and the host's side -/

theorem witness_PackedBitsBeforeFinish : tableV1.length ≤ 127 ∧ (∀ entry ∈ tableV1, entry.code ≠ 127#7) ∧
    [Instr.encSym 0x61, Instr.encCode 126].map (pushedCode tableV1) = [1#7, 126#7].map some := by decide
theorem witness_EncodeRunGivesTheBitstream : tableV1.length ≤ 127 ∧ (∀ entry ∈ tableV1, entry.code ≠ 127#7) ∧
    [Instr.encSym 0x61, Instr.encCode 126].map (pushedCode tableV1) = [1#7, 126#7].map some ∧ [1#7, 126#7] ≠ [] := by decide
theorem witness_EmptyRunEmitsNothing : fullTable.length ≤ 127 ∧ ∀ entry ∈ fullTable, entry.code ≠ 127#7 := by decide +kernel
theorem witness_WellFormedStreamDecodes : WellFormedCodebook tableV1 ∧ [1#7, 1#7, 0#7] ≠ [] ∧
    ∀ c ∈ [1#7, 1#7, 0#7], c ∈ tableV1.map Entry.code := by decide
theorem witness_BlockRoundTrip : WellFormedCodebook tableV1 ∧ ∀ x ∈ [0x61#8, 0x61#8, 0x62#8], x ∈ tableV1.map Entry.sym := by decide
theorem witness_BuilderGivesAWellFormedCodebook :
    buildCodebook [0x61, 0x61, 0x62] = .ok [⟨0x62, 1, 3, 0⟩, ⟨0x61, 2, 3, 1⟩] := rfl
/-- A field of the probability's form: always `0.` and seven zeros. -/
def zeroProb (_ _ : Nat) : List Byte := [0x30#8] ++ [0x2E#8] ++ List.replicate 7 0x30#8
theorem witness_CodebookFileRoundTrip : ∀ c n : Nat, ∃ whole frac, whole ≠ [] ∧ whole.all isDigit = true ∧ frac.length = 7 ∧
    frac.all isDigit = true ∧ zeroProb c n = whole ++ [0x2E#8] ++ frac :=
  fun _ _ => ⟨[0x30#8], List.replicate 7 0x30#8, by decide, by decide, by decide, by decide, rfl⟩
theorem witness_EndToEndRoundTrip : [0x61#8, 0x61#8, 0x62#8] ≠ [] ∧ [0x61#8, 0x61#8, 0x62#8].toFinset.card ≤ 127 := ⟨by decide, by decide⟩
theorem witness_AssemblingThePrintedCommand : decode .dec 0xA0006101#32 = .ok (.decLoad 0x61 1) := rfl
theorem witness_AssemblerTakesWellFormedCommands : (⟨.encLoad, [255, 127]⟩ : SourceCommand).toInstr = some (.encLoad 0xFF 127) := by decide
theorem witness_EveryOpcodeMapWord_row : (⟨.decLoad, 0xA0000000#32, 0xFFFF0080#32⟩ : Row) ∈ opcodeMap ∧
    0xA000FF7F#32 &&& 0xFFFF0080#32 = 0xA0000000#32 := by decide
theorem witness_EveryOpcodeMapWord_none : ∀ r ∈ opcodeMap, 0xA000FF80#32 &&& r.mask ≠ r.bits := by decide
theorem witness_EndToEndProperties : [0x61#8, 0x61#8, 0x62#8] ≠ [] ∧ [0x61#8, 0x61#8, 0x62#8].toFinset.card ≤ 127 := witness_EndToEndRoundTrip
theorem witness_EndToEndProperties_tooMany : 127 < (alphabet.take 128).toFinset.card := by decide +kernel
theorem witness_ProbabilityFieldIsTheQuotient : 1 ≤ 1 ∧ 1 ≤ 3 := by decide
theorem witness_ProbabilityFieldIsTheQuotient_one : 1 ≤ 3 ∧ 3 ≤ 3 := by decide
theorem witness_ProbabilityFieldIsTheQuotient_builder :
    buildCodebook [0x61, 0x61, 0x62] = .ok [⟨0x62, 1, 3, 0⟩, ⟨0x61, 2, 3, 1⟩] := witness_BuilderGivesAWellFormedCodebook

end Sys2Proof.Tests
end

section
/-! SUPPORT. A command word taken from the host: what the step does with it, and what accepting it means (`00_scope.md` R6). -/

namespace Sys2Proof.Proofs

open Sys2Proof Machine

/-- Taking the host's next event leaves the events after it, and the units alone. -/
theorem takeEvent_of_cons {s : State} {ev : HostEvent} {rest : List HostEvent} (h : s.host = ev :: rest) :
    s.takeEvent = some (ev, { s with host := rest }) := by
  simp [State.takeEvent, h]

/-- A step whose event is a command word accepts the word on its port, on the state with the word taken. -/
theorem step_of_cmd {s : State} {p : Port} {w : Word} {rest : List HostEvent} (h : s.host = .cmd p w :: rest) :
    step s = accept p w { s with host := rest } := by
  simp [step, takeEvent_of_cons h]

/-- Accepting a word that decodes on its port is executing the command (`30_encoding.md` R75). -/
theorem accept_of_ok {p : Port} {w : Word} {i : Instr} (h : decode p w = .ok i) (s : State) :
    accept p w s = exec i s := by
  simp [accept, h]

/-- Settles O6: the step accepts the word, and accepting a word that decodes is executing its command. -/
theorem stepRunsTheDecodedCommand : Obligations.StepRunsTheDecodedCommand := by
  intro s p w rest i hhost hdecode
  calc step s = accept p w { s with host := rest } := step_of_cmd hhost
    _ = exec i { s with host := rest } := accept_of_ok hdecode _

end Sys2Proof.Proofs
end

section
/-! SUPPORT. All a command can do to ENC, one case per way a command of `40_codebook.md` R101 or `41_encoder.md` R123 to R127 can go,
with what was true of ENC and of the command when it went that way. -/

namespace Sys2Proof.Proofs

open Sys2Proof Machine

/-- When a command of ENC other than its reset faults outside FAULT, and with which cause (`60_exceptions.md` R230). -/
inductive EncFaults (i : Instr) (e : EncUnit) : Cause → Prop
  | loadInPack (sym : Sym) (code : Code) (hi : i = .encLoad sym code) (hs : e.state = .pack) : EncFaults i e .illegalState
  | runOver (hs : e.state = .fin) : EncFaults i e .illegalState
  | loadSentinel (sym : Sym) (hi : i = .encLoad sym Config.sent) (hs : e.state = .idle) : EncFaults i e .codeSentinel
  | loadFull (sym : Sym) (code : Code) (hi : i = .encLoad sym code) (hs : e.state = .idle) (hc : code ≠ Config.sent)
      (hl : cbIsFull e.cb = true) : EncFaults i e .cbFull
  | pushSentinel (hi : i = .encCode Config.sent) (hs : e.state = .idle ∨ e.state = .pack) : EncFaults i e .codeSentinel
  | pushUnmapped (sym : Sym) (hi : i = .encSym sym) (hs : e.state = .idle ∨ e.state = .pack) (hl : lookupSym e.cb sym = none) :
      EncFaults i e .symUnmapped

/-- What a command can make of ENC. -/
inductive EncCan (i : Instr) (e : EncUnit) : EncUnit → Prop
  | reset (hi : i = .encReset) : EncCan i e EncUnit.reset
  | otherUnit (hi : i.port = .dec) : EncCan i e e
  | discarded (hi : i.port = .enc ∧ i ≠ .encReset) (hs : e.state = .fault) : EncCan i e e
  | faulted (c : Cause) (hi : i.port = .enc ∧ i ≠ .encReset) (hs : e.state ≠ .fault) (hc : EncFaults i e c) :
      EncCan i e (e.raise c (encode i))
  | loaded (sym : Sym) (code : Code) (hi : i = .encLoad sym code) (hs : e.state = .idle) (hc : code ≠ Config.sent)
      (hl : cbIsFull e.cb = false) : EncCan i e { e with cb := e.cb ++ [⟨sym, code⟩] }
  | pushed (c : Code) (hs : e.state = .idle ∨ e.state = .pack) (hc : pushedCode e.cb i = some c) :
      EncCan i e { e.packCode c with state := .pack }
  | finishedEmpty (hi : i = .encFinish) (hs : e.state = .idle) : EncCan i e { e with empty := true, state := .fin }
  | finished (hi : i = .encFinish) (hs : e.state = .pack) : EncCan i e { (e.packCode Config.sent).flush with state := .fin }

/-- The states in which a run takes codes are all but FIN and FAULT (`10_state.md` R25). -/
theorem encState_open {st : EncState} (hfault : st ≠ .fault) (hfin : st ≠ .fin) : st = .idle ∨ st = .pack := by
  cases st <;> simp_all

theorem encCan_unlessFault {i : Instr} {e : EncUnit} {f : EncUnit → EncUnit} (hi : i.port = .enc ∧ i ≠ .encReset)
    (h : e.state ≠ .fault → EncCan i e (f e)) : EncCan i e (e.unlessFault f) := by
  by_cases hs : e.state = .fault
  · rw [EncUnit.unlessFault_of_fault hs]; exact .discarded hi hs
  · rw [EncUnit.unlessFault_of_not_fault hs]; exact h hs

theorem encCan_load {e : EncUnit} (sym : Sym) (code : Code) (hs : e.state ≠ .fault) :
    EncCan (.encLoad sym code) e (e.load sym code (encode (.encLoad sym code))) := by
  have hi : (Instr.encLoad sym code).port = .enc ∧ Instr.encLoad sym code ≠ .encReset := ⟨rfl, nofun⟩
  unfold EncUnit.load
  split_ifs with hidle hsent hfull
  · refine .faulted _ hi hs ?_
    by_cases hfin : e.state = .fin
    · exact .runOver hfin
    · exact .loadInPack sym code rfl ((encState_open hs hfin).resolve_left hidle)
  · exact .faulted _ hi hs (.loadSentinel sym (by rw [hsent]) (not_not.1 hidle))
  · exact .faulted _ hi hs (.loadFull sym code rfl (not_not.1 hidle) hsent hfull)
  · exact .loaded sym code rfl (not_not.1 hidle) hsent (by simpa using hfull)

theorem encCan_code {e : EncUnit} (code : Code) (hs : e.state ≠ .fault) :
    EncCan (.encCode code) e (e.code code (encode (.encCode code))) := by
  have hi : (Instr.encCode code).port = .enc ∧ Instr.encCode code ≠ .encReset := ⟨rfl, nofun⟩
  unfold EncUnit.code
  split_ifs with hfin hsent
  · exact .faulted _ hi hs (.runOver hfin)
  · exact .faulted _ hi hs (.pushSentinel (by rw [hsent]) (encState_open hs hfin))
  · exact .pushed code (encState_open hs hfin) (if_neg hsent)

theorem encCan_symbol {e : EncUnit} (sym : Sym) (hs : e.state ≠ .fault) :
    EncCan (.encSym sym) e (e.symbol sym (encode (.encSym sym))) := by
  have hi : (Instr.encSym sym).port = .enc ∧ Instr.encSym sym ≠ .encReset := ⟨rfl, nofun⟩
  unfold EncUnit.symbol
  split_ifs with hfin
  · exact .faulted _ hi hs (.runOver hfin)
  · cases hl : lookupSym e.cb sym with
    | none => exact .faulted _ hi hs (.pushUnmapped sym rfl (encState_open hs hfin) hl)
    | some c => exact .pushed c (encState_open hs hfin) hl

theorem encCan_finish {e : EncUnit} (hs : e.state ≠ .fault) : EncCan .encFinish e (e.finish (encode .encFinish)) := by
  unfold EncUnit.finish
  split_ifs with hfin hidle
  · exact .faulted _ ⟨rfl, nofun⟩ hs (.runOver hfin)
  · exact .finishedEmpty rfl hidle
  · exact .finished rfl ((encState_open hs hfin).resolve_left hidle)

/-- What a command does to ENC is one of the things it can do. -/
theorem encEffect_can (i : Instr) (e : EncUnit) : EncCan i e (encEffect i e) := by
  cases i with
  | encReset => exact .reset rfl
  | encLoad sym code => exact encCan_unlessFault ⟨rfl, nofun⟩ (encCan_load sym code)
  | encSym sym => exact encCan_unlessFault ⟨rfl, nofun⟩ (encCan_symbol sym)
  | encCode code => exact encCan_unlessFault ⟨rfl, nofun⟩ (encCan_code code)
  | encFinish => exact encCan_unlessFault ⟨rfl, nofun⟩ encCan_finish
  | decReset => exact .otherUnit rfl
  | decLoad sym code => exact .otherUnit rfl
  | decByte byte => exact .otherUnit rfl
  | decEnd => exact .otherUnit rfl

end Sys2Proof.Proofs
end

section
/-! SUPPORT. All a command can do to DEC, one case per way a command of `40_codebook.md` R102 or `42_decoder.md` R156 to R158 can go,
with what was true of DEC and of the command when it went that way. -/

namespace Sys2Proof.Proofs

open Sys2Proof Machine

/-- When a command of DEC other than its reset faults outside FAULT before a bit is delivered, and with which cause (`60_exceptions.md` R230). -/
inductive DecFaults (i : Instr) (d : DecUnit) : Cause → Prop
  | loadLate (sym : Sym) (code : Code) (hi : i = .decLoad sym code) (hs : d.state ≠ .idle) : DecFaults i d .illegalState
  | runOver (hs : d.state = .ended) : DecFaults i d .illegalState
  | loadSentinel (sym : Sym) (hi : i = .decLoad sym Config.sent) (hs : d.state = .idle) : DecFaults i d .codeSentinel
  | loadFull (sym : Sym) (code : Code) (hi : i = .decLoad sym code) (hs : d.state = .idle) (hc : code ≠ Config.sent)
      (hl : cbIsFull d.cb = true) : DecFaults i d .cbFull

/-- What a command can make of DEC. -/
inductive DecCan (i : Instr) (d : DecUnit) : DecUnit → Prop
  | reset (hi : i = .decReset) : DecCan i d DecUnit.reset
  | otherUnit (hi : i.port = .enc) : DecCan i d d
  | discarded (hi : i.port = .dec ∧ i ≠ .decReset) (hs : d.state = .fault) : DecCan i d d
  | ignored (hi : i = .decEnd ∨ ∃ byte, i = .decByte byte) (hs : d.state = .done) : DecCan i d d
  | faulted (c : Cause) (hi : i.port = .dec ∧ i ≠ .decReset) (hs : d.state ≠ .fault) (hc : DecFaults i d c) :
      DecCan i d (d.raise c (encode i))
  | loaded (sym : Sym) (code : Code) (hi : i = .decLoad sym code) (hs : d.state = .idle) (hc : code ≠ Config.sent)
      (hl : cbIsFull d.cb = false) : DecCan i d { d with cb := d.cb ++ [⟨sym, code⟩] }
  | delivered (byte : Byte) (buf : List Bool) (out : List Sym) (st : DecState) (rc : BitVec 4) (hi : i = .decByte byte)
      (hs : d.state = .idle ∨ d.state = .run)
      (hst : st = .run ∨ st = .done ∧ Config.codeLen ≤ buf.length ∧ window buf = Config.sent)
      (hb : d.buf.length ≤ Config.bufCap → buf.length ≤ Config.bufCap) (hr : rc.toNat ≤ 8) :
      DecCan i d { d with buf := buf, state := st, out := d.out ++ out, rbyte := byte, rcnt := rc }
  | overflowed (byte : Byte) (buf : List Bool) (out : List Sym) (rc : BitVec 4) (hi : i = .decByte byte)
      (hs : d.state = .idle ∨ d.state = .run)
      (hb : d.buf.length ≤ Config.bufCap → buf.length ≤ Config.bufCap) (hr : rc.toNat ≤ 8) :
      DecCan i d ({ d with buf := buf, out := d.out ++ out, rbyte := byte, rcnt := rc }.raise .bufOverflow (encode i))
  | finished (hi : i = .decEnd) (hs : d.state = .idle ∨ d.state = .run) : DecCan i d { d with state := .ended }

/-- The states in which a run takes bytes are all but DONE, ENDED and FAULT (`10_state.md` R33). -/
theorem decState_open {st : DecState} (hfault : st ≠ .fault) (hended : st ≠ .ended) (hdone : st ≠ .done) :
    st = .idle ∨ st = .run := by
  cases st <;> simp_all

theorem decCan_unlessFault {i : Instr} {d : DecUnit} {f : DecUnit → DecUnit} (hi : i.port = .dec ∧ i ≠ .decReset)
    (h : d.state ≠ .fault → DecCan i d (f d)) : DecCan i d (d.unlessFault f) := by
  by_cases hs : d.state = .fault
  · rw [DecUnit.unlessFault_of_fault hs]; exact .discarded hi hs
  · rw [DecUnit.unlessFault_of_not_fault hs]; exact h hs

theorem decCan_load {d : DecUnit} (sym : Sym) (code : Code) (hs : d.state ≠ .fault) :
    DecCan (.decLoad sym code) d (d.load sym code (encode (.decLoad sym code))) := by
  have hi : (Instr.decLoad sym code).port = .dec ∧ Instr.decLoad sym code ≠ .decReset := ⟨rfl, nofun⟩
  unfold DecUnit.load
  split_ifs with hidle hsent hfull
  · exact .faulted _ hi hs (.loadLate sym code rfl hidle)
  · exact .faulted _ hi hs (.loadSentinel sym (by rw [hsent]) (not_not.1 hidle))
  · exact .faulted _ hi hs (.loadFull sym code rfl (not_not.1 hidle) hsent hfull)
  · exact .loaded sym code rfl (not_not.1 hidle) hsent (by simpa using hfull)

theorem decCan_byte {d : DecUnit} (byte : Byte) (hs : d.state ≠ .fault) :
    DecCan (.decByte byte) d (d.byte Config.bufCap byte (encode (.decByte byte))) := by
  unfold DecUnit.byte
  split_ifs with hended hdone
  · exact .faulted _ ⟨rfl, nofun⟩ hs (.runOver hended)
  · exact .ignored (.inr ⟨byte, rfl⟩) hdone
  · have hopen := decState_open hs hended hdone
    obtain ⟨buf, out, st, fc, cm, rc, e, hcase, hb, hr⟩ := DecUnit.feedBits_cases Config.bufCap (encode (.decByte byte)) byte 8
      { d with state := .run, rbyte := byte, rcnt := 8#4 } (.inl rfl) (show 8 ≤ (8#4).toNat by decide)
    rw [e]
    obtain ⟨rfl, rfl, hst⟩ | ⟨rfl, rfl, rfl⟩ := hcase
    · exact .delivered byte buf out st rc rfl hopen hst hb hr
    · exact .overflowed byte buf out rc rfl hopen hb hr

theorem decCan_finish {d : DecUnit} (hs : d.state ≠ .fault) : DecCan .decEnd d (d.finish (encode .decEnd)) := by
  unfold DecUnit.finish
  split_ifs with hended hdone
  · exact .faulted _ ⟨rfl, nofun⟩ hs (.runOver hended)
  · exact .ignored (.inl rfl) hdone
  · exact .finished rfl (decState_open hs hended hdone)

/-- What a command does to DEC is one of the things it can do. -/
theorem decEffect_can (i : Instr) (d : DecUnit) : DecCan i d (decEffect i d) := by
  cases i with
  | decReset => exact .reset rfl
  | decLoad sym code => exact decCan_unlessFault ⟨rfl, nofun⟩ (decCan_load sym code)
  | decByte byte => exact decCan_unlessFault ⟨rfl, nofun⟩ (decCan_byte byte)
  | decEnd => exact decCan_unlessFault ⟨rfl, nofun⟩ decCan_finish
  | encReset => exact .otherUnit rfl
  | encLoad sym code => exact .otherUnit rfl
  | encSym sym => exact .otherUnit rfl
  | encCode code => exact .otherUnit rfl
  | encFinish => exact .otherUnit rfl

end Sys2Proof.Proofs
end

section
/-! SUPPORT. The invariants of `10_state.md` R42 for ENC: reset meets them, and everything a host event can do to ENC keeps them. -/

namespace Sys2Proof.Proofs

open Sys2Proof Machine

theorem encInv_reset : EncUnit.reset.Inv 0 where
  nbits_le := by decide
  acc_pending := by decide
  nbits_open _ := rfl
  out_open _ := rfl
  nbits_fin := nofun
  cb_le := by decide
  cb_codes := nofun
  fcause_iff := by decide
  fcmd_zero _ := rfl
  fcause_enc := nofun
  empty_run := nofun
  idle_start _ := ⟨rfl, rfl, rfl, rfl⟩
  pack_some := nofun

section
variable {k k' : Nat} {e : EncUnit}

theorem packerOk_of_inv (h : e.Inv k) : e.PackerOk := ⟨h.nbits_le, h.acc_pending⟩

theorem tableOk_of_encInv (h : e.Inv k) : TableOk e.cb := ⟨h.cb_le, h.cb_codes⟩

/-- EMPTY is 0 while a run is open (R42 (g)). -/
theorem empty_eq_false_of_open (h : e.Inv k) (hs : e.state = .idle ∨ e.state = .pack) : e.empty = false := by
  by_contra hne
  obtain ⟨-, hfin | ⟨hfault, -⟩⟩ := h.empty_run (by simpa using hne)
  · simp [hfin] at hs
  · simp [hfault] at hs

/-- Outside an open run the count of codes says nothing. -/
theorem encInv_of_closed (h : e.Inv k) (hs : e.state = .fin ∨ e.state = .fault) : e.Inv k' :=
  have hidle : e.state ≠ .idle := by rcases hs with hs | hs <;> simp [hs]
  have hpack : e.state ≠ .pack := by rcases hs with hs | hs <;> simp [hs]
  { h with
    nbits_open := fun ho => (ho.elim hidle hpack).elim
    out_open := fun ho => (ho.elim hidle hpack).elim
    idle_start := fun ho => (hidle ho).elim
    pack_some := fun ho => (hpack ho).elim }

/-- Fault entry (`60_exceptions.md` R234) keeps the invariants when EMPTY is kept only by the two causes of R42 (g). -/
theorem encInv_raise (h : e.Inv k) {c : Cause} (cw : Word) (hnone : c ≠ .none) (hdec : c ≠ .bufOverflow)
    (hempty : e.empty = true → c = .illegalState ∨ c = .illegalCmd) : (e.raise c cw).Inv k' where
  nbits_le := h.nbits_le
  acc_pending := h.acc_pending
  nbits_open := by simp
  out_open := by simp
  nbits_fin := by simp
  cb_le := h.cb_le
  cb_codes := h.cb_codes
  fcause_iff := by simp [hnone]
  fcmd_zero := by simp
  fcause_enc := hdec
  empty_run he := ⟨(h.empty_run he).1, .inr ⟨rfl, hempty he⟩⟩
  idle_start := by simp
  pack_some := by simp

theorem encInv_withTable (h : e.Inv k) {cb : List Entry} (hcb : TableOk cb) : ({ e with cb := cb } : EncUnit).Inv k :=
  { h with cb_le := hcb.1, cb_codes := hcb.2 }

/-- A code packed is seven bits more, emitted or pending (`41_encoder.md` R122, R128). -/
theorem encInv_packed (h : e.Inv k) (hs : e.state = .idle ∨ e.state = .pack) (c : Code) :
    ({ e.packCode c with state := .pack } : EncUnit).Inv (k + 1) := by
  obtain ⟨acc, nbits, out, heq, hbits, hmod, hle, hacc, -⟩ := EncUnit.packCode_spec (packerOk_of_inv h) c
  have hcount : 8 * out.length + nbits.toNat = 8 * e.out.length + e.nbits.toNat + 7 := by
    have hlen := congrArg List.length hbits
    rwa [List.length_append, List.length_append, length_bytesBits, length_lastN _ _ (by simp; omega), length_bitsMSB,
      EncUnit.length_stream (packerOk_of_inv h)] at hlen
  have hn := h.nbits_open hs
  have ho := h.out_open hs
  have hfault : e.state ≠ .fault := by rcases hs with hs | hs <;> simp [hs]
  rw [heq]
  exact {
    nbits_le := hle
    acc_pending := hacc
    nbits_open := fun _ => by show nbits.toNat = _; omega
    out_open := fun _ => by show out.length = _; omega
    nbits_fin := nofun
    cb_le := h.cb_le
    cb_codes := h.cb_codes
    fcause_iff := by simpa using mt h.fcause_iff.1 hfault
    fcmd_zero := fun _ => h.fcmd_zero hfault
    fcause_enc := h.fcause_enc
    empty_run := by simp [empty_eq_false_of_open h hs]
    idle_start := nofun
    pack_some := fun _ => by omega }

/-- The end of a run, EMPTY being set only with no byte out, keeps the invariants: the packer is left empty (R42 (b), (g)). -/
theorem encInv_finished (h : e.Inv k) (hs : e.state ≠ .fault) {empty : Bool} {out : List Byte} (he : empty = true → out = []) :
    ({ e with acc := 0#8, nbits := 0#4, empty := empty, out := out, state := .fin } : EncUnit).Inv k' where
  nbits_le := by simp
  acc_pending := by simp
  nbits_open := nofun
  out_open := nofun
  nbits_fin _ := rfl
  cb_le := h.cb_le
  cb_codes := h.cb_codes
  fcause_iff := by simpa using mt h.fcause_iff.1 hs
  fcmd_zero _ := h.fcmd_zero hs
  fcause_enc := h.fcause_enc
  empty_run hempty := ⟨he hempty, .inl rfl⟩
  idle_start := nofun
  pack_some := nofun

theorem encInv_finishedEmpty (h : e.Inv k) (hs : e.state = .idle) : ({ e with empty := true, state := .fin } : EncUnit).Inv k' := by
  obtain ⟨hacc, hnbits, hout, -⟩ := h.idle_start hs
  have heq : ({ e with empty := true, state := .fin } : EncUnit) =
      { e with acc := 0#8, nbits := 0#4, empty := true, out := [], state := .fin } := by rw [← hacc, ← hnbits, ← hout]
  rw [heq]
  exact encInv_finished h (by simp [hs]) fun _ => rfl

theorem encInv_finishedFlush (h : e.Inv k) (hs : e.state = .pack) :
    ({ (e.packCode Config.sent).flush with state := .fin } : EncUnit).Inv k' := by
  obtain ⟨acc, nbits, more, hpack⟩ := EncUnit.packBits_frame e (bitsMSB Config.sent)
  obtain ⟨out, hflush, -⟩ := EncUnit.flush_spec (EncUnit.packBits_ok (packerOk_of_inv h) (bitsMSB Config.sent))
  rw [EncUnit.packCode_eq, hflush, hpack]
  exact encInv_finished h (by simp [hs]) (by simp [empty_eq_false_of_open h (.inr hs)])

/-- A command that faults has one of the two causes of R42 (g) after an empty run: the run is over then. -/
theorem encFaults_cause (h : e.Inv k) {i : Instr} {c : Cause} (hc : EncFaults i e c) :
    c ≠ .none ∧ c ≠ .bufOverflow ∧ (e.empty = true → c = .illegalState ∨ c = .illegalCmd) := by
  have hopen (ho : e.state = .idle ∨ e.state = .pack) (he : e.empty = true) : False := by
    simp [empty_eq_false_of_open h ho] at he
  cases hc with
  | loadInPack sym code hi hs => exact ⟨nofun, nofun, fun _ => .inl rfl⟩
  | runOver hs => exact ⟨nofun, nofun, fun _ => .inl rfl⟩
  | loadSentinel sym hi hs => exact ⟨nofun, nofun, fun he => (hopen (.inl hs) he).elim⟩
  | loadFull sym code hi hs hc hl => exact ⟨nofun, nofun, fun he => (hopen (.inl hs) he).elim⟩
  | pushSentinel hi hs => exact ⟨nofun, nofun, fun he => (hopen hs he).elim⟩
  | pushUnmapped sym hi hs hl => exact ⟨nofun, nofun, fun he => (hopen hs he).elim⟩

end

/-! ### The count of codes packed (R42 (b)) -/

/-- How many codes ENC has packed after a command, `k` before it. -/
def packedAfter (k : Nat) (i : Instr) (e : EncUnit) : Nat :=
  if i = .encReset then 0
  else if (e.state = .idle ∨ e.state = .pack) ∧ (pushedCode e.cb i).isSome = true then k + 1 else k

section
variable {k : Nat} {i : Instr} {e : EncUnit}

theorem packedAfter_of_push {c : Code} (hs : e.state = .idle ∨ e.state = .pack) (hc : pushedCode e.cb i = some c) :
    packedAfter k i e = k + 1 := by
  have hi : i ≠ .encReset := by rintro rfl; cases hc
  simp [packedAfter, hi, hs, hc]

theorem packedAfter_of_not_push (hi : i ≠ .encReset) (hc : pushedCode e.cb i = none) : packedAfter k i e = k := by
  simp [packedAfter, hi, hc]

theorem pushedCode_of_dec (cb : List Entry) (hi : i.port = .dec) : pushedCode cb i = none := by
  cases i with
  | encReset | encLoad | encSym | encCode | encFinish => cases hi
  | decReset | decLoad | decByte | decEnd => rfl

/-- Everything a command can do to ENC keeps the invariants. -/
theorem encInv_can {e' : EncUnit} (h : e.Inv k) (hcan : EncCan i e e') : e'.Inv (packedAfter k i e) := by
  cases hcan with
  | reset hi => subst hi; exact encInv_reset
  | otherUnit hi =>
    rw [packedAfter_of_not_push (by rintro rfl; cases hi) (pushedCode_of_dec e.cb hi)]
    exact h
  | discarded hi hs => exact encInv_of_closed h (.inr hs)
  | faulted c hi hs hc =>
    obtain ⟨hnone, hdec, hempty⟩ := encFaults_cause h hc
    exact encInv_raise h _ hnone hdec hempty
  | loaded sym code hi hs hc hl =>
    subst hi
    rw [packedAfter_of_not_push (by simp) rfl]
    exact encInv_withTable h ((tableOk_of_encInv h).append hc hl)
  | pushed c hs hc =>
    rw [packedAfter_of_push hs hc]
    exact encInv_packed h hs c
  | finishedEmpty hi hs => exact encInv_finishedEmpty h hs
  | finished hi hs => exact encInv_finishedFlush h hs

end

/-! ### The host's events -/

section
variable {k : Nat} {s : State} {rest : List HostEvent}

theorem packedNext_of_ok {w : Word} {i : Instr} (hhost : s.host = .cmd .enc w :: rest) (hd : decode .enc w = .ok i) :
    s.packedNext k = packedAfter k i s.enc := by
  cases i <;> simp [State.packedNext, packedAfter, hhost, hd]

theorem packedNext_of_error {w : Word} {r : Illegal} (hhost : s.host = .cmd .enc w :: rest) (hd : decode .enc w = .error r) :
    s.packedNext k = k := by
  simp [State.packedNext, hhost, hd]

/-- The host's next event keeps the invariants of ENC. -/
theorem encInv_event {ev : HostEvent} (hhost : s.host = ev :: rest) (h : s.enc.Inv k) :
    (encEvent ev s.enc).Inv (s.packedNext k) := by
  match ev with
  | .rst => simpa [State.packedNext, hhost, encEvent] using encInv_reset
  | .cmd .dec w => simpa [State.packedNext, hhost, encEvent] using h
  | .cmd .enc w =>
    show (encAccept w s.enc).Inv (s.packedNext k)
    cases hd : decode .enc w with
    | ok i =>
      rw [packedNext_of_ok hhost hd, encAccept_of_ok hd]
      exact encInv_can h (encEffect_can i s.enc)
    | error r =>
      rw [packedNext_of_error hhost hd, encAccept_of_error hd]
      by_cases hs : s.enc.state = .fault
      · rw [EncUnit.unlessFault_of_fault hs]; exact h
      · rw [EncUnit.unlessFault_of_not_fault hs]; exact encInv_raise h w nofun nofun fun _ => .inr rfl

end

end Sys2Proof.Proofs
end

section
/-! SUPPORT. The invariants of `10_state.md` R42 for DEC: reset meets them, and everything a host event can do to DEC keeps them. -/

namespace Sys2Proof.Proofs

open Sys2Proof Machine

theorem decInv_reset : DecUnit.reset.Inv where
  buf_le := by decide
  cb_le := by decide
  cb_codes := nofun
  fcause_iff := by decide
  fcmd_zero _ := rfl
  fcause_dec := nofun
  idle_start _ := ⟨rfl, rfl⟩
  rcnt_le := by decide
  done_sentinel := nofun

section
variable {d : DecUnit}

theorem tableOk_of_decInv (h : d.Inv) : TableOk d.cb := ⟨h.cb_le, h.cb_codes⟩

theorem decInv_withTable (h : d.Inv) {cb : List Entry} (hcb : TableOk cb) : ({ d with cb := cb } : DecUnit).Inv :=
  { h with cb_le := hcb.1, cb_codes := hcb.2 }

/-- Fault entry (`60_exceptions.md` R234) keeps the invariants, in whatever state the fault finds the unit. -/
theorem decInv_raise {c : Cause} (cw : Word) (hbuf : d.buf.length ≤ Config.bufCap) (hcb : TableOk d.cb) (hrcnt : d.rcnt.toNat ≤ 8)
    (hnone : c ≠ .none) (henc : c ≠ .symUnmapped) : (d.raise c cw).Inv where
  buf_le := hbuf
  cb_le := hcb.1
  cb_codes := hcb.2
  fcause_iff := by simp [hnone]
  fcmd_zero := by simp
  fcause_dec := henc
  idle_start := by simp
  rcnt_le := hrcnt
  done_sentinel := by simp

/-- The bits of a byte taken: RUN, or DONE with the sentinel at the end of the buffer (`42_decoder.md` R152). -/
theorem decInv_delivered (h : d.Inv) (hs : d.state ≠ .fault) {buf : List Bool} {out : List Sym} {st : DecState} {byte : Byte}
    {rc : BitVec 4} (hst : st = .run ∨ st = .done ∧ Config.codeLen ≤ buf.length ∧ window buf = Config.sent)
    (hb : buf.length ≤ Config.bufCap) (hr : rc.toNat ≤ 8) :
    ({ d with buf := buf, state := st, out := out, rbyte := byte, rcnt := rc } : DecUnit).Inv :=
  have hfault : st ≠ .fault := by obtain rfl | ⟨rfl, -⟩ := hst <;> nofun
  { buf_le := hb
    cb_le := h.cb_le
    cb_codes := h.cb_codes
    fcause_iff := by simpa [hfault] using mt h.fcause_iff.1 hs
    fcmd_zero := fun _ => h.fcmd_zero hs
    fcause_dec := h.fcause_dec
    idle_start := by obtain rfl | ⟨rfl, -⟩ := hst <;> nofun
    rcnt_le := hr
    done_sentinel := fun hdone => (hst.resolve_left (by rw [show st = .done from hdone]; nofun)).2 }

theorem decInv_ended (h : d.Inv) (hs : d.state ≠ .fault) : ({ d with state := .ended } : DecUnit).Inv :=
  { h with
    fcause_iff := by simpa using mt h.fcause_iff.1 hs
    fcmd_zero := fun _ => h.fcmd_zero hs
    idle_start := nofun
    done_sentinel := nofun }

/-- Everything a command can do to DEC keeps the invariants. -/
theorem decInv_can {i : Instr} {d' : DecUnit} (h : d.Inv) (hcan : DecCan i d d') : d'.Inv := by
  have hopen (hs : d.state = .idle ∨ d.state = .run) : d.state ≠ .fault := by rcases hs with hs | hs <;> simp [hs]
  cases hcan with
  | reset hi => exact decInv_reset
  | otherUnit hi => exact h
  | discarded hi hs => exact h
  | ignored hi hs => exact h
  | faulted c hi hs hc =>
    have hcause : c ≠ .none ∧ c ≠ .symUnmapped := by cases hc <;> exact ⟨nofun, nofun⟩
    exact decInv_raise _ h.buf_le (tableOk_of_decInv h) h.rcnt_le hcause.1 hcause.2
  | loaded sym code hi hs hc hl => exact decInv_withTable h ((tableOk_of_decInv h).append hc hl)
  | delivered byte buf out st rc hi hs hst hb hr => exact decInv_delivered h (hopen hs) hst (hb h.buf_le) hr
  | overflowed byte buf out rc hi hs hb hr => exact decInv_raise _ (hb h.buf_le) ⟨h.cb_le, h.cb_codes⟩ hr nofun nofun
  | finished hi hs => exact decInv_ended h (hopen hs)

/-- A host event keeps the invariants of DEC. -/
theorem decInv_event (ev : HostEvent) (h : d.Inv) : (decEvent ev d).Inv := by
  match ev with
  | .rst => exact decInv_reset
  | .cmd .enc w => exact h
  | .cmd .dec w =>
    show (decAccept w d).Inv
    cases hd : decode .dec w with
    | ok i => rw [decAccept_of_ok hd]; exact decInv_can h (decEffect_can i d)
    | error r =>
      rw [decAccept_of_error hd]
      by_cases hs : d.state = .fault
      · rw [DecUnit.unlessFault_of_fault hs]; exact h
      · rw [DecUnit.unlessFault_of_not_fault hs]
        exact decInv_raise w h.buf_le (tableOk_of_decInv h) h.rcnt_le nofun nofun

end

end Sys2Proof.Proofs
end

section
/-! SUPPORT. The invariants of `10_state.md` R42 hold after reset, and every step keeps them. -/

namespace Sys2Proof.Proofs

open Sys2Proof Machine

/-- Settles O32: the step is the host's next event on each unit, and everything an event can do to a unit keeps its invariants. -/
theorem stepKeepsTheInvariants : Obligations.StepKeepsTheInvariants := by
  intro k s t h hstep
  cases hhost : s.host with
  | nil =>
    rw [step_of_nil hhost] at hstep
    cases hstep
    simpa [State.packedNext, hhost] using h
  | cons ev rest =>
    rw [step_of_cons hhost] at hstep
    cases hstep
    exact ⟨encInv_event hhost h.enc, decInv_event ev h.dec⟩

/-- Settles O31: each unit meets its invariants after reset. -/
theorem invariantsHoldAtReset : Obligations.InvariantsHoldAtReset := ⟨encInv_reset, decInv_reset⟩

end Sys2Proof.Proofs
end

section
/-! SUPPORT. What a command leaves of the other unit and of the tables, and what hardware reset leaves (`10_state.md` R20, R41, R51). -/

namespace Sys2Proof.Proofs

open Sys2Proof Machine

/-- Settles O33: a command is one effect on each unit, a function of that unit alone, and the identity on the unit it does not name. -/
theorem unitsShareNoState : Obligations.UnitsShareNoState := by
  intro i s t s' t' h h'
  obtain rfl := exec_eq_next h
  obtain rfl := exec_eq_next h'
  refine ⟨rfl, fun hi => ⟨?_, fun heq => ?_⟩, fun hi => ⟨?_, fun heq => ?_⟩⟩
  · simp [decEffect_of_enc hi]
  · simp [heq]
  · simp [encEffect_of_dec hi]
  · simp [heq]

/-- ECB after a command of any unit: as it was, emptied by ENC's reset, or one entry longer by a LOAD in IDLE. -/
theorem encCan_cb {i : Instr} {e e' : EncUnit} (h : EncCan i e e') :
    e'.cb = e.cb ∨ (i = .encReset ∧ e'.cb = []) ∨
      ∃ sym code, i = .encLoad sym code ∧ e.state = .idle ∧ e'.cb = e.cb ++ [⟨sym, code⟩] := by
  cases h with
  | reset hi => exact .inr (.inl ⟨hi, rfl⟩)
  | otherUnit hi => exact .inl rfl
  | discarded hi hs => exact .inl rfl
  | faulted c hi hs hc => exact .inl rfl
  | loaded sym code hi hs hc hl => exact .inr (.inr ⟨sym, code, hi, hs, rfl⟩)
  | pushed c hs hc => left; simp
  | finishedEmpty hi hs => exact .inl rfl
  | finished hi hs => left; simp

/-- DCB after a command of any unit: as it was, emptied by DEC's reset, or one entry longer by a LOAD in IDLE. -/
theorem decCan_cb {i : Instr} {d d' : DecUnit} (h : DecCan i d d') :
    d'.cb = d.cb ∨ (i = .decReset ∧ d'.cb = []) ∨
      ∃ sym code, i = .decLoad sym code ∧ d.state = .idle ∧ d'.cb = d.cb ++ [⟨sym, code⟩] := by
  cases h with
  | reset hi => exact .inr (.inl ⟨hi, rfl⟩)
  | otherUnit hi => exact .inl rfl
  | discarded hi hs => exact .inl rfl
  | ignored hi hs => exact .inl rfl
  | faulted c hi hs hc => exact .inl rfl
  | loaded sym code hi hs hc hl => exact .inr (.inr ⟨sym, code, hi, hs, rfl⟩)
  | delivered byte buf out st rc hi hs hst hb hr => exact .inl rfl
  | overflowed byte buf out rc hi hs hb hr => exact .inl rfl
  | finished hi hs => exact .inl rfl

/-- Settles O35: of everything a command can do to a unit, only its reset and a LOAD in IDLE touch the table. -/
theorem tablesAreAppendOnly : Obligations.TablesAreAppendOnly := by
  intro i s t h
  obtain rfl := exec_eq_next h
  exact ⟨encCan_cb (encEffect_can i s.enc), decCan_cb (decEffect_can i s.dec)⟩

/-- After reset the status outputs all read 0 (`10_state.md` R41), whatever the host has still to send. -/
theorem status_reset (rest : List HostEvent) :
    (⟨EncUnit.reset, DecUnit.reset, rest⟩ : State).status = ⟨0#8, 0#7, 0#32, 0#8, 0#7, 0#32⟩ := by
  have hstatus : State.reset.status = ⟨0#8, 0#7, 0#32, 0#8, 0#7, 0#32⟩ := by decide
  exact hstatus

/-- Settles O8: hardware reset puts both units in their state after reset, whose elements and status are those of R41. -/
theorem hardwareResetClearsBothUnits : Obligations.HardwareResetClearsBothUnits := by
  intro s rest hhost
  exact ⟨⟨EncUnit.reset, DecUnit.reset, rest⟩, step_of_cons hhost,
    rfl, rfl, rfl, rfl, rfl, rfl, rfl, rfl, rfl, status_reset rest⟩

end Sys2Proof.Proofs
end

section
/-! SUPPORT. The fields of ESTAT and DSTAT (`10_state.md` R26, R34) and the level signals of `60_exceptions.md` R238. -/

namespace Sys2Proof.Proofs

open Sys2Proof Machine

section
variable (e : EncUnit) (d : DecUnit)

theorem estat_state : e.estat.extractLsb' 0 2 = e.state.bits := BitVec.extractLsb'_append_eq_right

theorem estat_empty : e.estat.getLsbD 2 = e.empty := by
  simp only [EncUnit.estat, BitVec.getLsbD_append]
  simp

theorem estat_reserved : e.estat.getLsbD 3 = false := by
  simp only [EncUnit.estat, BitVec.getLsbD_append]
  simp

theorem estat_fcause : e.estat.extractLsb' 4 4 = e.fcause.bits := by
  rw [EncUnit.estat, BitVec.append_assoc, BitVec.append_assoc]
  exact BitVec.extractLsb'_append_eq_left

theorem dstat_state : d.dstat.extractLsb' 0 3 = d.state.bits := BitVec.extractLsb'_append_eq_right

theorem dstat_reserved : d.dstat.getLsbD 3 = false := by
  simp only [DecUnit.dstat, BitVec.getLsbD_append]
  simp

theorem dstat_fcause : d.dstat.extractLsb' 4 4 = d.fcause.bits := by
  rw [DecUnit.dstat, BitVec.append_assoc]
  exact BitVec.extractLsb'_append_eq_left

end

/-! ### The numbers of the states and of the causes tell them apart -/

theorem encState_bits_eq_fault {st : EncState} : st.bits = 3 ↔ st = .fault := by cases st <;> decide

theorem decState_bits_eq_fault {st : DecState} : st.bits = 4 ↔ st = .fault := by cases st <;> decide

theorem decState_bits_eq_done {st : DecState} : st.bits = 2 ↔ st = .done := by cases st <;> decide

theorem cause_bits_eq_zero {c : Cause} : c.bits = 0#4 ↔ c = .none := by cases c <;> decide

/-! ### The level signals (`60_exceptions.md` R238) -/

section
variable (s : State)

theorem encFault_iff : s.status.encFault = true ↔ s.enc.state = .fault := by
  rw [StatusOutputs.encFault, decide_eq_true_eq, show s.status.encStat = s.enc.estat from rfl, estat_state, encState_bits_eq_fault]

theorem decFault_iff : s.status.decFault = true ↔ s.dec.state = .fault := by
  rw [StatusOutputs.decFault, decide_eq_true_eq, show s.status.decStat = s.dec.dstat from rfl, dstat_state, decState_bits_eq_fault]

theorem sentinelSeen_iff : s.status.sentinelSeen = true ↔ s.dec.state = .done := by
  rw [StatusOutputs.sentinelSeen, decide_eq_true_eq, show s.status.decStat = s.dec.dstat from rfl, dstat_state,
    decState_bits_eq_done]

theorem emptyRun_eq : s.status.emptyRun = s.enc.empty := estat_empty s.enc

end

/-- A count of at most 127 entries fits the 7 bits of ECBN and DCBN (`10_state.md` R22, R31). -/
theorem toNat_tableCount {cb : List Entry} (h : cb.length ≤ Config.ncb) : (BitVec.ofNat 7 cb.length).toNat = cb.length := by
  rw [BitVec.toNat_ofNat]
  exact Nat.mod_eq_of_lt (Nat.lt_of_le_of_lt h (by decide))

/-- A buffer of at most 13 bits has a length that fits BLEN (`10_state.md` R32). -/
theorem toNat_blen {d : DecUnit} (h : d.buf.length ≤ Config.bufCap) : d.blen.toNat = d.buf.length := by
  rw [DecUnit.blen, BitVec.toNat_ofNat]
  exact Nat.mod_eq_of_lt (Nat.lt_of_le_of_lt h (by decide))

/-- Settles O30: the fields are read off the layout of the registers; that a cause is shown exactly in FAULT is R42 (f), and that the
counts fit their registers R42 (c), (d). -/
theorem statusRegistersShowTheState : Obligations.StatusRegistersShowTheState := by
  intro k s h
  have hencCause : s.status.encStat.extractLsb' 4 4 = s.enc.fcause.bits := estat_fcause s.enc
  have hdecCause : s.status.decStat.extractLsb' 4 4 = s.dec.fcause.bits := dstat_fcause s.dec
  refine ⟨estat_state s.enc, estat_empty s.enc, estat_reserved s.enc, hencCause, dstat_state s.dec, dstat_reserved s.dec, hdecCause,
    ?_, ?_, encFault_iff s, decFault_iff s, sentinelSeen_iff s, by rw [emptyRun_eq],
    toNat_tableCount h.enc.cb_le, toNat_tableCount h.dec.cb_le, toNat_blen h.dec.buf_le⟩
  · rw [hencCause, encFault_iff, ← h.enc.fcause_iff, Ne, cause_bits_eq_zero]
  · rw [hdecCause, decFault_iff, ← h.dec.fcause_iff, Ne, cause_bits_eq_zero]

end Sys2Proof.Proofs
end

section
/-! SUPPORT. `DEC.BYTE` in an open run as the source's decoder (`42_decoder.md` R151 to R156). -/

namespace Sys2Proof.Proofs

open Sys2Proof Machine

section
variable {cap : Nat} {byte : Byte} {cw : Word} {d : DecUnit}

/-- In an open run the bits of the byte are delivered (R156). -/
theorem byte_of_open (hs : d.state = .idle ∨ d.state = .run) :
    d.byte cap byte cw = DecUnit.feedBits cap cw byte 8 { d with state := .run, rbyte := byte, rcnt := 8#4 } := by
  have hended : d.state ≠ .ended := by rcases hs with hs | hs <;> simp [hs]
  have hdone : d.state ≠ .done := by rcases hs with hs | hs <;> simp [hs]
  rw [DecUnit.byte, if_neg hended, if_neg hdone]

/-- A byte that fits the buffer leaves DEC with what the source's decoder has after the byte's bits. -/
theorem byte_of_fits (hs : d.state = .idle ∨ d.state = .run) (hfits : d.greedy.fits cap d.cb (bitsMSB byte)) :
    d.byte cap byte cw = ({ d with rbyte := byte } : DecUnit).withGreedy (d.greedy.bits d.cb (bitsMSB byte)) := by
  rw [← lowBits_eight] at hfits ⊢
  rw [byte_of_open hs, ← DecUnit.withGreedy_greedy]
  exact DecUnit.feedBits_fits 8 (fun _ => rfl) hfits

end

/-- `DEC.BYTE` in an open run is its body: the run is not in FAULT (`60_exceptions.md` R232). -/
theorem exec_decByte_of_open (byte : Byte) {s : State} (hs : s.dec.state = .idle ∨ s.dec.state = .run) :
    exec (.decByte byte) s = .next { s with dec := s.dec.byte Config.bufCap byte (encode (.decByte byte)) } := by
  have hfault : s.dec.state ≠ .fault := by rcases hs with hs | hs <;> simp [hs]
  rw [exec_eq, decEffect, DecUnit.unlessFault_of_not_fault hfault]
  rfl

/-- Settles O18: in an open run the loop of `DEC.BYTE` is the source's decoder on the byte's bits while they fit the buffer. -/
theorem decByteRunsTheGreedyMatcher : Obligations.DecByteRunsTheGreedyMatcher := by
  intro byte s hs hfits
  have hbyte := byte_of_fits (cap := Config.bufCap) (cw := encode (.decByte byte)) hs hfits
  rw [exec_decByte_of_open byte hs, hbyte]
  rfl

end Sys2Proof.Proofs
end

section
/-! SUPPORT. A command the host sends is the command its unit runs, and a series of commands to ENC is their effects in order
(`30_encoding.md` R88, `70_reset_and_hazards.md` R273). -/

namespace Sys2Proof.Proofs

open Sys2Proof Machine

/-- The word of every instruction is of the instruction's own row. -/
theorem encodedWordIsOfItsRow (i : Instr) : Laws.EncodedWordIsOfItsRow.Statement i := by
  cases i with
  | encReset => exact Laws.EncodedWordIsOfItsRow.encReset
  | encLoad sym code => exact Laws.EncodedWordIsOfItsRow.encLoad sym code
  | encSym sym => exact Laws.EncodedWordIsOfItsRow.encSym sym
  | encCode code => exact Laws.EncodedWordIsOfItsRow.encCode code
  | encFinish => exact Laws.EncodedWordIsOfItsRow.encFinish
  | decReset => exact Laws.EncodedWordIsOfItsRow.decReset
  | decLoad sym code => exact Laws.EncodedWordIsOfItsRow.decLoad sym code
  | decByte byte => exact Laws.EncodedWordIsOfItsRow.decByte byte
  | decEnd => exact Laws.EncodedWordIsOfItsRow.decEnd

/-- The operands taken from an instruction's own word are its operands (`30_encoding.md` R72). -/
theorem withOperands_encode (i : Instr) : withOperands i.mnemonic (encode i) = i := by
  cases i <;> simp [withOperands, encode, Instr.mnemonic]

/-- An instruction's word decodes to it on its own port. -/
theorem decode_encode (i : Instr) : decode i.port (encode i) = .ok i := by
  obtain ⟨r, hmem, hrow, hholds⟩ := encodedWordIsOfItsRow i
  have hd := decode_of_holds hmem hholds
  rwa [hrow, withOperands_encode] at hd

section
variable {i : Instr}

theorem encEvent_send (hi : i.port = .enc) : encEvent (send i) = encEffect i := by
  have hd := decode_encode i
  rw [hi] at hd
  rw [send, hi]
  exact encAccept_of_ok hd

theorem decEvent_send_of_enc (hi : i.port = .enc) : decEvent (send i) = id := by
  rw [send, hi]; rfl

end

/-- The effects of a series of commands on ENC, in order. -/
def encRun (is : List Instr) (e : EncUnit) : EncUnit := is.foldl (fun e i => encEffect i e) e

@[simp] theorem encRun_nil (e : EncUnit) : encRun [] e = e := rfl

@[simp] theorem encRun_cons (i : Instr) (is : List Instr) (e : EncUnit) : encRun (i :: is) e = encRun is (encEffect i e) := rfl

theorem encRun_append (is js : List Instr) (e : EncUnit) : encRun (is ++ js) e = encRun js (encRun is e) :=
  List.foldl_append

theorem foldl_encEvent_send {is : List Instr} (h : ∀ i ∈ is, i.port = .enc) (e : EncUnit) :
    (is.map send).foldl (fun e ev => encEvent ev e) e = encRun is e := by
  induction is generalizing e with
  | nil => rfl
  | cons i is ih =>
    rw [List.forall_mem_cons] at h
    rw [List.map_cons, List.foldl_cons, encEvent_send h.1, ih h.2, encRun_cons]

theorem foldl_decEvent_send {is : List Instr} (h : ∀ i ∈ is, i.port = .enc) (d : DecUnit) :
    (is.map send).foldl (fun d ev => decEvent ev d) d = d := by
  induction is with
  | nil => rfl
  | cons i is ih =>
    rw [List.forall_mem_cons] at h
    rw [List.map_cons, List.foldl_cons, decEvent_send_of_enc h.1, id, ih h.2]

/-- When the host sends commands to ENC alone, ENC ends with their effects and DEC as it was. -/
theorem afterHost_send_enc {is : List Instr} (h : ∀ i ∈ is, i.port = .enc) (s : State) :
    State.afterHost { s with host := is.map send } = .next ⟨encRun is s.enc, s.dec, []⟩ := by
  rw [State.afterHost_eq, foldl_encEvent_send h, foldl_decEvent_send h]

end Sys2Proof.Proofs
end

section
/-! SUPPORT. An encode run up to its finish: the table loaded, then the codes packed (`70_reset_and_hazards.md` R273, `41_encoder.md` R128). -/

namespace Sys2Proof.Proofs

open Sys2Proof Machine

/-- The LOAD of an entry. -/
def encLoadOf (entry : Entry) : Instr := .encLoad entry.sym entry.code

/-- A LOAD in IDLE with room in the table appends its entry (`40_codebook.md` R101). -/
theorem encEffect_load_of_idle {e : EncUnit} {entry : Entry} (hs : e.state = .idle) (hc : entry.code ≠ Config.sent)
    (hl : e.cb.length < Config.ncb) : encEffect (encLoadOf entry) e = { e with cb := e.cb ++ [entry] } := by
  have hfull : cbIsFull e.cb ≠ true := by simpa [cbIsFull] using hl.ne
  rw [encLoadOf, encEffect, EncUnit.unlessFault_of_not_fault (by simp [hs]), EncUnit.load, if_neg (not_not.2 hs), if_neg hc,
    if_neg hfull]

/-- The LOADs of a table with room for all of it append its entries in order. -/
theorem encRun_loads {e : EncUnit} {cb : List Entry} (hs : e.state = .idle) (hc : ∀ entry ∈ cb, entry.code ≠ Config.sent)
    (hl : e.cb.length + cb.length ≤ Config.ncb) : encRun (cb.map encLoadOf) e = { e with cb := e.cb ++ cb } := by
  induction cb generalizing e with
  | nil => simp
  | cons entry cb ih =>
    rw [List.forall_mem_cons] at hc
    rw [List.length_cons] at hl
    rw [List.map_cons, encRun_cons, encEffect_load_of_idle hs hc.1 (by omega)]
    simpa using ih (e := { e with cb := e.cb ++ [entry] }) hs hc.2 (by simp; omega)

/-- A legal push in an open run packs its code (`41_encoder.md` R123, R124). -/
theorem encEffect_of_push {e : EncUnit} {i : Instr} {c : Code} (hs : e.state = .idle ∨ e.state = .pack)
    (hc : pushedCode e.cb i = some c) : encEffect i e = { e.packCode c with state := .pack } := by
  have hfault : e.state ≠ .fault := by rcases hs with hs | hs <;> simp [hs]
  have hfin : e.state ≠ .fin := by rcases hs with hs | hs <;> simp [hs]
  cases i with
  | encCode code =>
    obtain ⟨hsent, rfl⟩ : code ≠ Config.sent ∧ code = c := by simpa [pushedCode] using hc
    rw [encEffect, EncUnit.unlessFault_of_not_fault hfault, EncUnit.code, if_neg hfin, if_neg hsent]
  | encSym sym =>
    have hl : lookupSym e.cb sym = some c := hc
    rw [encEffect, EncUnit.unlessFault_of_not_fault hfault, EncUnit.symbol, if_neg hfin, hl]
  | encReset | encLoad | encFinish | decReset | decLoad | decByte | decEnd => cases hc

/-- What a legal push in an open run leaves: only the packer, the trace and the state change, and the code's bits follow those taken. -/
theorem encEffect_push_spec {e : EncUnit} {i : Instr} {c : Code} (hs : e.state = .idle ∨ e.state = .pack) (hok : e.PackerOk)
    (hc : pushedCode e.cb i = some c) :
    ∃ acc nbits out, encEffect i e = { e with acc := acc, nbits := nbits, out := out, state := .pack } ∧
      (encEffect i e).PackerOk ∧ (encEffect i e).stream = e.stream ++ bitsMSB c := by
  obtain ⟨acc, nbits, out, heq, hbits, -, hle, hacc, -⟩ := EncUnit.packCode_spec hok c
  rw [encEffect_of_push hs hc, heq]
  exact ⟨acc, nbits, out, rfl, ⟨hle, hacc⟩, hbits⟩

/-- Legal pushes in an open run: only the packer, the trace and the state change, and the codes' bits follow those taken. -/
theorem encRun_pushes {e : EncUnit} {pushes : List Instr} {codes : List Code} (hs : e.state = .idle ∨ e.state = .pack)
    (hok : e.PackerOk) (hc : pushes.map (pushedCode e.cb) = codes.map some) :
    ∃ acc nbits out, encRun pushes e =
        { e with acc := acc, nbits := nbits, out := out, state := if codes = [] then e.state else .pack } ∧
      (encRun pushes e).PackerOk ∧ (encRun pushes e).stream = e.stream ++ codes.flatMap bitsMSB := by
  induction pushes generalizing e codes with
  | nil =>
    obtain rfl : codes = [] := by simpa using hc.symm
    exact ⟨e.acc, e.nbits, e.out, rfl, hok, by simp⟩
  | cons i pushes ih =>
    obtain ⟨c, cs, rfl, hi, hrest⟩ : ∃ c cs, codes = c :: cs ∧ some c = pushedCode e.cb i ∧
        cs.map some = pushes.map (pushedCode e.cb) := by
      rw [List.map_cons] at hc
      exact List.map_eq_cons_iff.1 hc.symm
    obtain ⟨acc, nbits, out, heq, hok', hstream⟩ := encEffect_push_spec hs hok hi.symm
    rw [heq] at hok' hstream
    obtain ⟨acc', nbits', out', heq', hokRun, hstreamRun⟩ := ih (.inr rfl) hok' hrest.symm
    rw [encRun_cons, heq]
    refine ⟨acc', nbits', out', ?_, hokRun, ?_⟩
    · rw [heq']; simp
    · rw [hstreamRun, hstream, List.flatMap_cons, List.append_assoc]

/-- The commands of an encode run before its finish (`70_reset_and_hazards.md` R273). -/
def encRunCommands (cb : List Entry) (pushes : List Instr) : List Instr := [.encReset] ++ cb.map encLoadOf ++ pushes

theorem map_send_encRunCommands (cb : List Entry) (pushes : List Instr) :
    (encRunCommands cb pushes).map send =
      [send .encReset] ++ cb.map (fun e => send (.encLoad e.sym e.code)) ++ pushes.map send := by
  rw [encRunCommands, List.map_append, List.map_append, List.map_map]
  rfl

section
variable {cb : List Entry} {pushes : List Instr} {codes : List Code}

theorem port_of_pushedCode {i : Instr} {c : Code} (h : pushedCode cb i = some c) : i.port = .enc := by
  cases i with
  | encReset | encLoad | encSym | encCode | encFinish => rfl
  | decReset | decLoad | decByte | decEnd => cases h

/-- The commands of an encode run are commands of ENC. -/
theorem port_of_encRunCommands (hc : pushes.map (pushedCode cb) = codes.map some) :
    ∀ i ∈ encRunCommands cb pushes, i.port = .enc := by
  intro i hi
  rw [encRunCommands, List.mem_append, List.mem_append, List.mem_singleton] at hi
  obtain (rfl | hload) | hpush := hi
  · rfl
  · obtain ⟨entry, -, rfl⟩ := List.mem_map.1 hload
    rfl
  · have hmem : pushedCode cb i ∈ codes.map some := hc ▸ List.mem_map_of_mem hpush
    obtain ⟨c, -, hcode⟩ := List.mem_map.1 hmem
    exact port_of_pushedCode hcode.symm

/-- What ENC holds before the finish of an encode run, from whatever state: the table, the codes' bits emitted and pending in order, and
else what reset left. -/
theorem encRun_beforeFinish (e : EncUnit) (hl : cb.length ≤ Config.ncb) (hcb : ∀ entry ∈ cb, entry.code ≠ Config.sent)
    (hc : pushes.map (pushedCode cb) = codes.map some) :
    ∃ acc nbits out, encRun (encRunCommands cb pushes) e =
        { EncUnit.reset with cb := cb, acc := acc, nbits := nbits, out := out, state := if codes = [] then .idle else .pack } ∧
      (encRun (encRunCommands cb pushes) e).PackerOk ∧ (encRun (encRunCommands cb pushes) e).stream = codes.flatMap bitsMSB := by
  have hloads : encRun (cb.map encLoadOf) EncUnit.reset = { EncUnit.reset with cb := cb } :=
    encRun_loads rfl hcb (by simpa [EncUnit.reset] using hl)
  have hrun : encRun (encRunCommands cb pushes) e = encRun pushes { EncUnit.reset with cb := cb } := by
    rw [encRunCommands, encRun_append, encRun_append, ← hloads]
    rfl
  rw [hrun]
  exact encRun_pushes (e := { EncUnit.reset with cb := cb }) (.inl rfl) (packerOk_of_inv (encInv_withTable encInv_reset ⟨hl, hcb⟩)) hc

end

/-- Settles O39: the pushes after reset and LOADs leave the codes' bits emitted and pending, and `7k` bits are `floor(7k/8)` bytes and
the rest. -/
theorem packedBitsBeforeFinish : Obligations.PackedBitsBeforeFinish := by
  intro s cb pushes codes hl hcb hc
  obtain ⟨acc, nbits, out, heq, hok, hstream⟩ := encRun_beforeFinish s.enc hl hcb hc
  have hcount := EncUnit.length_stream hok
  have hnbits := hok.1
  have hbits : (codes.flatMap bitsMSB).length = 7 * codes.length := by simp [List.length_flatMap]; omega
  rw [hstream, hbits] at hcount
  refine ⟨⟨encRun (encRunCommands cb pushes) s.enc, s.dec, []⟩, ?_, ?_, ?_, hstream, by rw [heq], by rw [heq]; rfl, rfl⟩
  · rw [← map_send_encRunCommands, afterHost_send_enc (port_of_encRunCommands hc)]
  · show (encRun (encRunCommands cb pushes) s.enc).out.length = _
    omega
  · show (encRun (encRunCommands cb pushes) s.enc).nbits.toNat = _
    omega

end Sys2Proof.Proofs
end

section
/-! SUPPORT. Words on the two ports in any order: each unit sees its own (`20_memory.md` R63). -/

namespace Sys2Proof.Proofs

open Sys2Proof Machine

/-- The words of `xs` on the port `p`, in order. -/
def wordsOf (p : Port) (xs : List (Port × Word)) : List (Port × Word) := xs.filter fun x => decide (x.1 = p)

/-- The host sending words, each on its port. -/
def wordEvents (xs : List (Port × Word)) : List HostEvent := xs.map fun x => .cmd x.1 x.2

section
variable (xs : List (Port × Word)) (e : EncUnit) (d : DecUnit)

theorem foldl_encEvent_wordsOf_enc :
    (wordEvents (wordsOf .enc xs)).foldl (fun e ev => encEvent ev e) e = (wordEvents xs).foldl (fun e ev => encEvent ev e) e := by
  induction xs generalizing e with
  | nil => rfl
  | cons x xs ih =>
    match x with
    | (.enc, w) => exact ih (encAccept w e)
    | (.dec, w) => exact ih e

theorem foldl_decEvent_wordsOf_dec :
    (wordEvents (wordsOf .dec xs)).foldl (fun d ev => decEvent ev d) d = (wordEvents xs).foldl (fun d ev => decEvent ev d) d := by
  induction xs generalizing d with
  | nil => rfl
  | cons x xs ih =>
    match x with
    | (.enc, w) => exact ih d
    | (.dec, w) => exact ih (decAccept w d)

theorem foldl_encEvent_wordsOf_dec : (wordEvents (wordsOf .dec xs)).foldl (fun e ev => encEvent ev e) e = e := by
  induction xs with
  | nil => rfl
  | cons x xs ih => match x with | (.enc, w) | (.dec, w) => exact ih

theorem foldl_decEvent_wordsOf_enc : (wordEvents (wordsOf .enc xs)).foldl (fun d ev => decEvent ev d) d = d := by
  induction xs with
  | nil => rfl
  | cons x xs ih => match x with | (.enc, w) | (.dec, w) => exact ih

end

/-- Settles O34: a run is each event's effect on each unit in order, and a word's effect on the unit of the other port is none. -/
theorem interleavingLeavesEachUnitAsAlone : Obligations.InterleavingLeavesEachUnitAsAlone := by
  intro s xs
  exact ⟨_, _, _, State.afterHost_eq { s with host := wordEvents xs },
    State.afterHost_eq { s with host := wordEvents (wordsOf .enc xs) },
    State.afterHost_eq { s with host := wordEvents (wordsOf .dec xs) }, (foldl_encEvent_wordsOf_enc xs s.enc).symm,
    (foldl_decEvent_wordsOf_dec xs s.dec).symm, foldl_decEvent_wordsOf_enc xs s.dec, foldl_encEvent_wordsOf_dec xs s.enc⟩

end Sys2Proof.Proofs
end

section
/-! SUPPORT. How much the packer adds to ENC's trace, whatever bits ACC holds (`41_encoder.md` R121, R122, R125). -/

namespace Sys2Proof.Proofs

open Sys2Proof Machine

section
variable {e : EncUnit}

/-- A bit pushed is pending or completes a byte; the bits above NBITS in ACC do not matter to the count (R121). -/
theorem packBit_out (h : e.nbits.toNat ≤ 7) (b : Bool) :
    ∃ more, (e.packBit b).out = e.out ++ more ∧ (e.packBit b).nbits.toNat ≤ 7 ∧
      8 * more.length + (e.packBit b).nbits.toNat = e.nbits.toNat + 1 := by
  by_cases hfull : e.nbits + 1#4 = 8#4
  · have h7 := (add_one_eq_eight h).1 hfull
    rw [EncUnit.packBit_full b hfull]
    exact ⟨_, rfl, by simp, by simp [h7]⟩
  · have h7 := mt (add_one_eq_eight h).2 hfull
    have hn := toNat_add_one h
    rw [EncUnit.packBit_notFull b hfull]
    exact ⟨[], by simp, by simp only; omega, by simp only [List.length_nil]; omega⟩

theorem packBits_out (h : e.nbits.toNat ≤ 7) (bits : List Bool) :
    ∃ more, (e.packBits bits).out = e.out ++ more ∧ (e.packBits bits).nbits.toNat ≤ 7 ∧
      8 * more.length + (e.packBits bits).nbits.toNat = e.nbits.toNat + bits.length := by
  induction bits generalizing e with
  | nil => exact ⟨[], by simp, h, by simp⟩
  | cons b bits ih =>
    obtain ⟨m, hout, hle, hcount⟩ := packBit_out h b
    obtain ⟨m', hout', hle', hcount'⟩ := ih hle
    refine ⟨m ++ m', by rw [EncUnit.packBits_cons, hout', hout, List.append_assoc], hle', ?_⟩
    rw [EncUnit.packBits_cons, List.length_append, List.length_cons]
    omega

/-- Seven bits with at most seven pending complete at most one byte (R122). -/
theorem packCode_out (h : e.nbits.toNat ≤ 7) (c : Code) : ∃ more, (e.packCode c).out = e.out ++ more ∧ more.length ≤ 1 := by
  obtain ⟨more, hout, -, hcount⟩ := packBits_out h (bitsMSB c)
  rw [length_bitsMSB] at hcount
  exact ⟨more, hout, by omega⟩

theorem flush_out (e : EncUnit) : ∃ more, e.flush.out = e.out ++ more ∧ more.length ≤ 1 := by
  unfold EncUnit.flush
  split_ifs with h0
  · exact ⟨[], by simp, by simp⟩
  · exact ⟨_, rfl, le_rfl⟩

/-- The sentinel and the padding are at most two bytes (`41_encoder.md` R126). -/
theorem flush_packCode_out (h : e.nbits.toNat ≤ 7) (c : Code) :
    ∃ more, (e.packCode c).flush.out = e.out ++ more ∧ more.length ≤ 2 := by
  obtain ⟨m, hout, hle⟩ := packCode_out h c
  obtain ⟨m', hout', hle'⟩ := flush_out (e.packCode c)
  exact ⟨m ++ m', by rw [hout', hout, List.append_assoc], by rw [List.length_append]; omega⟩

end

end Sys2Proof.Proofs
end

section
/-! SUPPORT. The traces only grow, and by how much (`20_memory.md` R52, `42_decoder.md` R156). -/

namespace Sys2Proof.Proofs

open Sys2Proof Machine

/-- The most bytes a command adds to EOUT. -/
def encEmitsAtMost : Instr → Nat
  | .encCode _ | .encSym _ => 1
  | .encFinish => 2
  | .encReset | .encLoad _ _ | .decReset | .decLoad _ _ | .decByte _ | .decEnd => 0

theorem encEmitsAtMost_of_push {cb : List Entry} {i : Instr} {c : Code} (h : pushedCode cb i = some c) : encEmitsAtMost i = 1 := by
  cases i with
  | encSym | encCode => rfl
  | encReset | encLoad | encFinish | decReset | decLoad | decByte | decEnd => cases h

/-- EOUT after a command of any unit but ENC's reset: the bytes it had, and at most the command's number of bytes more. -/
theorem encCan_out {i : Instr} {e e' : EncUnit} (h : EncCan i e e') (hn : e.nbits.toNat ≤ 7) (hi : i ≠ .encReset) :
    ∃ more, e'.out = e.out ++ more ∧ more.length ≤ encEmitsAtMost i := by
  have hsame : ∃ more, e.out = e.out ++ more ∧ more.length ≤ encEmitsAtMost i := ⟨[], by simp, Nat.zero_le _⟩
  cases h with
  | reset hreset => exact absurd hreset hi
  | otherUnit | discarded | faulted | loaded | finishedEmpty => exact hsame
  | pushed c hs hc => rw [encEmitsAtMost_of_push hc]; dsimp only; exact packCode_out hn c
  | finished hfinish hs => rw [hfinish]; dsimp only; exact flush_packCode_out hn Config.sent

/-- The bits of one byte complete at most two symbols. Every symbol takes seven bits out of the buffer; three would take 21, and a byte
whose first bit finds room leaves at most 20, one whose first bit finds the buffer full none (R155, R156). -/
theorem feedBits_out {d : DecUnit} (hb : d.buf.length ≤ Config.bufCap) (byte : Byte) (cw : Word) :
    ∃ more, (DecUnit.feedBits Config.bufCap cw byte 8 { d with state := .run, rbyte := byte, rcnt := 8#4 }).out = d.out ++ more ∧
      more.length ≤ 2 := by
  rw [← DecUnit.withGreedy_greedy]
  by_cases hfits : d.greedy.fits Config.bufCap d.cb (lowBits byte 8)
  · refine ⟨_, by rw [DecUnit.feedBits_fits (d := { d with rbyte := byte }) 8 (fun _ => rfl) hfits]; rfl, ?_⟩
    have hroom : d.buf.length < Config.bufCap := hfits 0 (by simp) rfl
    have hcount := Greedy.bits_count d.cb d.greedy (lowBits byte 8)
    have htaken := Greedy.bits_taken_le d.cb d.greedy (lowBits byte 8)
    simp only [DecUnit.greedy, length_lowBits, List.length_nil, Config.bufCap] at *
    omega
  · obtain ⟨k, hk, -, hfull, heq⟩ := DecUnit.feedBits_overflow (d := { d with rbyte := byte }) (cw := cw) 8 (fun _ => rfl) hb hfits
    refine ⟨_, by rw [heq]; rfl, ?_⟩
    have hcount := Greedy.bits_count d.cb d.greedy ((lowBits byte 8).take k)
    have htaken := Greedy.bits_taken_le d.cb d.greedy ((lowBits byte 8).take k)
    simp only [DecUnit.greedy, List.length_take, length_lowBits, List.length_nil, Config.bufCap] at *
    omega

/-- `DEC.BYTE` adds at most two symbols to DOUT, in every state of DEC. -/
theorem decEffect_decByte_out {d : DecUnit} (hb : d.buf.length ≤ Config.bufCap) (byte : Byte) :
    ∃ more, (decEffect (.decByte byte) d).out = d.out ++ more ∧ more.length ≤ 2 := by
  have hsame : ∃ more, d.out = d.out ++ more ∧ more.length ≤ 2 := ⟨[], by simp, Nat.zero_le _⟩
  rw [decEffect]
  by_cases hfault : d.state = .fault
  · rw [DecUnit.unlessFault_of_fault hfault]; exact hsame
  · rw [DecUnit.unlessFault_of_not_fault hfault]
    unfold DecUnit.byte
    split_ifs with hended hdone
    · exact hsame
    · exact hsame
    · exact feedBits_out hb byte _

/-- A command that is neither DEC's reset nor `DEC.BYTE` leaves DOUT as it is. -/
theorem decCan_out {i : Instr} {d d' : DecUnit} (h : DecCan i d d') (hi : i ≠ .decReset) (hbyte : ∀ byte, i ≠ .decByte byte) :
    d'.out = d.out := by
  cases h with
  | reset hreset => exact absurd hreset hi
  | delivered byte buf out st rc hdec => exact absurd hdec (hbyte byte)
  | overflowed byte buf out rc hdec => exact absurd hdec (hbyte byte)
  | otherUnit | discarded | ignored | faulted | loaded | finished => rfl

/-- The most symbols a command adds to DOUT. -/
def decEmitsAtMost : Instr → Nat
  | .decByte _ => 2
  | .encReset | .encLoad _ _ | .encSym _ | .encCode _ | .encFinish | .decReset | .decLoad _ _ | .decEnd => 0

/-- DOUT after a command of any unit but DEC's reset: the symbols it had, and at most the command's number of symbols more. -/
theorem decEffect_out {d : DecUnit} (i : Instr) (hb : d.buf.length ≤ Config.bufCap) (hi : i ≠ .decReset) :
    ∃ more, (decEffect i d).out = d.out ++ more ∧ more.length ≤ decEmitsAtMost i := by
  by_cases hbyte : ∃ byte, i = .decByte byte
  · obtain ⟨byte, rfl⟩ := hbyte
    exact decEffect_decByte_out hb byte
  · have hout := decCan_out (decEffect_can i d) hi fun byte h => hbyte ⟨byte, h⟩
    exact ⟨[], by rw [hout, List.append_nil], Nat.zero_le _⟩

/-- Settles O36: ENC's trace grows by what the packer completes, DEC's by what the source's decoder emits in one byte. -/
theorem tracesOnlyGrow : Obligations.TracesOnlyGrow := by
  intro i s t hnbits hbuf h
  obtain rfl := exec_eq_next h
  refine ⟨fun hi => ?_, fun hi => ?_⟩
  · obtain ⟨more, hout, hle⟩ := encCan_out (encEffect_can i s.enc) hnbits hi
    exact ⟨more, hout, hle.trans_eq (by cases i <;> rfl)⟩
  · obtain ⟨more, hout, hle⟩ := decEffect_out i hbuf hi
    exact ⟨more, hout, hle.trans_eq (by cases i <;> rfl)⟩

end Sys2Proof.Proofs
end

section
/-! SUPPORT. The opcode map by mnemonic: the mask of a row is its format's, and the opcode of a word names the one unit it can be a command of
(`30_encoding.md` R71 to R75). -/

namespace Sys2Proof.Proofs

open Sys2Proof Machine

/-- The bits of a word that a format fixes: the opcode and the bits that must be zero (R71). -/
def formatMask : Format → Word
  | .z => 0xFFFFFFFF#32
  | .sc => 0xFFFF0080#32
  | .s => 0xFFFF00FF#32
  | .c => 0xFFFFFF80#32
  | .b => 0xFFFFFF00#32

/-- A word that holds the opcode and zero below it (R71). -/
abbrev opcodeBits (op : BitVec 4) : Word := op.zeroExtend 32 <<< 28

/-- The row of a mnemonic: its opcode, and zero in the bits that must be zero. -/
def rowOf (m : Mnemonic) : Row := ⟨m, opcodeBits m.op, formatMask m.format⟩

/-- A row of the opcode map is the row of its mnemonic. -/
theorem eq_rowOf {r : Row} (hr : r ∈ opcodeMap) : r = rowOf r.mnemonic := by
  have hall : ∀ q ∈ opcodeMap, q = rowOf q.mnemonic := by decide
  exact hall r hr

theorem mem_allMnemonics (m : Mnemonic) : m ∈ allMnemonics := by cases m <;> decide

/-- No two mnemonics have one opcode. -/
theorem op_injective {m m' : Mnemonic} (h : m.op = m'.op) : m = m' := by
  have hall : ∀ m ∈ allMnemonics, ∀ m' ∈ allMnemonics, m.op = m'.op → m = m' := by decide
  exact hall m (mem_allMnemonics m) m' (mem_allMnemonics m') h

@[simp] theorem opcodePort_op (m : Mnemonic) : opcodePort m.op = some m.port := by cases m <;> decide

theorem holds_iff {r : Row} {w : Word} : r.holds w = true ↔ w &&& r.mask = r.bits := decide_eq_true_iff

/-- A word that decodes on a port has an opcode of that port's unit. -/
theorem opcodePort_of_decode {p : Port} {w : Word} {i : Instr} (h : decode p w = .ok i) : opcodePort (opField w) = some p := by
  obtain ⟨r, hr, hp, hholds, -⟩ := decode_eq_ok h
  rw [opField_of_holds hr hholds, opcodePort_op, hp]

/-- A word whose opcode is not one of the port's unit is illegal there, for the reason R74 gives. -/
theorem decode_of_opcodePort_ne {p : Port} {w : Word} (h : opcodePort (opField w) ≠ some p) :
    decode p w = .error (whyIllegal p w) := by
  cases hf : findRow p w with
  | none => simp [decode, hf]
  | some r => exact absurd (opcodePort_of_decode (i := withOperands r.mnemonic w) (by simp [decode, hf])) h

/-- Settles O2: a word is of its instruction's own row, from which the operands are read back, and its opcode names no other unit. -/
theorem decodeOfEncodeIsTheCommand : Obligations.DecodeOfEncodeIsTheCommand := by
  intro i _
  refine ⟨decode_encode i, fun p hp => ?_⟩
  have hport : opcodePort (opField (encode i)) = some i.port := by rw [opField_encode, opcodePort_op]; rfl
  rw [decode_of_opcodePort_ne (by rw [hport]; exact fun h => hp (Option.some.inj h).symm), whyIllegal, hport]
  exact congrArg _ (if_neg hp.symm)

/-- Settles O4: the opcode of a word of a row is the row's, and no two rows have one opcode. -/
theorem opcodeRowsAreDisjoint : Obligations.OpcodeRowsAreDisjoint := by
  refine ⟨fun w r r' hr hr' h h' => ?_, fun p w => ⟨?_, ?_⟩⟩
  · have hop : r.mnemonic.op = r'.mnemonic.op :=
      (opField_of_holds hr (holds_iff.2 h)).symm.trans (opField_of_holds hr' (holds_iff.2 h'))
    rw [eq_rowOf hr, eq_rowOf hr', op_injective hop]
  · rintro ⟨i, hi⟩
    obtain ⟨r, hr, hp, hholds, -⟩ := decode_eq_ok hi
    exact ⟨r, hr, hp, holds_iff.1 hholds⟩
  · rintro ⟨r, hr, rfl, h⟩
    exact ⟨_, decode_of_holds hr (holds_iff.2 h)⟩

end Sys2Proof.Proofs
end

section
/-! SUPPORT. A word of a row has the must-be-zero bits of the row's format zero, and is the encoding of the row's command with the operands
read from it (`30_encoding.md` R71, R72). -/

namespace Sys2Proof.Proofs

open Sys2Proof Machine

section
variable {w mask : Word} {op : BitVec 4}

/-- Below the opcode, a window of bits that the mask covers is zero. -/
theorem extractLsb'_eq_zero_of_masked {lo len : Nat} (h : w &&& mask = opcodeBits op) (hlo : lo + len ≤ 28)
    (hmask : mask.extractLsb' lo len = BitVec.allOnes len) : w.extractLsb' lo len = 0 := by
  have hzero : (opcodeBits op).extractLsb' lo len = 0 := by
    ext i hi
    simp [show lo + i < 28 by omega]
  calc w.extractLsb' lo len = (w &&& mask).extractLsb' lo len := by rw [BitVec.extractLsb'_and, hmask, BitVec.and_allOnes]
    _ = 0 := by rw [h, hzero]

/-- A word of any format but B is a word of format SC. -/
theorem masked_sc (h : w &&& mask = opcodeBits op) (hmask : mask &&& formatMask .sc = formatMask .sc) :
    w &&& formatMask .sc = opcodeBits op := by
  have hop : opcodeBits op &&& formatMask .sc = opcodeBits op := by
    clear h; revert op; decide
  calc w &&& formatMask .sc = w &&& mask &&& formatMask .sc := by rw [BitVec.and_assoc, hmask]
    _ = opcodeBits op := by rw [h, hop]

end

/-- The must-be-zero bits of each format (R71). -/
theorem reservedBits_eq_zero {f : Format} {w : Word} {op : BitVec 4} (h : w &&& formatMask f = opcodeBits op) :
    w.extractLsb' 16 12 = 0#12 ∧
    (f ∈ [Format.z, Format.c, Format.b] → w.extractLsb' 8 8 = 0#8) ∧
    (f ∈ [Format.z, Format.sc, Format.s, Format.c] → w.extractLsb' 7 1 = 0#1) ∧
    (f ∈ [Format.z, Format.s] → w.extractLsb' 0 7 = 0#7) := by
  refine ⟨extractLsb'_eq_zero_of_masked h (by omega) (by cases f <;> decide),
    fun hf => extractLsb'_eq_zero_of_masked h (by omega) ?_, fun hf => extractLsb'_eq_zero_of_masked h (by omega) ?_,
    fun hf => extractLsb'_eq_zero_of_masked h (by omega) ?_⟩ <;>
  · revert hf; cases f <;> decide

/-- A word of a row is the encoding of the row's command with the operands read from it, the operands its format lacks being zero. -/
theorem encode_withOperands {m : Mnemonic} {w : Word} (hop : opField w = m.op)
    (h : w &&& formatMask m.format = opcodeBits m.op) : encode (withOperands m w) = w := by
  obtain ⟨-, hsym, -, hcode⟩ := reservedBits_eq_zero h
  have hsc (hmask : formatMask m.format &&& formatMask .sc = formatMask .sc) :
      layoutSC m.op (symField w) (codeField w) = w := by
    rw [← hop]
    exact (eq_layoutSC (by rw [hop]; exact masked_sc h hmask)).symm
  cases m with
  | encReset | encFinish | decReset | decEnd =>
    have hw := hsc (by decide)
    rwa [symField, hsym (by decide), codeField, hcode (by decide)] at hw
  | encLoad | decLoad => exact hsc (by decide)
  | encSym =>
    have hw := hsc (by decide)
    rwa [codeField, hcode (by decide)] at hw
  | encCode =>
    have hw := hsc (by decide)
    rwa [symField, hsym (by decide)] at hw
  | decByte =>
    have hw := eq_layoutB (w := w) (by rw [hop]; exact h)
    rw [hop] at hw
    exact hw.symm

/-- A word that decodes is of the row of its command. -/
theorem masked_of_decode {p : Port} {w : Word} {i : Instr} (h : decode p w = .ok i) :
    opField w = i.mnemonic.op ∧ w &&& formatMask i.mnemonic.format = opcodeBits i.mnemonic.op ∧ i = withOperands i.mnemonic w := by
  obtain ⟨r, hr, -, hholds, rfl⟩ := decode_eq_ok h
  have hmask := holds_iff.1 hholds
  rw [eq_rowOf hr] at hmask
  rw [mnemonic_withOperands]
  exact ⟨opField_of_holds hr hholds, hmask, rfl⟩

theorem encode_of_decode {p : Port} {w : Word} {i : Instr} (h : decode p w = .ok i) : encode i = w := by
  obtain ⟨hop, hmask, heq⟩ := masked_of_decode h
  rw [heq]
  exact encode_withOperands hop hmask

/-- Settles O3: a word of a row is laid out from its own fields, those its format leaves out being zero. -/
theorem encodeOfDecodeIsTheWord : Obligations.EncodeOfDecodeIsTheWord :=
  fun _ _ _ h => ⟨port_of_decode h, encode_of_decode h⟩

end Sys2Proof.Proofs
end

section
/-! SUPPORT. What makes a word illegal on a port, and the step on such a word (`30_encoding.md` R74, `60_exceptions.md` R232, R234). -/

namespace Sys2Proof.Proofs

open Sys2Proof Machine

/-- A word whose opcode is not one of the port's unit is illegal there. -/
theorem decode_error_of_opcode {p : Port} {w : Word} {ops : List (BitVec 4)} (hw : opField w ∈ ops)
    (hops : ∀ op ∈ ops, opcodePort op ≠ some p) : ∃ e, decode p w = .error e :=
  ⟨_, decode_of_opcodePort_ne (hops _ hw)⟩

section
variable {w : Word} {e : Illegal} {s : State} {rest : List HostEvent}

/-- An illegal word on `enc_cmd` puts ENC in FAULT and records the word, or is discarded in FAULT. -/
theorem step_of_illegal_enc (h : decode .enc w = .error e) (hhost : s.host = .cmd .enc w :: rest) :
    step s = .next (if s.enc.state = .fault then { s with host := rest } else
      { s with host := rest, enc := s.enc.raise .illegalCmd w }) := by
  rw [step_of_cons hhost, encEvent, encAccept_of_error h, EncUnit.unlessFault]
  split_ifs <;> rfl

/-- An illegal word on `dec_cmd` puts DEC in FAULT and records the word, or is discarded in FAULT. -/
theorem step_of_illegal_dec (h : decode .dec w = .error e) (hhost : s.host = .cmd .dec w :: rest) :
    step s = .next (if s.dec.state = .fault then { s with host := rest } else
      { s with host := rest, dec := s.dec.raise .illegalCmd w }) := by
  rw [step_of_cons hhost, decEvent, decAccept_of_error h, DecUnit.unlessFault]
  split_ifs <;> rfl

end

/-- Settles O5: the opcode of a command is one of its port's unit, a word of a row has the row's must-be-zero bits zero, and the step on an
illegal word is fault entry, or discards it. -/
theorem reservedEncodingsAreIllegal : Obligations.ReservedEncodingsAreIllegal := by
  refine ⟨fun p w hw => decode_error_of_opcode hw (by cases p <;> decide), fun p w i h => ?_,
    fun w hw => decode_error_of_opcode hw (by decide), fun w hw => decode_error_of_opcode hw (by decide),
    fun w e s rest => step_of_illegal_enc, fun w e s rest => step_of_illegal_dec⟩
  obtain ⟨-, hmask, -⟩ := masked_of_decode h
  obtain ⟨hhigh, hsym, hbit, hcode⟩ := reservedBits_eq_zero hmask
  refine ⟨hhigh, hsym, fun hf => ?_, hcode⟩
  have hget : (w.extractLsb' 7 1).getLsbD 0 = w.getLsbD 7 := by simp
  rw [← hget, hbit hf]
  rfl

end Sys2Proof.Proofs
end

section
/-! SUPPORT. The finish of an encode run: the sentinel and the padding after the codes, as bytes (`41_encoder.md` R126, `30_encoding.md` R80, R82). -/

namespace Sys2Proof.Proofs

open Sys2Proof Machine

/-- `ENC.FINISH` after at least one code: the sentinel follows the bits taken, padded to the byte boundary (R126 (a)). -/
theorem encEffect_finish_of_pack {e : EncUnit} (hs : e.state = .pack) (hok : e.PackerOk) :
    ∃ out, encEffect .encFinish e = { e with acc := 0#8, nbits := 0#4, out := out, state := .fin } ∧
      bytesBits out = e.stream ++ bitsMSB Config.sent ++ List.replicate ((8 - (e.nbits.toNat + 7) % 8) % 8) false := by
  have heffect : encEffect .encFinish e = { (e.packCode Config.sent).flush with state := .fin } := by
    rw [encEffect, EncUnit.unlessFault_of_not_fault (by simp [hs]), EncUnit.finish, if_neg (by simp [hs]), if_neg (by simp [hs])]
  obtain ⟨acc, nbits, more, hpack⟩ := EncUnit.packBits_frame e (bitsMSB Config.sent)
  obtain ⟨out, hflush, hbits⟩ := EncUnit.flush_spec (EncUnit.packBits_ok hok (bitsMSB Config.sent))
  rw [EncUnit.packBits_stream hok, EncUnit.packBits_nbits hok, length_bitsMSB] at hbits
  refine ⟨out, ?_, hbits⟩
  rw [heffect, EncUnit.packCode_eq, hflush, hpack]

theorem length_flatMap_bitsMSB (codes : List Code) : (codes.flatMap bitsMSB).length = 7 * codes.length := by
  simp [List.length_flatMap]; omega

/-- The padding fills the last byte (R80, R82). -/
theorem length_streamBits (codes : List Code) : (streamBits codes).length = 8 * ((7 * codes.length + 7 + 7) / 8) := by
  simp only [streamBits, List.length_append, length_flatMap_bitsMSB, length_bitsMSB, List.length_replicate, padLength]
  omega

/-- The bytes of a stream are determined by its bits. -/
theorem eq_bitstream {codes : List Code} {out : List Byte} (hne : codes ≠ []) (h : bytesBits out = streamBits codes) :
    out = bitstream codes := by
  rw [bitstream, if_neg hne, ← h, bitsToBytes_bytesBits]

/-- The commands of an encode run (`70_reset_and_hazards.md` R273). -/
theorem encodeRunOf_eq (cb : List Entry) (pushes : List Instr) :
    encodeRunOf cb pushes = (encRunCommands cb pushes ++ [Instr.encFinish]).map send := by
  rw [encodeRunOf, List.map_append, map_send_encRunCommands]
  rfl

/-- An encode run ends with `ENC.FINISH` on what the commands before it left of ENC, and leaves DEC. -/
theorem afterHost_encodeRunOf {cb : List Entry} {pushes : List Instr} {codes : List Code}
    (hc : pushes.map (pushedCode cb) = codes.map some) (s : State) :
    State.afterHost { s with host := encodeRunOf cb pushes } =
      .next ⟨encEffect .encFinish (encRun (encRunCommands cb pushes) s.enc), s.dec, []⟩ := by
  have hport : ∀ i ∈ encRunCommands cb pushes ++ [Instr.encFinish], i.port = .enc := by
    rw [List.forall_mem_append, List.forall_mem_singleton]
    exact ⟨port_of_encRunCommands hc, rfl⟩
  rw [encodeRunOf_eq, afterHost_send_enc hport, encRun_append]
  rfl

/-- Settles O40: the codes are emitted or pending before the finish, which appends the sentinel and the padding. -/
theorem encodeRunGivesTheBitstream : Obligations.EncodeRunGivesTheBitstream := by
  intro s cb pushes codes hl hcb hc hne
  obtain ⟨acc, nbits, out, hbefore, hok, hstream⟩ := encRun_beforeFinish s.enc hl hcb hc
  rw [hbefore, if_neg hne] at hok hstream
  obtain ⟨bytes, hfinish, hbits⟩ := encEffect_finish_of_pack rfl hok
  have hpending : nbits.toNat = 7 * codes.length % 8 := by
    have hcount := EncUnit.length_stream hok
    have hle : nbits.toNat ≤ 7 := hok.1
    rw [hstream, length_flatMap_bitsMSB] at hcount
    simp only at hcount
    omega
  have hbytes : bytesBits bytes = streamBits codes := by
    rw [hbits, hstream, streamBits, padLength, hpending, Nat.mod_add_mod]
  have hlength : bytes.length = (7 * codes.length + 7 + 7) / 8 := by
    have hlen := congrArg List.length hbytes
    rw [length_bytesBits, length_streamBits] at hlen
    omega
  refine ⟨_, afterHost_encodeRunOf hc s, ?_⟩
  rw [hbefore, if_neg hne, hfinish]
  exact ⟨rfl, rfl, rfl, hbytes, eq_bitstream hne hbytes, hlength, rfl⟩

end Sys2Proof.Proofs
end

section
/-! SUPPORT. Source commands and instructions: one is written as the other exactly when it is well formed (`30_encoding.md` R72, R86). -/

namespace Sys2Proof.Proofs

open Sys2Proof Machine

/-- The operands a command of a format is written with, from the fields of R72. -/
def formatOperands (sym : Sym) (code : Code) (byte : Byte) : Format → List Nat
  | .z => []
  | .sc => [sym.toNat, code.toNat]
  | .s => [sym.toNat]
  | .c => [code.toNat]
  | .b => [byte.toNat]

@[simp] theorem wellFormed_toSource (i : Instr) : i.toSource.wellFormed = true := by
  cases i <;> simp [Instr.toSource, SourceCommand.wellFormed, Mnemonic.format] <;> omega

/-- An instruction is read back from the command it is written as. -/
@[simp] theorem toInstr_toSource (i : Instr) : i.toSource.toInstr = some i := by
  rw [SourceCommand.toInstr, if_pos (wellFormed_toSource i)]
  cases i <;> simp [Instr.toSource]

/-- The operands of a well-formed command are values of the fields of its format. -/
theorem exists_formatOperands {c : SourceCommand} (h : c.wellFormed = true) :
    ∃ sym code byte, c.operands = formatOperands sym code byte c.mnemonic.format := by
  unfold SourceCommand.wellFormed at h
  split at h
  next hf hops => exact ⟨0, 0, 0, by rw [hf, hops]; rfl⟩
  next sym code hf hops =>
    obtain ⟨hsym, hcode⟩ : sym < 256 ∧ code < 128 := by simpa using h
    exact ⟨BitVec.ofNatLT sym hsym, BitVec.ofNatLT code hcode, 0, by rw [hf, hops]; rfl⟩
  next sym hf hops =>
    have hsym : sym < 256 := by simpa using h
    exact ⟨BitVec.ofNatLT sym hsym, 0, 0, by rw [hf, hops]; rfl⟩
  next code hf hops =>
    have hcode : code < 128 := by simpa using h
    exact ⟨0, BitVec.ofNatLT code hcode, 0, by rw [hf, hops]; rfl⟩
  next byte hf hops =>
    have hbyte : byte < 256 := by simpa using h
    exact ⟨0, 0, BitVec.ofNatLT byte hbyte, by rw [hf, hops]; rfl⟩
  next => cases h

/-- A well-formed command is one some instruction is written as. -/
theorem exists_toSource {c : SourceCommand} (h : c.wellFormed = true) : ∃ i : Instr, i.toSource = c := by
  obtain ⟨m, ops⟩ := c
  obtain ⟨sym, code, byte, hops⟩ := exists_formatOperands h
  obtain rfl : ops = formatOperands sym code byte m.format := hops
  cases m with
  | encReset => exact ⟨.encReset, rfl⟩
  | encLoad => exact ⟨.encLoad sym code, rfl⟩
  | encSym => exact ⟨.encSym sym, rfl⟩
  | encCode => exact ⟨.encCode code, rfl⟩
  | encFinish => exact ⟨.encFinish, rfl⟩
  | decReset => exact ⟨.decReset, rfl⟩
  | decLoad => exact ⟨.decLoad sym code, rfl⟩
  | decByte => exact ⟨.decByte byte, rfl⟩
  | decEnd => exact ⟨.decEnd, rfl⟩

theorem wellFormed_of_toInstr {c : SourceCommand} {i : Instr} (h : c.toInstr = some i) : c.wellFormed = true := by
  by_contra hwf
  rw [SourceCommand.toInstr, if_neg hwf] at h
  cases h

/-- The command an instruction came from is the one it is written as. -/
theorem toSource_of_toInstr {c : SourceCommand} {i : Instr} (h : c.toInstr = some i) : i.toSource = c := by
  obtain ⟨j, rfl⟩ := exists_toSource (wellFormed_of_toInstr h)
  rw [toInstr_toSource] at h
  rw [Option.some.inj h]

/-- Settles O49: the well-formed commands are those instructions are written as, and an instruction is read back from its own. -/
theorem assemblerTakesWellFormedCommands : Obligations.AssemblerTakesWellFormedCommands := by
  refine ⟨fun c => ⟨fun h => ?_, fun h => ?_⟩, fun i => ⟨wellFormed_toSource i, toInstr_toSource i⟩,
    fun c i => toSource_of_toInstr⟩
  · obtain ⟨i, hi⟩ := Option.isSome_iff_exists.1 h
    exact wellFormed_of_toInstr hi
  · obtain ⟨i, rfl⟩ := exists_toSource h
    rw [toInstr_toSource]
    rfl

end Sys2Proof.Proofs
end

section
/-! SUPPORT. Words of text: runs of characters that no step of the assembler cuts or drops (`30_encoding.md` R86). -/

namespace Sys2Proof.Proofs

open Sys2Proof Machine

/-- A character that is no blank, and starts no comment, separator or character literal. -/
def isPlain (c : Char) : Bool := !isBlank c && c != ';' && c != ',' && c != '\''

/-- A word of text: one plain character or more. -/
def IsWord (t : List Char) : Prop := t ≠ [] ∧ ∀ c ∈ t, isPlain c = true

theorem isPlain_iff {c : Char} : isPlain c = true ↔ isBlank c = false ∧ c ≠ ';' ∧ c ≠ ',' ∧ c ≠ '\'' := by
  simp [isPlain, and_assoc]

/-! ### Blanks -/

theorem not_isBlank_of_isWord {t : List Char} (h : IsWord t) : ∀ c ∈ t, isBlank c = false :=
  fun c hc => (isPlain_iff.1 (h.2 c hc)).1

/-- A text that begins with a word begins with no blank. -/
theorem dropWhile_isBlank_append {x : List Char} (hx : IsWord x) (y : List Char) : (x ++ y).dropWhile isBlank = x ++ y := by
  cases x with
  | nil => exact absurd rfl hx.1
  | cons c x => simp [not_isBlank_of_isWord hx c]

theorem isWord_reverse {t : List Char} (h : IsWord t) : IsWord t.reverse :=
  ⟨by simpa using h.1, fun c hc => h.2 c (List.mem_reverse.1 hc)⟩

/-- A text that begins and ends with a word. -/
def Trimmed (t : List Char) : Prop := ∃ x x' y' y, IsWord x ∧ IsWord y ∧ t = x ++ x' ∧ t = y' ++ y

theorem trimmed_of_isWord {t : List Char} (h : IsWord t) : Trimmed t := ⟨t, [], [], t, h, h, by simp, rfl⟩

theorem trimmed_append {s t : List Char} (hs : Trimmed s) (m : List Char) (ht : Trimmed t) : Trimmed (s ++ (m ++ t)) := by
  obtain ⟨x, x', -, -, hx, -, hsx, -⟩ := hs
  obtain ⟨-, -, y', y, -, hy, -, hty⟩ := ht
  exact ⟨x, x' ++ (m ++ t), s ++ (m ++ y'), y, hx, hy, by simp [hsx], by simp [hty]⟩

theorem ne_nil_of_trimmed {t : List Char} (h : Trimmed t) : t ≠ [] := by
  obtain ⟨x, x', -, -, hx, -, rfl, -⟩ := h
  simp [hx.1]

/-- A text that begins and ends with a word has no blanks at its ends. -/
theorem trimBlanks_of_trimmed {t : List Char} (h : Trimmed t) : trimBlanks t = t := by
  obtain ⟨x, x', y', y, hx, hy, hfront, hback⟩ := h
  have hdrop : t.dropWhile isBlank = t := by rw [hfront, dropWhile_isBlank_append hx]
  have hdropBack : t.reverse.dropWhile isBlank = t.reverse := by
    rw [hback, List.reverse_append, dropWhile_isBlank_append (isWord_reverse hy)]
  rw [trimBlanks, hdrop, hdropBack, List.reverse_reverse]

/-- A blank at the front is dropped. -/
theorem trimBlanks_space_cons {t : List Char} (h : Trimmed t) : trimBlanks (' ' :: t) = t :=
  trimBlanks_of_trimmed h

/-! ### Comments and separators -/

/-- A word after a blank begins no comment, separator or character literal. -/
theorem ne_of_mem_space_cons {t : List Char} (h : IsWord t) : ∀ c ∈ ' ' :: t, c ≠ ';' ∧ c ≠ ',' ∧ c ≠ '\'' :=
  List.forall_mem_cons.2 ⟨by decide, fun c hc => (isPlain_iff.1 (h.2 c hc)).2⟩

/-- A text with no quote and no semicolon has no comment. -/
theorem stripComment_eq_self {t : List Char} (h : ∀ c ∈ t, c ≠ ';' ∧ c ≠ '\'') : stripComment t = t := by
  induction t with
  | nil => rfl
  | cons c t ih =>
    rw [List.forall_mem_cons] at h
    obtain ⟨⟨hsemi, hquote⟩, ht⟩ := h
    rw [stripComment, if_neg hsemi, ih ht]
    rintro a rest rfl -
    exact hquote rfl

/-- Characters other than a quote or a comma belong to the part they stand in. -/
theorem splitCommas_append {t : List Char} (h : ∀ c ∈ t, c ≠ ',' ∧ c ≠ '\'') (part rest : List Char) :
    splitCommas part (t ++ rest) = splitCommas (part ++ t) rest := by
  induction t generalizing part with
  | nil => simp
  | cons c t ih =>
    rw [List.forall_mem_cons] at h
    obtain ⟨⟨hcomma, hquote⟩, ht⟩ := h
    rw [List.cons_append, splitCommas, if_neg hcomma, ih ht, List.append_assoc, List.singleton_append]
    rintro a rest rfl -
    exact hquote rfl

/-- Parts joined with commas are split into the parts again. -/
theorem splitCommas_intercalate {p : List Char} {ps : List (List Char)} (h : ∀ q ∈ p :: ps, ∀ c ∈ q, c ≠ ',' ∧ c ≠ '\'') :
    splitCommas [] ([','].intercalate (p :: ps)) = p :: ps := by
  induction ps generalizing p with
  | nil =>
    have hp := splitCommas_append (h p (by simp)) [] []
    simpa [splitCommas] using hp
  | cons q ps ih =>
    rw [List.forall_mem_cons] at h
    rw [List.intercalate_cons_cons, List.append_assoc, splitCommas_append h.1, List.nil_append, List.singleton_append,
      splitCommas, if_pos rfl, ih h.2]
    nofun

end Sys2Proof.Proofs
end

section
/-! SUPPORT. The printed spelling of an operand is a word, and reads as the operand's value (`30_encoding.md` R86, R88). -/

namespace Sys2Proof.Proofs

open Sys2Proof Machine

/-! ### Hexadecimal -/

theorem isPlain_hexChar (n : BitVec 4) : isPlain (hexChar n) = true := by revert n; decide

@[simp] theorem digitOf_hexChar (n : BitVec 4) : digitOf 16 (hexChar n) = some n.toNat := by revert n; decide

theorem isWord_hexText8 (v : BitVec 8) : IsWord (hexText8 v) := by
  refine ⟨nofun, ?_⟩
  simp only [hexText8, List.forall_mem_cons]
  exact ⟨by decide, by decide, isPlain_hexChar _, isPlain_hexChar _, nofun⟩

/-- A byte is its two hexadecimal digits. -/
theorem toNat_eq_hexDigits (v : BitVec 8) : v.toNat = 16 * (v.extractLsb' 4 4).toNat + (v.extractLsb' 0 4).toNat := by
  simp only [BitVec.extractLsb'_toNat, Nat.shiftRight_eq_div_pow]
  omega

theorem parseOperand_hexText8 (v : BitVec 8) : parseOperand (hexText8 v) = some v.toNat := by
  rw [hexText8, parseOperand, number, toNat_eq_hexDigits v]
  simp [numberFrom]

/-! ### Binary -/

/-- The binary digits of a bit sequence. -/
def bitChars (bits : List Bool) : List Char := bits.map fun b => if b then '1' else '0'

theorem codeChars_eq (c : Code) : codeChars c = '0' :: 'b' :: bitChars (bitsMSB c) := rfl

theorem isWord_codeChars (c : Code) : IsWord (codeChars c) := by
  refine ⟨nofun, ?_⟩
  simp only [codeChars_eq, bitChars, List.forall_mem_cons, List.forall_mem_map]
  exact ⟨by decide, by decide, fun b _ => by cases b <;> decide⟩

/-- Binary digits read as the value of the bits, most significant first. -/
theorem numberFrom_bitChars (bits : List Bool) (acc : Nat) :
    numberFrom 2 acc (bitChars bits) = some (bits.foldl (fun a b => 2 * a + b.toNat) acc) := by
  induction bits generalizing acc with
  | nil => rfl
  | cons b bits ih => cases b <;> exact ih _

theorem parseOperand_codeChars (c : Code) : parseOperand (codeChars c) = some c.toNat := by
  have hne : bitChars (bitsMSB c) ≠ [] := nofun
  rw [codeChars_eq, parseOperand, number, if_neg hne, numberFrom_bitChars, ← val_bitsMSB]
  rfl

end Sys2Proof.Proofs
end

section
/-! SUPPORT. The printed spelling of a command assembles to the command's word on its port (`30_encoding.md` R86, R88). -/

namespace Sys2Proof.Proofs

open Sys2Proof Machine

theorem isWord_mnemonicText (m : Mnemonic) : IsWord (mnemonicText m) := by
  have hall : mnemonicText m ≠ [] ∧ (mnemonicText m).all isPlain = true := by cases m <;> decide
  exact ⟨hall.1, List.all_eq_true.1 hall.2⟩

theorem parseMnemonic_mnemonicText (m : Mnemonic) : parseMnemonic (mnemonicText m) = some m := by
  cases m <;> decide

/-- Operands as they follow a mnemonic: a blank before each, commas between them. -/
def operandsText (ps : List (List Char)) : List Char := [','].intercalate (ps.map (' ' :: ·))

theorem operandsText_cons_cons (p q : List Char) (ps : List (List Char)) :
    operandsText (p :: q :: ps) = ' ' :: p ++ ',' :: operandsText (q :: ps) := by
  simp [operandsText]

/-- The printed spelling of each operand of an instruction, in the order of R73. -/
def operandTexts : Instr → List (List Char)
  | .encLoad sym code | .decLoad sym code => [hexText8 sym, codeChars code]
  | .encSym sym => [hexText8 sym]
  | .encCode code => [codeChars code]
  | .decByte byte => [hexText8 byte]
  | .encReset | .encFinish | .decReset | .decEnd => []

/-- The printed line is the mnemonic and the operands. -/
theorem printInstr_eq (i : Instr) : printInstr i = mnemonicText i.mnemonic ++ operandsText (operandTexts i) := by
  cases i <;> simp [printInstr, operandsText, operandTexts, Instr.mnemonic, List.intercalate]

theorem isWord_of_mem_operandTexts (i : Instr) : ∀ p ∈ operandTexts i, IsWord p := by
  cases i <;> simp [operandTexts, isWord_hexText8, isWord_codeChars]

/-- The operands printed read as those the command is written with. -/
theorem mapM_parseOperand_operandTexts (i : Instr) : (operandTexts i).mapM parseOperand = some i.toSource.operands := by
  cases i <;> simp [operandTexts, Instr.toSource, parseOperand_hexText8, parseOperand_codeChars]

section
variable {ps : List (List Char)}

/-- The text of operands that are words is a blank and a text with none at its ends. -/
theorem operandsText_cons (p : List Char) (h : ∀ q ∈ p :: ps, IsWord q) : ∃ t, operandsText (p :: ps) = ' ' :: t ∧ Trimmed t := by
  induction ps generalizing p with
  | nil => exact ⟨p, by simp [operandsText], trimmed_of_isWord (h p (by simp))⟩
  | cons q ps ih =>
    rw [List.forall_mem_cons] at h
    obtain ⟨t, heq, ht⟩ := ih q h.2
    refine ⟨p ++ ([',', ' '] ++ t), ?_, trimmed_append (trimmed_of_isWord h.1) _ ht⟩
    rw [operandsText_cons_cons, heq]
    rfl

/-- The text of operands that are words is nothing, or a blank and a text with none at its ends. -/
theorem operandsText_cases (h : ∀ p ∈ ps, IsWord p) :
    operandsText ps = [] ∨ ∃ t, operandsText ps = ' ' :: t ∧ Trimmed t := by
  cases ps with
  | nil => exact .inl rfl
  | cons p ps => exact .inr (operandsText_cons p h)

/-- The text of operands that are words has no comment and no character literal. -/
theorem operandsText_noComment (h : ∀ p ∈ ps, IsWord p) : ∀ c ∈ operandsText ps, c ≠ ';' ∧ c ≠ '\'' := by
  have hword {p : List Char} (hp : IsWord p) : ∀ c ∈ ' ' :: p, c ≠ ';' ∧ c ≠ '\'' := fun c hc =>
    have ⟨hsemi, _, hquote⟩ := ne_of_mem_space_cons hp c hc
    ⟨hsemi, hquote⟩
  induction ps with
  | nil => nofun
  | cons p ps ih =>
    rw [List.forall_mem_cons] at h
    cases ps with
    | nil => simpa [operandsText] using hword h.1
    | cons q ps =>
      rw [operandsText_cons_cons, List.forall_mem_append]
      exact ⟨hword h.1, List.forall_mem_cons.2 ⟨by decide, ih h.2⟩⟩

/-- The text of operands that are words is read operand by operand. -/
theorem parseOperands_operandsText (h : ∀ p ∈ ps, IsWord p) : parseOperands (operandsText ps) = ps.mapM parseOperand := by
  cases ps with
  | nil => rfl
  | cons p ps =>
    obtain ⟨t, heq, ht⟩ := operandsText_cons p h
    have hne : trimBlanks (operandsText (p :: ps)) ≠ [] := by
      rw [heq, trimBlanks_space_cons ht]
      exact ne_nil_of_trimmed ht
    have hsplit : splitCommas [] (operandsText (p :: ps)) = (p :: ps).map (' ' :: ·) := by
      refine splitCommas_intercalate ?_
      rw [← List.map_cons, List.forall_mem_map]
      exact fun q hq c hc => (ne_of_mem_space_cons (h q hq) c hc).2
    have htrim : ((p :: ps).map (' ' :: ·)).map trimBlanks = p :: ps := by
      rw [List.map_map]
      exact (List.map_congr_left fun q hq => trimBlanks_space_cons (trimmed_of_isWord (h q hq))).trans (List.map_id _)
    rw [parseOperands, if_neg hne, hsplit]
    conv_rhs => rw [← htrim, List.mapM_map]
    rfl

/-- A mnemonic followed by operands that are words has no blanks at its ends. -/
theorem trimmed_mnemonicText_append (m : Mnemonic) (h : ∀ p ∈ ps, IsWord p) : Trimmed (mnemonicText m ++ operandsText ps) := by
  have hm := trimmed_of_isWord (isWord_mnemonicText m)
  obtain heq | ⟨t, heq, ht⟩ := operandsText_cases h
  · rwa [heq, List.append_nil]
  · rw [heq]
    exact trimmed_append hm [' '] ht

/-- A mnemonic followed by operands that are words is the command of that mnemonic with the operands read. -/
theorem parseCommand_of_words (m : Mnemonic) (h : ∀ p ∈ ps, IsWord p) :
    parseCommand (mnemonicText m ++ operandsText ps) = (ps.mapM parseOperand).map fun ops => ⟨m, ops⟩ := by
  have hplain : ∀ c ∈ mnemonicText m, (!isBlank c) = true := fun c hc => by simp [not_isBlank_of_isWord (isWord_mnemonicText m) c hc]
  obtain ⟨htake, hdrop⟩ : (operandsText ps).takeWhile (fun c => !isBlank c) = [] ∧
      (operandsText ps).dropWhile (fun c => !isBlank c) = operandsText ps := by
    obtain heq | ⟨t, heq, -⟩ := operandsText_cases h <;> rw [heq] <;> exact ⟨rfl, rfl⟩
  rw [parseCommand, trimBlanks_of_trimmed (trimmed_mnemonicText_append m h), List.takeWhile_append_of_pos hplain,
    List.dropWhile_append_of_pos hplain, htake, hdrop, List.append_nil, parseMnemonic_mnemonicText, parseOperands_operandsText h]
  rfl

end

/-- The printed line is the command of the instruction. -/
theorem assembleCommand_printInstr (i : Instr) : assembleCommand (printInstr i) = some i := by
  have hsource : (⟨i.mnemonic, i.toSource.operands⟩ : SourceCommand) = i.toSource := by cases i <;> rfl
  rw [assembleCommand, printInstr_eq, parseCommand_of_words _ (isWord_of_mem_operandTexts i), mapM_parseOperand_operandTexts]
  simp [hsource]

/-- A printed line has no comment and no blanks at its ends. -/
theorem trimBlanks_stripComment_printInstr (i : Instr) : trimBlanks (stripComment (printInstr i)) = printInstr i := by
  have hchars : ∀ c ∈ printInstr i, c ≠ ';' ∧ c ≠ '\'' := by
    rw [printInstr_eq, List.forall_mem_append]
    refine ⟨fun c hc => ?_, operandsText_noComment (isWord_of_mem_operandTexts i)⟩
    obtain ⟨-, hsemi, -, hquote⟩ := isPlain_iff.1 ((isWord_mnemonicText _).2 c hc)
    exact ⟨hsemi, hquote⟩
  rw [stripComment_eq_self hchars, printInstr_eq]
  exact trimBlanks_of_trimmed (trimmed_mnemonicText_append _ (isWord_of_mem_operandTexts i))

/-- Assembling the printed spelling of an instruction gives its word on its port. -/
theorem assembleLine_printInstr (i : Instr) : assembleLine (printInstr i) = some (some (i.port, encode i)) := by
  have hunmarked : assembleLine (printInstr i) = (assembleCommand (printInstr i)).map fun i => some (i.port, encode i) := by
    rw [assembleLine, trimBlanks_stripComment_printInstr]
    cases i <;> rfl
  rw [hunmarked, assembleCommand_printInstr]
  rfl

theorem disassemble_of_decode {p : Port} {w : Word} {i : Instr} (h : decode p w = .ok i) : disassemble p w = printInstr i := by
  rw [disassemble, h]

theorem assembleLine_disassemble {p : Port} {w : Word} {i : Instr} (h : decode p w = .ok i) :
    assembleLine (disassemble p w) = some (some (p, w)) := by
  rw [disassemble_of_decode h, assembleLine_printInstr, port_of_decode h, encode_of_decode h]

/-- Settles O48: a word that decodes prints as its command, whose spelling assembles to the command's word on its port. -/
theorem assemblingThePrintedCommandGivesTheWord : Obligations.AssemblingThePrintedCommandGivesTheWord :=
  fun _ _ _ h => assembleLine_disassemble h

/-- Bit 31 of a word of a row names the port of the row's unit (`30_encoding.md` R73). -/
theorem portOf_of_opField {m : Mnemonic} {w : Word} (h : opField w = m.op) : portOf w = m.port := by
  have hbit : w.getLsbD 31 = m.op.getLsbD 3 := by rw [← h]; simp [opField]
  rw [portOf, hbit]
  cases m <;> rfl

/-- Settles O50: a word of a row stands on the port its bit 31 names, where it decodes; a word of no row decodes on no port. -/
theorem everyOpcodeMapWordPrintsAndAssemblesBack : Obligations.EveryOpcodeMapWordPrintsAndAssemblesBack := by
  refine fun w => ⟨fun r hr h => ?_, fun hnone => ?_⟩
  · have hport := portOf_of_opField (opField_of_holds hr (holds_iff.2 h))
    refine ⟨hport, ?_⟩
    rw [disassembleWord, hport]
    exact assembleLine_disassemble (decode_of_holds hr (holds_iff.2 h))
  · cases hd : decode (portOf w) w with
    | ok i =>
      obtain ⟨r, hr, -, hholds, -⟩ := decode_eq_ok hd
      exact absurd (holds_iff.1 hholds) (hnone r hr)
    | error e => rw [disassembleWord, disassemble, hd]

end Sys2Proof.Proofs
end

section
/-! SUPPORT. The worked encodings of the spec (`30_encoding.md` R85). -/

namespace Sys2Proof.Proofs

open Sys2Proof Machine

/-- Settles O1: every spelling assembles to the word of its command, which decodes to it; the rest are fixed words. -/
theorem workedEncodingsDecode : Obligations.WorkedEncodingsDecode := by
  refine ⟨?_, fun p => by cases p <;> rfl, rfl, rfl, rfl, by decide, by decide⟩
  simp only [List.forall_mem_cons]
  refine ⟨?_, ?_, ?_, ?_, ?_, ?_, ?_, ?_, ?_, ?_, ?_, ?_, ?_, ?_, nofun⟩ <;> exact ⟨by decide, rfl⟩

end Sys2Proof.Proofs
end

section
/-! SUPPORT. A command whose effect on its own unit is known leaves the rest of the block alone (`10_state.md` R20). -/

namespace Sys2Proof.Proofs

open Sys2Proof Machine

theorem exec_of_encEffect {i : Instr} {s : State} {e : EncUnit} (hi : i.port = .enc) (h : encEffect i s.enc = e) :
    exec i s = .next { s with enc := e } := by
  rw [exec_eq, h, decEffect_of_enc hi]
  rfl

theorem exec_of_decEffect {i : Instr} {s : State} {d : DecUnit} (hi : i.port = .dec) (h : decEffect i s.dec = d) :
    exec i s = .next { s with dec := d } := by
  rw [exec_eq, h, encEffect_of_dec hi]
  rfl

end Sys2Proof.Proofs
end

section
/-! SUPPORT. The LOAD of each unit: the append, and the three faults in the order of `40_codebook.md` R101 and R102. -/

namespace Sys2Proof.Proofs

open Sys2Proof Machine

section
variable {e : EncUnit} {sym : Sym} {code : Code}

theorem encEffect_load_of_late (hs : e.state = .pack ∨ e.state = .fin) :
    encEffect (.encLoad sym code) e = e.raise .illegalState (encode (.encLoad sym code)) := by
  have hfault : e.state ≠ .fault := by rcases hs with hs | hs <;> simp [hs]
  have hidle : e.state ≠ .idle := by rcases hs with hs | hs <;> simp [hs]
  rw [encEffect, EncUnit.unlessFault_of_not_fault hfault, EncUnit.load, if_pos hidle]

theorem encEffect_load_of_sentinel (hs : e.state = .idle) (hc : code = Config.sent) :
    encEffect (.encLoad sym code) e = e.raise .codeSentinel (encode (.encLoad sym code)) := by
  rw [encEffect, EncUnit.unlessFault_of_not_fault (by simp [hs]), EncUnit.load, if_neg (not_not.2 hs), if_pos hc]

theorem encEffect_load_of_full (hs : e.state = .idle) (hc : code ≠ Config.sent) (hl : e.cb.length = Config.ncb) :
    encEffect (.encLoad sym code) e = e.raise .cbFull (encode (.encLoad sym code)) := by
  have hfull : cbIsFull e.cb = true := decide_eq_true hl
  rw [encEffect, EncUnit.unlessFault_of_not_fault (by simp [hs]), EncUnit.load, if_neg (not_not.2 hs), if_neg hc, if_pos hfull]

end

section
variable {d : DecUnit} {sym : Sym} {code : Code}

theorem decEffect_load_of_idle (hs : d.state = .idle) (hc : code ≠ Config.sent) (hl : d.cb.length < Config.ncb) :
    decEffect (.decLoad sym code) d = { d with cb := d.cb ++ [⟨sym, code⟩] } := by
  have hfull : cbIsFull d.cb ≠ true := by simpa [cbIsFull] using hl.ne
  rw [decEffect, DecUnit.unlessFault_of_not_fault (by simp [hs]), DecUnit.load, if_neg (not_not.2 hs), if_neg hc, if_neg hfull]

theorem decEffect_load_of_late (hs : d.state = .run ∨ d.state = .done ∨ d.state = .ended) :
    decEffect (.decLoad sym code) d = d.raise .illegalState (encode (.decLoad sym code)) := by
  have hfault : d.state ≠ .fault := by rcases hs with hs | hs | hs <;> simp [hs]
  have hidle : d.state ≠ .idle := by rcases hs with hs | hs | hs <;> simp [hs]
  rw [decEffect, DecUnit.unlessFault_of_not_fault hfault, DecUnit.load, if_pos hidle]

theorem decEffect_load_of_sentinel (hs : d.state = .idle) (hc : code = Config.sent) :
    decEffect (.decLoad sym code) d = d.raise .codeSentinel (encode (.decLoad sym code)) := by
  rw [decEffect, DecUnit.unlessFault_of_not_fault (by simp [hs]), DecUnit.load, if_neg (not_not.2 hs), if_pos hc]

theorem decEffect_load_of_full (hs : d.state = .idle) (hc : code ≠ Config.sent) (hl : d.cb.length = Config.ncb) :
    decEffect (.decLoad sym code) d = d.raise .cbFull (encode (.decLoad sym code)) := by
  have hfull : cbIsFull d.cb = true := decide_eq_true hl
  rw [decEffect, DecUnit.unlessFault_of_not_fault (by simp [hs]), DecUnit.load, if_neg (not_not.2 hs), if_neg hc, if_pos hfull]

end

/-- Settles O11: in each clause the LOAD has one effect on ENC, and it has none elsewhere. -/
theorem encLoadAppendsOrFaults : Obligations.EncLoadAppendsOrFaults := by
  refine fun sym code s => ⟨fun hs hc hl => ?_, fun hs => ?_, fun hs hc => ?_, fun hs hc hl => ?_⟩
  · exact exec_of_encEffect rfl (encEffect_load_of_idle (entry := ⟨sym, code⟩) hs hc hl)
  · exact exec_of_encEffect rfl (encEffect_load_of_late hs)
  · exact exec_of_encEffect rfl (encEffect_load_of_sentinel hs hc)
  · exact exec_of_encEffect rfl (encEffect_load_of_full hs hc hl)

/-- Settles O17: in each clause the LOAD has one effect on DEC, and it has none elsewhere. -/
theorem decLoadAppendsOrFaults : Obligations.DecLoadAppendsOrFaults := by
  refine fun sym code s => ⟨fun hs hc hl => ?_, fun hs => ?_, fun hs hc => ?_, fun hs hc hl => ?_⟩
  · exact exec_of_decEffect rfl (decEffect_load_of_idle hs hc hl)
  · exact exec_of_decEffect rfl (decEffect_load_of_late hs)
  · exact exec_of_decEffect rfl (decEffect_load_of_sentinel hs hc)
  · exact exec_of_decEffect rfl (decEffect_load_of_full hs hc hl)

end Sys2Proof.Proofs
end

section
/-! SUPPORT. Both lookups are one search for the first entry with the wanted key (`40_codebook.md` R103 to R105). -/

namespace Sys2Proof.Proofs

open Sys2Proof Machine

/-! ### The search: `key` is the field compared, `val` the field returned -/

section
variable {α β : Type} [DecidableEq α] (key : Entry → α) (val : Entry → β) (k : α)

/-- The parallel comparators with a lowest-index-first priority encoder: the value of the first entry with the key. -/
def firstMatch (cb : List Entry) : Option β := (cb.find? (key · = k)).map val

theorem firstMatch_cons (entry : Entry) (rest : List Entry) :
    firstMatch key val k (entry :: rest) = if key entry = k then some (val entry) else firstMatch key val k rest := by
  by_cases h : key entry = k <;> simp [firstMatch, h]

theorem firstMatch_eq_some_iff (cb : List Entry) (v : β) :
    firstMatch key val k cb = some v ↔
      ∃ (n : Nat) (h : n < cb.length), key cb[n] = k ∧ val cb[n] = v ∧ ∀ (m : Nat) (hm : m < n), key cb[m] ≠ k := by
  simp only [firstMatch, Option.map_eq_some_iff, List.find?_eq_some_iff_getElem, decide_eq_true_eq, Bool.not_eq_true',
    decide_eq_false_iff_not]
  constructor
  · rintro ⟨entry, ⟨hkey, n, hn, rfl, hfirst⟩, hval⟩
    exact ⟨n, hn, hkey, hval, hfirst⟩
  · rintro ⟨n, hn, hkey, hval, hfirst⟩
    exact ⟨cb[n], ⟨hkey, n, hn, rfl, hfirst⟩, hval⟩

theorem firstMatch_eq_none_iff (cb : List Entry) : firstMatch key val k cb = none ↔ ∀ entry ∈ cb, key entry ≠ k := by
  simp [firstMatch]

end

/-! ### The loops compute it -/

theorem lookupSym_eq_firstMatch (cb : List Entry) (s : Sym) : lookupSym cb s = firstMatch Entry.sym Entry.code s cb := by
  induction cb with
  | nil => rfl
  | cons entry rest ih => rw [lookupSym, ih, firstMatch_cons]

theorem lookupCode_eq_firstMatch (cb : List Entry) (w : Code) : lookupCode cb w = firstMatch Entry.code Entry.sym w cb := by
  induction cb with
  | nil => rfl
  | cons entry rest ih => rw [lookupCode, ih, firstMatch_cons]

/-- Settles O37: each loop computes the search by its key, and the search answers with the lowest matching index. -/
theorem lookupsTakeTheLowestIndex : Obligations.LookupsTakeTheLowestIndex := by
  refine fun cb => ⟨fun s c => ?_, fun s => ?_, fun w s => ?_, fun w => ?_⟩
  · rw [lookupSym_eq_firstMatch]; exact firstMatch_eq_some_iff Entry.sym Entry.code s cb c
  · rw [lookupSym_eq_firstMatch]; exact firstMatch_eq_none_iff Entry.sym Entry.code s cb
  · rw [lookupCode_eq_firstMatch]; exact firstMatch_eq_some_iff Entry.code Entry.sym w cb s
  · rw [lookupCode_eq_firstMatch]; exact firstMatch_eq_none_iff Entry.code Entry.sym w cb

end Sys2Proof.Proofs
end

section
/-! SUPPORT. The streaming commands and the finish of ENC, state by state: the push, the faults in the order of `41_encoder.md` R123, R124
and R126, and the word discarded in FAULT. -/

namespace Sys2Proof.Proofs

open Sys2Proof Machine

section
variable {e : EncUnit} {i : Instr}

theorem encState_ne_of_open (hs : e.state = .idle ∨ e.state = .pack) : e.state ≠ .fault ∧ e.state ≠ .fin := by
  rcases hs with hs | hs <;> simp [hs]

/-- In FIN every command of ENC but its reset is out of place (R120). -/
theorem encEffect_of_fin (hs : e.state = .fin) (hi : i.port = .enc) (hreset : i ≠ .encReset) :
    encEffect i e = e.raise .illegalState (encode i) := by
  have hfault : e.state ≠ .fault := by simp [hs]
  cases i with
  | encReset => exact absurd rfl hreset
  | encLoad sym code => exact encEffect_load_of_late (.inr hs)
  | encSym sym => rw [encEffect, EncUnit.unlessFault_of_not_fault hfault, EncUnit.symbol, if_pos hs]
  | encCode code => rw [encEffect, EncUnit.unlessFault_of_not_fault hfault, EncUnit.code, if_pos hs]
  | encFinish => rw [encEffect, EncUnit.unlessFault_of_not_fault hfault, EncUnit.finish, if_pos hs]
  | decReset | decLoad | decByte | decEnd => cases hi

/-- In FAULT every command but ENC's reset leaves ENC as it is (`60_exceptions.md` R232). -/
theorem encEffect_of_fault (hs : e.state = .fault) (hreset : i ≠ .encReset) : encEffect i e = e := by
  cases i with
  | encReset => exact absurd rfl hreset
  | encLoad | encSym | encCode | encFinish => exact EncUnit.unlessFault_of_fault hs
  | decReset | decLoad | decByte | decEnd => rfl

theorem encEffect_code_of_sentinel (hs : e.state = .idle ∨ e.state = .pack) :
    encEffect (.encCode Config.sent) e = e.raise .codeSentinel (encode (.encCode Config.sent)) := by
  obtain ⟨hfault, hfin⟩ := encState_ne_of_open hs
  rw [encEffect, EncUnit.unlessFault_of_not_fault hfault, EncUnit.code, if_neg hfin, if_pos rfl]

theorem encEffect_symbol_of_unmapped {sym : Sym} (hs : e.state = .idle ∨ e.state = .pack) (hl : lookupSym e.cb sym = none) :
    encEffect (.encSym sym) e = e.raise .symUnmapped (encode (.encSym sym)) := by
  obtain ⟨hfault, hfin⟩ := encState_ne_of_open hs
  rw [encEffect, EncUnit.unlessFault_of_not_fault hfault, EncUnit.symbol, if_neg hfin, hl]

/-- `ENC.FINISH` with no code pushed ends an empty run (R126 (b)). -/
theorem encEffect_finish_of_idle (hs : e.state = .idle) : encEffect .encFinish e = { e with empty := true, state := .fin } := by
  rw [encEffect, EncUnit.unlessFault_of_not_fault (by simp [hs]), EncUnit.finish, if_neg (by simp [hs]), if_pos hs]

/-- How many bytes the sentinel and the padding complete: one when they fit behind the pending bits (R126). -/
theorem finish_length {out : List Byte} (hok : e.PackerOk)
    (hbits : bytesBits out = e.stream ++ bitsMSB Config.sent ++ List.replicate ((8 - (e.nbits.toNat + 7) % 8) % 8) false) :
    out.length = e.out.length + if e.nbits.toNat ≤ 1 then 1 else 2 := by
  have hle := hok.1
  have hlen := congrArg List.length hbits
  simp only [length_bytesBits, List.length_append, EncUnit.length_stream hok, length_bitsMSB, List.length_replicate] at hlen
  split_ifs <;> omega

end

section
variable {s : State} {i : Instr} {c : Code}

theorem exec_of_push (hs : s.enc.state = .idle ∨ s.enc.state = .pack) (hc : pushedCode s.enc.cb i = some c) :
    exec i s = .next { s with enc := { s.enc.packCode c with state := .pack } } :=
  exec_of_encEffect (port_of_pushedCode hc) (encEffect_of_push hs hc)

/-- A legal push: the code's bits follow those taken, and only the packer, the trace and the state change (R122). -/
theorem exec_push_spec (hs : s.enc.state = .idle ∨ s.enc.state = .pack) (hok : s.enc.PackerOk)
    (hc : pushedCode s.enc.cb i = some c) :
    ∃ acc nbits out,
      exec i s = .next { s with enc := { s.enc with acc := acc, nbits := nbits, out := out, state := .pack } } ∧
      bytesBits out ++ lastN (bitsMSB acc) nbits.toNat = s.enc.stream ++ bitsMSB c ∧
      nbits.toNat = (s.enc.nbits.toNat + 7) % 8 ∧ acc.toNat < 2 ^ nbits.toNat ∧
      (s.enc.nbits = 0#4 → out = s.enc.out) ∧ (s.enc.nbits ≠ 0#4 → ∃ b, out = s.enc.out ++ [b]) := by
  obtain ⟨acc, nbits, out, heq, hbits, hn, -, hacc, hout⟩ := EncUnit.packCode_spec hok c
  exact ⟨acc, nbits, out, by rw [exec_of_push hs hc, heq], hbits, hn, hacc, hout⟩

theorem exec_of_fin (hs : s.enc.state = .fin) (hi : i.port = .enc) (hreset : i ≠ .encReset) :
    exec i s = .next { s with enc := s.enc.raise .illegalState (encode i) } :=
  exec_of_encEffect hi (encEffect_of_fin hs hi hreset)

end

/-- Settles O12: a code other than the sentinel is a legal push, and the sentinel is refused before any bit is packed. -/
theorem encCodePacksItsBits : Obligations.EncCodePacksItsBits := by
  refine fun code s => ⟨fun hs hc hn hacc => ?_, fun hs => ?_, fun hs hc => ?_⟩
  · exact exec_push_spec hs ⟨hn, hacc⟩ (if_neg hc)
  · exact exec_of_fin hs rfl nofun
  · subst hc
    exact exec_of_encEffect rfl (encEffect_code_of_sentinel hs)

/-- Settles O13: `ENC.SYM` of a mapped symbol and `ENC.CODE` of its code push the same code. -/
theorem encSymPacksTheMappedCode : Obligations.EncSymPacksTheMappedCode := by
  refine fun sym s => ⟨fun code hs hl hc hn hacc => ?_, fun hs hl => ?_, fun hs => ?_⟩
  · have hcode : pushedCode s.enc.cb (.encCode code) = some code := if_neg hc
    obtain ⟨acc, nbits, out, hexec, hbits, hnbits, -⟩ := exec_push_spec (i := .encSym sym) hs ⟨hn, hacc⟩ hl
    exact ⟨acc, nbits, out, hexec, (exec_of_push (i := .encSym sym) hs hl).trans (exec_of_push hs hcode).symm, hbits, hnbits⟩
  · exact exec_of_encEffect rfl (encEffect_symbol_of_unmapped hs hl)
  · exact exec_of_fin hs rfl nofun

/-- Settles O14: in PACK the finish pushes the sentinel and flushes, and the number of bytes follows from the number of bits. -/
theorem encFinishEndsTheStream : Obligations.EncFinishEndsTheStream := by
  refine fun s => ⟨fun hs hn hacc => ?_, fun hs => ?_, fun hs => ?_⟩
  · have hok : s.enc.PackerOk := ⟨hn, hacc⟩
    obtain ⟨out, heffect, hbits⟩ := encEffect_finish_of_pack hs hok
    exact ⟨out, exec_of_encEffect rfl heffect, hbits, finish_length hok hbits⟩
  · exact exec_of_encEffect rfl (encEffect_finish_of_idle hs)
  · exact exec_of_fin hs rfl nofun

end Sys2Proof.Proofs
end

section
/-! SUPPORT. The reset of ENC, and the words of its opcode that are no reset (`41_encoder.md` R127, `30_encoding.md` R74 (b)). -/

namespace Sys2Proof.Proofs

open Sys2Proof Machine

/-- A command without operands has one word: its opcode with any other bit set is illegal (R71, R74 (b)). -/
theorem decode_error_of_formatZ {p : Port} {m : Mnemonic} {w : Word} (hz : m.format = .z) (hop : opField w = m.op)
    (hw : w ≠ opcodeBits m.op) : ∃ e, decode p w = .error e := by
  cases hd : decode p w with
  | error e => exact ⟨e, rfl⟩
  | ok i =>
    obtain ⟨hopi, hmask, -⟩ := masked_of_decode hd
    have hm : i.mnemonic = m := op_injective (hopi.symm.trans hop)
    have hall : w &&& formatMask .z = w := BitVec.and_allOnes
    rw [hm, hz, hall] at hmask
    exact absurd hmask hw

/-- Settles O15: the reset's effect is the reset state whatever ENC held, and its word is the only one of its opcode that decodes. -/
theorem encResetStartsANewRun : Obligations.EncResetStartsANewRun :=
  ⟨fun _ => exec_of_encEffect rfl rfl, decode_encode .encReset,
    fun _ hop hw => decode_error_of_formatZ (m := .encReset) rfl hop hw⟩

end Sys2Proof.Proofs
end

section
/-! SUPPORT. The next state and the cause of each cell of ENC's transition table (`41_encoder.md` R120). -/

namespace Sys2Proof.Proofs

open Sys2Proof Machine

section
variable {e : EncUnit} {w : Word}

/-- A LOAD in IDLE stays in IDLE or is refused for its code or for want of room (`40_codebook.md` R101). -/
theorem encEffect_load_next (sym : Sym) (code : Code) (hs : e.state = .idle) :
    ((encEffect (.encLoad sym code) e).state = .idle ∧ (encEffect (.encLoad sym code) e).fcause = e.fcause) ∨
    ((encEffect (.encLoad sym code) e).state = .fault ∧
      ((encEffect (.encLoad sym code) e).fcause = .codeSentinel ∨ (encEffect (.encLoad sym code) e).fcause = .cbFull)) := by
  rw [encEffect, EncUnit.unlessFault_of_not_fault (by simp [hs]), EncUnit.load, if_neg (not_not.2 hs)]
  split_ifs
  · exact .inr ⟨rfl, .inl rfl⟩
  · exact .inr ⟨rfl, .inr rfl⟩
  · exact .inl ⟨hs, rfl⟩

/-- A legal push leads to PACK and records no fault. -/
theorem encEffect_push_next {i : Instr} {c : Code} (hs : e.state = .idle ∨ e.state = .pack) (hc : pushedCode e.cb i = some c) :
    (encEffect i e).state = .pack ∧ (encEffect i e).fcause = e.fcause := by
  rw [encEffect_of_push hs hc]
  exact ⟨rfl, by simp⟩

theorem encEffect_code_next (code : Code) (hs : e.state = .idle ∨ e.state = .pack) :
    ((encEffect (.encCode code) e).state = .pack ∧ (encEffect (.encCode code) e).fcause = e.fcause) ∨
    ((encEffect (.encCode code) e).state = .fault ∧ (encEffect (.encCode code) e).fcause = .codeSentinel) := by
  by_cases hc : code = Config.sent
  · rw [hc, encEffect_code_of_sentinel hs]; exact .inr ⟨rfl, rfl⟩
  · exact .inl (encEffect_push_next hs (if_neg hc))

theorem encEffect_symbol_next (sym : Sym) (hs : e.state = .idle ∨ e.state = .pack) :
    ((encEffect (.encSym sym) e).state = .pack ∧ (encEffect (.encSym sym) e).fcause = e.fcause) ∨
    ((encEffect (.encSym sym) e).state = .fault ∧ (encEffect (.encSym sym) e).fcause = .symUnmapped) := by
  cases hl : lookupSym e.cb sym with
  | none => rw [encEffect_symbol_of_unmapped hs hl]; exact .inr ⟨rfl, rfl⟩
  | some c => exact .inl (encEffect_push_next hs hl)

theorem encEffect_finish_next (hs : e.state = .pack) :
    (encEffect .encFinish e).state = .fin ∧ (encEffect .encFinish e).empty = e.empty := by
  rw [encEffect, EncUnit.unlessFault_of_not_fault (by simp [hs]), EncUnit.finish, if_neg (by simp [hs]), if_neg (by simp [hs])]
  exact ⟨rfl, by simp⟩

/-- In FAULT every word but the reset's is discarded (`60_exceptions.md` R232). -/
theorem encAccept_of_fault (hs : e.state = .fault) (hreset : decode .enc w ≠ .ok .encReset) : encAccept w e = e := by
  cases hd : decode .enc w with
  | error r => rw [encAccept_of_error hd, EncUnit.unlessFault_of_fault hs]
  | ok i =>
    rw [encAccept_of_ok hd]
    exact encEffect_of_fault hs fun hi => hreset (by rw [hd, hi])

end

/-- The commands that FIN refuses by R120 are commands of ENC other than its reset. -/
theorem port_of_streaming {i : Instr} (hi : (∃ code, i = .encCode code) ∨ (∃ sym, i = .encSym sym) ∨ i = .encFinish) :
    i.port = .enc ∧ i ≠ .encReset := by
  obtain ⟨code, rfl⟩ | ⟨sym, rfl⟩ | rfl := hi <;> exact ⟨rfl, nofun⟩

/-- Settles O16: the step is the effect of the accepted word on ENC, and each clause is one command in one state. -/
theorem encTransitionTable : Obligations.EncTransitionTable := by
  intro s t w rest hhost hstep
  have hnext : t.enc = encAccept w s.enc := by
    rw [step_of_cons hhost] at hstep
    cases hstep
    rfl
  have hok {i : Instr} (hd : decode .enc w = .ok i) : encAccept w s.enc = encEffect i s.enc := by rw [encAccept_of_ok hd]
  rw [hnext]
  refine ⟨fun hd => ?reset, fun r hd hs => ?illegal, fun sym code hd hs => ?load, fun sym code hd hs => ?lateLoad,
    fun i hi hd hs => ?push, fun i hi hd hs => ?fin, fun hd hs => ?finishIdle, fun hd hs => ?finishPack, fun hd hs => ?fault⟩
  case reset => rw [hok hd]; rfl
  case illegal => rw [encAccept_of_error hd, EncUnit.unlessFault_of_not_fault hs]; exact ⟨rfl, rfl⟩
  case load => rw [hok hd]; exact encEffect_load_next sym code hs
  case lateLoad => rw [hok hd, encEffect_load_of_late hs]; exact ⟨rfl, rfl⟩
  case push =>
    rw [hok hd]
    obtain ⟨code, rfl⟩ | ⟨sym, rfl⟩ := hi
    · exact (encEffect_code_next code hs).imp_right fun ⟨hstate, hcause⟩ => ⟨hstate, .inl ⟨hcause, code, rfl⟩⟩
    · exact (encEffect_symbol_next sym hs).imp_right fun ⟨hstate, hcause⟩ => ⟨hstate, .inr ⟨hcause, sym, rfl⟩⟩
  case fin =>
    obtain ⟨hport, hreset⟩ := port_of_streaming hi
    rw [hok hd, encEffect_of_fin hs hport hreset]
    exact ⟨rfl, rfl⟩
  case finishIdle => rw [hok hd, encEffect_finish_of_idle hs]; exact ⟨rfl, rfl, rfl⟩
  case finishPack => rw [hok hd]; exact encEffect_finish_next hs
  case fault => exact encAccept_of_fault hs hd

end Sys2Proof.Proofs
end

section
/-! SUPPORT. The empty run: a table loaded, and the finish with no code pushed (`41_encoder.md` R126 (b), `60_exceptions.md` R237 (a)). -/

namespace Sys2Proof.Proofs

open Sys2Proof Machine

/-- With no push the commands before the finish leave the table in a unit otherwise as after reset. -/
theorem encRun_loadsOnly (e : EncUnit) {cb : List Entry} (hl : cb.length ≤ Config.ncb) (hcb : ∀ entry ∈ cb, entry.code ≠ Config.sent) :
    encRun (encRunCommands cb []) e = { EncUnit.reset with cb := cb } := by
  rw [encRunCommands, List.append_nil, encRun_append]
  exact encRun_loads (e := EncUnit.reset) rfl hcb (by simpa [EncUnit.reset] using hl)

/-- Settles O41: the finish meets ENC in IDLE with the table loaded and nothing emitted. -/
theorem emptyRunEmitsNothing : Obligations.EmptyRunEmitsNothing := by
  intro s cb hl hcb
  refine ⟨_, afterHost_encodeRunOf (codes := []) rfl s, ?_⟩
  rw [encRun_loadsOnly s.enc hl hcb, encEffect_finish_of_idle rfl]
  exact ⟨rfl, rfl, rfl, rfl, rfl, rfl⟩

end Sys2Proof.Proofs
end

section
/-! SUPPORT. `DEC.BYTE`, `DEC.END` and `DEC.RESET` state by state: the open run, with a buffer too small or large enough for the byte, and the run
that is over (`42_decoder.md` R155 to R158). -/

namespace Sys2Proof.Proofs

open Sys2Proof Machine

section
variable {d : DecUnit} {i : Instr}

/-- In FAULT every command but DEC's reset leaves DEC as it is (`60_exceptions.md` R232). -/
theorem decEffect_of_fault (hs : d.state = .fault) (hreset : i ≠ .decReset) : decEffect i d = d := by
  cases i with
  | decReset => exact absurd rfl hreset
  | decLoad | decByte | decEnd => exact DecUnit.unlessFault_of_fault hs
  | encReset | encLoad | encSym | encCode | encFinish => rfl

/-- In ENDED every command of DEC but its reset is out of place (R150). -/
theorem decEffect_of_ended (hs : d.state = .ended) (hi : i.port = .dec) (hreset : i ≠ .decReset) :
    decEffect i d = d.raise .illegalState (encode i) := by
  have hfault : d.state ≠ .fault := by simp [hs]
  cases i with
  | decReset => exact absurd rfl hreset
  | decLoad sym code => exact decEffect_load_of_late (.inr (.inr hs))
  | decByte byte => rw [decEffect, DecUnit.unlessFault_of_not_fault hfault, DecUnit.byte, if_pos hs]
  | decEnd => rw [decEffect, DecUnit.unlessFault_of_not_fault hfault, DecUnit.finish, if_pos hs]
  | encReset | encLoad | encSym | encCode | encFinish => cases hi

/-- In DONE bytes and ends change nothing (R156, R157, R159). -/
theorem decEffect_of_done (hs : d.state = .done) (hi : (∃ byte, i = .decByte byte) ∨ i = .decEnd) : decEffect i d = d := by
  have hfault : d.state ≠ .fault := by simp [hs]
  have hended : d.state ≠ .ended := by simp [hs]
  obtain ⟨byte, rfl⟩ | rfl := hi
  · rw [decEffect, DecUnit.unlessFault_of_not_fault hfault, DecUnit.byte, if_neg hended, if_pos hs]
  · rw [decEffect, DecUnit.unlessFault_of_not_fault hfault, DecUnit.finish, if_neg hended, if_pos hs]

theorem decState_ne_of_open (hs : d.state = .idle ∨ d.state = .run) : d.state ≠ .fault ∧ d.state ≠ .ended ∧ d.state ≠ .done := by
  rcases hs with hs | hs <;> simp [hs]

/-- In an open run `DEC.END` ends the run and changes nothing else (R157). -/
theorem decEffect_end_of_open (hs : d.state = .idle ∨ d.state = .run) : decEffect .decEnd d = { d with state := .ended } := by
  obtain ⟨hfault, hended, hdone⟩ := decState_ne_of_open hs
  rw [decEffect, DecUnit.unlessFault_of_not_fault hfault, DecUnit.finish, if_neg hended, if_neg hdone]

/-- In an open run the effect of `DEC.BYTE` is its body. -/
theorem decEffect_byte_of_open (byte : Byte) (hs : d.state = .idle ∨ d.state = .run) :
    decEffect (.decByte byte) d = d.byte Config.bufCap byte (encode (.decByte byte)) :=
  DecUnit.unlessFault_of_not_fault (decState_ne_of_open hs).1

/-- A byte that does not fit the buffer: the bits before the first that finds it full have had their effect, and fault entry follows
(R155, `60_exceptions.md` R233). -/
theorem byte_of_not_fits {cap : Nat} {byte : Byte} {cw : Word} (hs : d.state = .idle ∨ d.state = .run) (hb : d.buf.length ≤ cap)
    (hfits : ¬ d.greedy.fits cap d.cb (bitsMSB byte)) :
    ∃ n < 8, (d.greedy.bits d.cb ((bitsMSB byte).take n)).ended = false ∧
      (d.greedy.bits d.cb ((bitsMSB byte).take n)).buf.length = cap ∧
      d.byte cap byte cw = DecUnit.raise .bufOverflow cw
        { ({ d with rbyte := byte } : DecUnit).withGreedy (d.greedy.bits d.cb ((bitsMSB byte).take n)) with
          rcnt := BitVec.ofNat 4 (7 - n) } := by
  rw [← lowBits_eight] at hfits ⊢
  rw [byte_of_open hs, ← DecUnit.withGreedy_greedy]
  exact DecUnit.feedBits_overflow (d := { d with rbyte := byte }) 8 (fun _ => rfl) hb hfits

end

/-- Bits fit a buffer with room for all of them (R155). -/
theorem fits_of_room {cap : Nat} {cb : List Entry} {g : Greedy} {bits : List Bool} (h : g.buf.length + bits.length ≤ cap) :
    g.fits cap cb bits := by
  intro n hn _
  have hcount := Greedy.bits_count cb g (bits.take n)
  have htaken := Greedy.bits_taken_le cb g (bits.take n)
  obtain ⟨more, hsyms⟩ := Greedy.bits_syms cb g (bits.take n)
  rw [hsyms, List.length_append] at hcount
  rw [List.length_take] at htaken
  omega

/-- Settles O19: `DEC.BYTE` in an open run is the loop, which stops at the first bit that finds the buffer full. -/
theorem decByteOverflowKeepsEarlierBits : Obligations.DecByteOverflowKeepsEarlierBits := by
  intro byte s hs hb hfits
  obtain ⟨n, hn, hended, hfull, hbyte⟩ := byte_of_not_fits (cw := encode (.decByte byte)) hs hb hfits
  refine ⟨n, hn, hended, hfull, ?_⟩
  rw [exec_decByte_of_open byte hs, show Config.bufCap = 13 from rfl, hbyte]
  rfl

/-- Settles O21: the bits of a byte complete at most two symbols, in every state of DEC. -/
theorem decByteEmitsAtMostTwoSymbols : Obligations.DecByteEmitsAtMostTwoSymbols := by
  intro byte s t hb h
  obtain rfl := exec_eq_next h
  exact decEffect_decByte_out hb byte

/-- Settles O22: a byte fits a buffer with room for its eight bits, and then the loop is the source's decoder. -/
theorem largeBufferIsTheSoftware : Obligations.LargeBufferIsTheSoftware := by
  intro cap byte cw d hs hroom
  have hfits : d.greedy.fits cap d.cb (bitsMSB byte) := fits_of_room (by simpa [DecUnit.greedy] using hroom)
  rw [byte_of_fits hs hfits]
  refine ⟨rfl, rfl, rfl, ?_, ?_⟩ <;> cases hended : (d.greedy.bits d.cb (bitsMSB byte)).ended <;> simp [DecUnit.withGreedy, hended]

section
variable {s : State} {i : Instr}

theorem exec_dec_of_done (hs : s.dec.state = .done) (hi : (∃ byte, i = .decByte byte) ∨ i = .decEnd) : exec i s = .next s :=
  exec_of_decEffect (by obtain ⟨byte, rfl⟩ | rfl := hi <;> rfl) (decEffect_of_done hs hi)

theorem exec_dec_of_ended (hs : s.dec.state = .ended) (hi : i.port = .dec) (hreset : i ≠ .decReset) :
    exec i s = .next { s with dec := s.dec.raise .illegalState (encode i) } :=
  exec_of_decEffect hi (decEffect_of_ended hs hi hreset)

theorem exec_dec_of_fault (hs : s.dec.state = .fault) (hi : i.port = .dec) (hreset : i ≠ .decReset) : exec i s = .next s :=
  exec_of_decEffect hi (decEffect_of_fault hs hreset)

end

/-- Settles O20: DONE ignores the byte, ENDED faults on it, FAULT discards it. -/
theorem decByteAfterTheRunEnded : Obligations.DecByteAfterTheRunEnded :=
  fun byte _ => ⟨fun hs => exec_dec_of_done hs (.inl ⟨byte, rfl⟩), fun hs => exec_dec_of_ended hs rfl nofun,
    fun hs => exec_dec_of_fault hs rfl nofun⟩

/-- Settles O23: an open run is ended with the state alone changed; DONE ignores the end, ENDED faults on it, FAULT discards it. -/
theorem decEndEndsTheRun : Obligations.DecEndEndsTheRun :=
  fun _ => ⟨fun hs => exec_of_decEffect rfl (decEffect_end_of_open hs), fun hs => exec_dec_of_done hs (.inr rfl),
    fun hs => exec_dec_of_ended hs rfl nofun, fun hs => exec_dec_of_fault hs rfl nofun⟩

/-- Settles O24: the reset's effect is the reset state whatever DEC held, and its word is the only one of its opcode that decodes. -/
theorem decResetStartsANewRun : Obligations.DecResetStartsANewRun :=
  ⟨fun _ => ⟨_, exec_of_decEffect rfl rfl⟩, decode_encode .decReset,
    fun _ hop hw => decode_error_of_formatZ (m := .decReset) rfl hop hw⟩

end Sys2Proof.Proofs
end

section
/-! SUPPORT. The next state and the cause of each cell of DEC's transition table (`42_decoder.md` R150). -/

namespace Sys2Proof.Proofs

open Sys2Proof Machine

section
variable {d : DecUnit} {w : Word}

/-- A LOAD in IDLE stays in IDLE or is refused for its code or for want of room (`40_codebook.md` R102). -/
theorem decEffect_load_next (sym : Sym) (code : Code) (hs : d.state = .idle) :
    ((decEffect (.decLoad sym code) d).state = .idle ∧ (decEffect (.decLoad sym code) d).fcause = d.fcause) ∨
    ((decEffect (.decLoad sym code) d).state = .fault ∧
      ((decEffect (.decLoad sym code) d).fcause = .codeSentinel ∨ (decEffect (.decLoad sym code) d).fcause = .cbFull)) := by
  rw [decEffect, DecUnit.unlessFault_of_not_fault (by simp [hs]), DecUnit.load, if_neg (not_not.2 hs)]
  split_ifs
  · exact .inr ⟨rfl, .inl rfl⟩
  · exact .inr ⟨rfl, .inr rfl⟩
  · exact .inl ⟨hs, rfl⟩

/-- A byte that fits leads to RUN or, with the sentinel, to DONE, and records no fault. -/
theorem decEffect_byte_next_of_fits (byte : Byte) (hs : d.state = .idle ∨ d.state = .run)
    (hfits : d.greedy.fits Config.bufCap d.cb (bitsMSB byte)) :
    (decEffect (.decByte byte) d).fcause = d.fcause ∧
      ((decEffect (.decByte byte) d).state = .run ∨ (decEffect (.decByte byte) d).state = .done) := by
  rw [decEffect_byte_of_open byte hs, byte_of_fits hs hfits]
  refine ⟨rfl, ?_⟩
  cases hended : (d.greedy.bits d.cb (bitsMSB byte)).ended <;> simp [DecUnit.withGreedy, hended]

/-- A byte in an open run leads to RUN, DONE or, for want of room, to FAULT. -/
theorem decEffect_byte_next (byte : Byte) (hs : d.state = .idle ∨ d.state = .run) :
    ((decEffect (.decByte byte) d).fcause = d.fcause ∧
      ((decEffect (.decByte byte) d).state = .run ∨ (decEffect (.decByte byte) d).state = .done)) ∨
    ((decEffect (.decByte byte) d).state = .fault ∧ (decEffect (.decByte byte) d).fcause = .bufOverflow) := by
  rw [decEffect_byte_of_open byte hs, byte_of_open hs]
  obtain ⟨buf, out, st, fc, cm, rc, heq, hcase, -⟩ := DecUnit.feedBits_cases Config.bufCap (encode (.decByte byte)) byte 8
    { d with state := .run, rbyte := byte, rcnt := 8#4 } (.inl rfl) (show 8 ≤ (8#4).toNat by decide)
  rw [heq]
  obtain ⟨hfc, -, hst⟩ | ⟨hfc, -, hst⟩ := hcase
  · exact .inl ⟨hfc, hst.imp_right And.left⟩
  · exact .inr ⟨hst, hfc⟩

/-- In FAULT every word but the reset's is discarded (`60_exceptions.md` R232). -/
theorem decAccept_of_fault (hs : d.state = .fault) (hreset : decode .dec w ≠ .ok .decReset) : decAccept w d = d := by
  cases hd : decode .dec w with
  | error r => rw [decAccept_of_error hd, DecUnit.unlessFault_of_fault hs]
  | ok i =>
    rw [decAccept_of_ok hd]
    exact decEffect_of_fault hs fun hi => hreset (by rw [hd, hi])

/-- In ENDED every word but the reset's ends in FAULT (R159). -/
theorem decAccept_of_ended (hs : d.state = .ended) (hreset : decode .dec w ≠ .ok .decReset) : (decAccept w d).state = .fault := by
  cases hd : decode .dec w with
  | error r => rw [decAccept_of_error hd, DecUnit.unlessFault_of_not_fault (by simp [hs])]; rfl
  | ok i => rw [decAccept_of_ok hd, decEffect_of_ended hs (port_of_decode hd) fun hi => hreset (by rw [hd, hi])]; rfl

/-- A step that takes a word on `dec_cmd` does to DEC what accepting the word does. -/
theorem dec_of_step {s t : State} {rest : List HostEvent} (hhost : s.host = .cmd .dec w :: rest) (hstep : step s = .next t) :
    t.dec = decAccept w s.dec := by
  rw [step_of_cons hhost] at hstep
  cases hstep
  rfl

end

/-- Settles O25: the step is the effect of the accepted word on DEC, and each clause is one command in one state. -/
theorem decTransitionTable : Obligations.DecTransitionTable := by
  intro s t w rest hhost hstep
  have hok {i : Instr} (hd : decode .dec w = .ok i) : decAccept w s.dec = decEffect i s.dec := by rw [decAccept_of_ok hd]
  rw [dec_of_step hhost hstep]
  refine ⟨fun hd => ?reset, fun r hd hs => ?illegal, fun sym code hd hs => ?load, fun sym code hd hs => ?lateLoad,
    fun byte hd hs hbuf => ?byteIdle, fun byte hd hs => ?byteRun, fun hd hs => ?finish, fun i hi hd hs => ?done,
    fun i hi hd hs => ?ended, fun hd hs => ?fault⟩
  case reset => rw [hok hd]; rfl
  case illegal => rw [decAccept_of_error hd, DecUnit.unlessFault_of_not_fault hs]; exact ⟨rfl, rfl⟩
  case load => rw [hok hd]; exact decEffect_load_next sym code hs
  case lateLoad => rw [hok hd, decEffect_load_of_late hs]; exact ⟨rfl, rfl⟩
  case byteIdle =>
    rw [hok hd]
    exact decEffect_byte_next_of_fits byte (.inl hs) (fits_of_room (by simp [DecUnit.greedy, hbuf, Config.bufCap]))
  case byteRun => rw [hok hd]; exact decEffect_byte_next byte (.inr hs)
  case finish => rw [hok hd, decEffect_end_of_open hs]
  case done => rw [hok hd, decEffect_of_done hs hi]
  case ended =>
    have hreset : i ≠ .decReset := by obtain ⟨byte, rfl⟩ | rfl := hi <;> nofun
    rw [hok hd, decEffect_of_ended hs (port_of_decode hd) hreset]
    exact ⟨rfl, rfl⟩
  case fault => exact decAccept_of_fault hs hd

end Sys2Proof.Proofs
end

section
/-! SUPPORT. A series of commands to DEC is their effects in order; after the sentinel they have none (`42_decoder.md` R159). -/

namespace Sys2Proof.Proofs

open Sys2Proof Machine

section
variable {i : Instr}

theorem decEvent_send (hi : i.port = .dec) : decEvent (send i) = decEffect i := by
  have hd := decode_encode i
  rw [hi] at hd
  rw [send, hi]
  exact decAccept_of_ok hd

theorem encEvent_send_of_dec (hi : i.port = .dec) : encEvent (send i) = id := by
  rw [send, hi]; rfl

end

/-- The effects of a series of commands on DEC, in order. -/
def decRun (is : List Instr) (d : DecUnit) : DecUnit := is.foldl (fun d i => decEffect i d) d

@[simp] theorem decRun_nil (d : DecUnit) : decRun [] d = d := rfl

@[simp] theorem decRun_cons (i : Instr) (is : List Instr) (d : DecUnit) : decRun (i :: is) d = decRun is (decEffect i d) := rfl

theorem decRun_append (is js : List Instr) (d : DecUnit) : decRun (is ++ js) d = decRun js (decRun is d) :=
  List.foldl_append

section
variable {is : List Instr}

theorem foldl_decEvent_send_of_dec (h : ∀ i ∈ is, i.port = .dec) (d : DecUnit) :
    (is.map send).foldl (fun d ev => decEvent ev d) d = decRun is d := by
  induction is generalizing d with
  | nil => rfl
  | cons i is ih =>
    rw [List.forall_mem_cons] at h
    rw [List.map_cons, List.foldl_cons, decEvent_send h.1, ih h.2, decRun_cons]

theorem foldl_encEvent_send_of_dec (h : ∀ i ∈ is, i.port = .dec) (e : EncUnit) :
    (is.map send).foldl (fun e ev => encEvent ev e) e = e := by
  induction is with
  | nil => rfl
  | cons i is ih =>
    rw [List.forall_mem_cons] at h
    rw [List.map_cons, List.foldl_cons, encEvent_send_of_dec h.1, id, ih h.2]

/-- In any number of steps on commands sent to DEC alone, DEC takes the effects of those accepted, and ENC stays as it is. -/
theorem run_send_dec (h : ∀ i ∈ is, i.port = .dec) (n : Nat) (s : State) :
    Host.Core.run Sys2Proof.core n { s with host := is.map send } = .next ⟨s.enc, decRun (is.take n) s.dec, (is.drop n).map send⟩ := by
  have htake : ∀ i ∈ is.take n, i.port = .dec := fun i hi => h i (List.mem_of_mem_take hi)
  rw [run_eq, ← List.map_take, ← List.map_drop, foldl_encEvent_send_of_dec htake, foldl_decEvent_send_of_dec htake]

/-- When the host sends commands to DEC alone, DEC ends with their effects and ENC as it was. -/
theorem afterHost_send_dec (h : ∀ i ∈ is, i.port = .dec) (s : State) :
    State.afterHost { s with host := is.map send } = .next ⟨s.enc, decRun is s.dec, []⟩ := by
  rw [State.afterHost_eq, foldl_encEvent_send_of_dec h, foldl_decEvent_send_of_dec h]

end

/-- Bytes and ends in DONE, any number of them, leave DEC as it is. -/
theorem decRun_of_done {is : List Instr} {d : DecUnit} (hs : d.state = .done)
    (h : ∀ i ∈ is, (∃ byte, i = .decByte byte) ∨ i = .decEnd) : decRun is d = d := by
  induction is with
  | nil => rfl
  | cons i is ih =>
    rw [List.forall_mem_cons] at h
    rw [decRun_cons, decEffect_of_done hs h.1, ih h.2]

/-- Settles O26: in DONE each byte or end leaves DEC as it is; in ENDED each word but the reset's is out of place or illegal. -/
theorem nothingIsDecodedAfterTermination : Obligations.NothingIsDecodedAfterTermination := by
  refine ⟨fun s l hs hl => ?_, fun s t w rest hs hhost hreset hstep => ?_⟩
  · have hport : ∀ i ∈ l, i.port = .dec := fun i hi => by obtain ⟨byte, rfl⟩ | rfl := hl i hi <;> rfl
    rw [afterHost_send_dec hport, decRun_of_done hs hl]
  · rw [dec_of_step hhost hstep]
    exact decAccept_of_ended hs hreset

end Sys2Proof.Proofs
end

section
/-! SUPPORT. Tables with the same entries in another order: with distinct keys the lookups agree, and lookups are all that encoding and decoding
take from a table (`42_decoder.md` R164). -/

namespace Sys2Proof.Proofs

open Sys2Proof Machine

/-! ### The lookups agree -/

theorem lookupSym_eq_some_iff {cb : List Entry} (hd : (cb.map Entry.sym).Nodup) (s : Sym) (c : Code) :
    lookupSym cb s = some c ↔ ⟨s, c⟩ ∈ cb :=
  ⟨mem_of_lookupSym, fun h => lookupSym_of_mem hd h⟩

theorem lookupCode_eq_some_iff {cb : List Entry} (hd : (cb.map Entry.code).Nodup) (w : Code) (s : Sym) :
    lookupCode cb w = some s ↔ ⟨s, w⟩ ∈ cb :=
  ⟨mem_of_lookupCode, fun h => lookupCode_of_mem hd h⟩

section
variable {cb cb' : List Entry}

theorem lookupSym_of_perm (hp : cb.Perm cb') (hd : (cb.map Entry.sym).Nodup) (s : Sym) : lookupSym cb' s = lookupSym cb s := by
  have hd' : (cb'.map Entry.sym).Nodup := (hp.map _).nodup_iff.1 hd
  ext c
  rw [lookupSym_eq_some_iff hd', lookupSym_eq_some_iff hd, hp.mem_iff]

theorem lookupCode_of_perm (hp : cb.Perm cb') (hd : (cb.map Entry.code).Nodup) (w : Code) : lookupCode cb' w = lookupCode cb w := by
  have hd' : (cb'.map Entry.code).Nodup := (hp.map _).nodup_iff.1 hd
  ext s
  rw [lookupCode_eq_some_iff hd', lookupCode_eq_some_iff hd, hp.mem_iff]

end

/-! ### Only the lookups matter -/

/-- ENC with another table. -/
def encWithTable (cb : List Entry) (e : EncUnit) : EncUnit := { e with cb := cb }

/-- DEC with another table. -/
def decWithTable (cb : List Entry) (d : DecUnit) : DecUnit := { d with cb := cb }

section
variable {cb : List Entry} {e : EncUnit}

theorem packBit_withTable (b : Bool) : (encWithTable cb e).packBit b = encWithTable cb (e.packBit b) := by
  simp only [EncUnit.packBit, apply_ite (encWithTable cb)]
  rfl

theorem packBits_withTable (bits : List Bool) : (encWithTable cb e).packBits bits = encWithTable cb (e.packBits bits) := by
  induction bits generalizing e with
  | nil => rfl
  | cons b bits ih => rw [EncUnit.packBits_cons, packBit_withTable, ih, EncUnit.packBits_cons]

/-- `ENC.SYM` takes from the table what the symbol finds, and nothing else (`41_encoder.md` R124). -/
theorem encEffect_symbol_withTable {sym : Sym} (h : lookupSym cb sym = lookupSym e.cb sym) :
    encEffect (.encSym sym) (encWithTable cb e) = encWithTable cb (encEffect (.encSym sym) e) := by
  have hl : lookupSym (encWithTable cb e).cb sym = lookupSym e.cb sym := h
  simp only [encEffect, EncUnit.unlessFault, EncUnit.symbol, hl, EncUnit.packCode_eq, packBits_withTable, apply_ite (encWithTable cb)]
  cases lookupSym e.cb sym <;> rfl

end

section
variable {cb : List Entry} {d : DecUnit}

/-- `DecBit` takes from the table what the window finds, and nothing else (R153). -/
theorem decBit_withTable (h : ∀ w, lookupCode cb w = lookupCode d.cb w) (cap : Nat) (cw : Word) (b : Bool) :
    (decWithTable cb d).decBit cap cw b = decWithTable cb (d.decBit cap cw b) := by
  have hl : lookupCode (decWithTable cb d).cb (window (d.buf ++ [b])) = lookupCode d.cb (window (d.buf ++ [b])) := h _
  simp only [DecUnit.decBit, show (decWithTable cb d).buf = d.buf from rfl, hl, apply_ite (decWithTable cb)]
  cases lookupCode d.cb (window (d.buf ++ [b])) <;> rfl

theorem decBit_cb (cap : Nat) (cw : Word) (b : Bool) (hs : d.state = .run) : (d.decBit cap cw b).cb = d.cb := by
  obtain ⟨buf, out, st, heq, -⟩ | ⟨-, heq⟩ := DecUnit.decBit_cases cap cw b d hs <;> rw [heq]
  rfl

theorem feedBits_withTable (h : ∀ w, lookupCode cb w = lookupCode d.cb w) (cap : Nat) (cw : Word) (byte : Byte) (n : Nat) :
    DecUnit.feedBits cap cw byte n (decWithTable cb d) = decWithTable cb (DecUnit.feedBits cap cw byte n d) := by
  induction n generalizing d with
  | zero => rfl
  | succ n ih =>
    by_cases hs : d.state = .run
    · rw [DecUnit.feedBits_succ_of_run n hs, DecUnit.feedBits_succ_of_run n (show (decWithTable cb d).state = .run from hs)]
      have hbit := decBit_withTable (d := { d with rcnt := d.rcnt - 1#4 }) h cap cw (byte.getLsbD n)
      have hcb := decBit_cb (d := { d with rcnt := d.rcnt - 1#4 }) cap cw (byte.getLsbD n) hs
      rw [← ih fun w => by rw [hcb, h w], ← hbit]
      rfl
    · rw [DecUnit.feedBits_of_not_run _ hs, DecUnit.feedBits_of_not_run _ (show (decWithTable cb d).state ≠ .run from hs)]

/-- `DEC.BYTE` takes from the table what the windows find, and nothing else (R156). -/
theorem decEffect_byte_withTable (h : ∀ w, lookupCode cb w = lookupCode d.cb w) (byte : Byte) :
    decEffect (.decByte byte) (decWithTable cb d) = decWithTable cb (decEffect (.decByte byte) d) := by
  have hfeed := feedBits_withTable (d := { d with state := .run, rbyte := byte, rcnt := 8#4 }) h Config.bufCap
    (encode (.decByte byte)) byte 8
  simp only [decEffect, DecUnit.unlessFault, DecUnit.byte, apply_ite (decWithTable cb), ← hfeed]
  rfl

end

/-- Settles O38: with distinct keys permuted tables answer every lookup alike, and neither command takes anything else from the table. -/
theorem entryOrderDoesNotMatter : Obligations.EntryOrderDoesNotMatter := by
  refine fun cb cb' hp => ⟨fun hd s sym hcb => ?_, fun hd s byte hcb => ?_⟩
  · refine ⟨_, exec_of_encEffect rfl rfl, exec_of_encEffect rfl (encEffect_symbol_withTable ?_)⟩
    rw [hcb, lookupSym_of_perm hp hd]
  · refine ⟨_, exec_of_decEffect rfl rfl, exec_of_decEffect rfl (decEffect_byte_withTable (fun w => ?_) byte)⟩
    rw [hcb, lookupCode_of_perm hp hd]

end Sys2Proof.Proofs
end

section
/-! SUPPORT. The bits of the bytes of a stream are the stream's bits (`30_encoding.md` R80). -/

namespace Sys2Proof.Proofs

open Sys2Proof Machine

/-- Every bit sequence of `8k` bits is the bits of bytes. -/
theorem exists_bytesBits_eq {k : Nat} {bits : List Bool} (h : bits.length = 8 * k) : ∃ bytes, bytesBits bytes = bits := by
  induction k generalizing bits with
  | zero => exact ⟨[], (List.length_eq_zero_iff.1 h).symm⟩
  | succ k ih =>
    obtain ⟨bytes, hbytes⟩ := ih (bits := bits.drop 8) (by rw [List.length_drop]; omega)
    refine ⟨BitVec.ofNat 8 (val (bits.take 8)) :: bytes, ?_⟩
    calc bytesBits (BitVec.ofNat 8 (val (bits.take 8)) :: bytes)
        = bitsMSB (BitVec.ofNat 8 (val (bits.take 8))) ++ bytesBits bytes := List.flatMap_cons
      _ = bits.take 8 ++ bits.drop 8 := by rw [bitsMSB_ofNat_val _ (by rw [List.length_take]; omega), hbytes]
      _ = bits := List.take_append_drop 8 bits

theorem bytesBits_bitstream {codes : List Code} (hne : codes ≠ []) : bytesBits (bitstream codes) = streamBits codes := by
  obtain ⟨bytes, hbytes⟩ := exists_bytesBits_eq (length_streamBits codes)
  rw [← eq_bitstream hne hbytes, hbytes]

end Sys2Proof.Proofs
end

section
/-! SUPPORT. The source's decoder on a stream that is on code boundaries: it ends at the sentinel with the codes' symbols, and seven bits of buffer
are enough for it (`42_decoder.md` R160). -/

namespace Sys2Proof.Proofs

open Sys2Proof Machine

/-! ### Bits in parts, and the room they need -/

section
variable {cap : Nat} {cb : List Entry} {g : Greedy}

theorem fits_of_ended (h : g.ended = true) (bits : List Bool) : g.fits cap cb bits := by
  intro n _ he
  rw [Greedy.bits_of_ended h, h] at he
  cases he

theorem fits_append {s t : List Bool} : g.fits cap cb (s ++ t) ↔ g.fits cap cb s ∧ (g.bits cb s).fits cap cb t := by
  induction s generalizing g with
  | nil => simp [Greedy.fits]
  | cons b s ih => rw [List.cons_append, Greedy.fits_cons, Greedy.fits_cons, ih, Greedy.bits_cons, and_assoc]

theorem fits_of_le {cap' : Nat} {bits : List Bool} (hcap : cap ≤ cap') (h : g.fits cap cb bits) : g.fits cap' cb bits :=
  fun n hn he => (h n hn he).trans_le hcap

/-- Bits that fit leave a buffer that does not go over. -/
theorem buf_le_of_fits {bits : List Bool} (hbuf : g.buf.length ≤ cap) (h : g.fits cap cb bits) :
    (g.bits cb bits).buf.length ≤ cap := by
  induction bits generalizing g with
  | nil => exact hbuf
  | cons b bits ih =>
    obtain ⟨hroom, hrest⟩ := Greedy.fits_cons.1 h
    refine ih ?_ hrest
    cases he : g.ended with
    | true => rwa [Greedy.bit_of_ended he]
    | false =>
      have hbit := Greedy.bit_buf_le cb g b
      have := hroom he
      omega

end

/-! ### What was emitted and taken before makes no difference -/

/-- A decoder that had emitted and taken something before. -/
def continueFrom (syms : List Sym) (taken : Nat) (g : Greedy) : Greedy := { g with syms := syms ++ g.syms, taken := taken + g.taken }

section
variable {cb : List Entry} {syms : List Sym} {taken : Nat} {g : Greedy}

theorem bit_continueFrom (b : Bool) : (continueFrom syms taken g).bit cb b = continueFrom syms taken (g.bit cb b) := by
  by_cases hended : g.ended = true
  · simp [Greedy.bit, continueFrom, hended]
  · by_cases hl : Config.codeLen ≤ g.buf.length + 1
    · by_cases hs : window (g.buf ++ [b]) = Config.sent
      · simp [Greedy.bit, continueFrom, hended, hl, hs, Nat.add_assoc]
      · cases hk : lookupCode cb (window (g.buf ++ [b])) <;>
          simp [Greedy.bit, continueFrom, hended, hl, hs, hk, Nat.add_assoc]
    · simp [Greedy.bit, continueFrom, hended, hl, Nat.add_assoc]

theorem bits_continueFrom (bits : List Bool) : (continueFrom syms taken g).bits cb bits = continueFrom syms taken (g.bits cb bits) := by
  induction bits generalizing g with
  | nil => rfl
  | cons b bits ih => rw [Greedy.bits_cons, bit_continueFrom, ih, Greedy.bits_cons]

theorem fits_continueFrom {cap : Nat} {bits : List Bool} : (continueFrom syms taken g).fits cap cb bits ↔ g.fits cap cb bits := by
  simp only [Greedy.fits, bits_continueFrom]
  rfl

end

/-! ### Codes, the sentinel, and what follows it -/

section
variable {cb : List Entry} {g : Greedy}

/-- Seven bits into an empty buffer never find more than six there. -/
theorem fits_code (hb : g.buf = []) (c : Code) : g.fits 7 cb (bitsMSB c) :=
  fits_of_room (by simp [hb])

/-- A code of the table emits its symbol and leaves the buffer empty. -/
theorem bits_code_of_lookup (he : g.ended = false) (hb : g.buf = []) {c : Code} {s : Sym} (hc : c ≠ Config.sent)
    (hl : lookupCode cb c = some s) : g.bits cb (bitsMSB c) = ⟨[], g.syms ++ [s], false, g.taken + 7⟩ := by
  rw [Greedy.bits_code he hb, if_neg hc, hl]

/-- The sentinel ends the stream, its own bits still buffered. -/
theorem bits_sentinel (he : g.ended = false) (hb : g.buf = []) :
    g.bits cb (bitsMSB Config.sent) = ⟨bitsMSB Config.sent, g.syms, true, g.taken + 7⟩ := by
  rw [Greedy.bits_code he hb, if_pos rfl]

/-- Codes of the table, then the sentinel, then anything: the codes' symbols and the end, in seven bits of buffer. -/
theorem bits_stream {codes : List Code} {syms : List Sym} (he : g.ended = false) (hb : g.buf = []) (hsent : ∀ c ∈ codes, c ≠ Config.sent)
    (hl : codes.map (lookupCode cb) = syms.map some) (rest : List Bool) :
    g.fits 7 cb (codes.flatMap bitsMSB ++ bitsMSB Config.sent ++ rest) ∧
      ∃ taken, g.bits cb (codes.flatMap bitsMSB ++ bitsMSB Config.sent ++ rest) = ⟨bitsMSB Config.sent, g.syms ++ syms, true, taken⟩ := by
  induction codes generalizing g syms with
  | nil =>
    obtain rfl : syms = [] := by simpa using hl.symm
    rw [List.flatMap_nil, List.nil_append, fits_append, Greedy.bits_append, bits_sentinel he hb, Greedy.bits_of_ended rfl, List.append_nil]
    exact ⟨⟨fits_code hb _, fits_of_ended rfl rest⟩, _, rfl⟩
  | cons c codes ih =>
    rw [List.map_cons] at hl
    obtain ⟨s, syms, rfl, hs, hrest⟩ := List.map_eq_cons_iff.1 hl.symm
    rw [List.forall_mem_cons] at hsent
    obtain ⟨hfits, taken, hbits⟩ := ih (g := ⟨[], g.syms ++ [s], false, g.taken + 7⟩) rfl rfl hsent.2 hrest.symm
    rw [List.flatMap_cons, List.append_assoc, List.append_assoc, ← List.append_assoc (codes.flatMap bitsMSB), fits_append,
      Greedy.bits_append, bits_code_of_lookup he hb hsent.1 hs.symm]
    refine ⟨⟨fits_code hb c, hfits⟩, taken, ?_⟩
    rw [hbits, List.append_assoc, List.singleton_append]

end

end Sys2Proof.Proofs
end

section
/-! SUPPORT. A decode run command by command: the table loaded, then the bytes as the source's decoder takes them, with the buffer bounded all along
(`70_reset_and_hazards.md` R274, `42_decoder.md` R156, R160). -/

namespace Sys2Proof.Proofs

open Sys2Proof Machine

/-! ### Bytes -/

/-- DEC in a run without a fault, with the table `cb`, has what the source's decoder has. -/
structure Follows (cb : List Entry) (g : Greedy) (d : DecUnit) : Prop where
  cb_eq : d.cb = cb
  buf_eq : d.buf = g.buf
  out_eq : d.out = g.syms
  fcause_eq : d.fcause = .none
  state_open : g.ended = false → d.state = .idle ∨ d.state = .run
  state_done : g.ended = true → d.state = .done

section
variable {cb : List Entry} {g : Greedy} {d : DecUnit}

/-- The source's decoder before its first bit. -/
def greedyStart : Greedy := ⟨[], [], false, 0⟩

theorem follows_loaded (cb : List Entry) : Follows cb greedyStart { DecUnit.reset with cb := cb } where
  cb_eq := rfl
  buf_eq := rfl
  out_eq := rfl
  fcause_eq := rfl
  state_open _ := .inl rfl
  state_done := nofun

/-- DEC's own decoder is the followed one but for what was emitted and taken before. -/
theorem continueFrom_greedy (h : Follows cb g d) (he : g.ended = false) : continueFrom g.syms g.taken d.greedy = g := by
  obtain ⟨buf, syms, ended, taken⟩ := g
  obtain rfl : ended = false := he
  simp [continueFrom, DecUnit.greedy, h.buf_eq]

/-- A byte that fits leaves DEC with what the source's decoder has after its bits. -/
theorem follows_byte (h : Follows cb g d) {byte : Byte} (hfits : g.fits Config.bufCap cb (bitsMSB byte)) :
    Follows cb (g.bits cb (bitsMSB byte)) (decEffect (.decByte byte) d) := by
  cases he : g.ended with
  | true =>
    rw [Greedy.bits_of_ended he, decEffect_of_done (h.state_done he) (.inl ⟨byte, rfl⟩)]
    exact h
  | false =>
    have hs := h.state_open he
    rw [← continueFrom_greedy h he, fits_continueFrom] at hfits
    have hbits : g.bits cb (bitsMSB byte) = continueFrom g.syms g.taken (d.greedy.bits cb (bitsMSB byte)) := by
      rw [← bits_continueFrom, continueFrom_greedy h he]
    rw [hbits, decEffect_byte_of_open byte hs, byte_of_fits hs (by rwa [h.cb_eq]), h.cb_eq]
    exact {
      cb_eq := rfl
      buf_eq := rfl
      out_eq := congrArg (· ++ _) h.out_eq
      fcause_eq := h.fcause_eq
      state_open := fun hopen => .inr (if_neg (ne_true_of_eq_false hopen))
      state_done := fun hended => if_pos hended }

theorem follows_bytes (h : Follows cb g d) {bytes : List Byte} (hfits : g.fits Config.bufCap cb (bytesBits bytes)) :
    Follows cb (g.bits cb (bytesBits bytes)) (decRun (bytes.map .decByte) d) := by
  induction bytes generalizing g d with
  | nil => exact h
  | cons byte bytes ih =>
    have hcons : bytesBits (byte :: bytes) = bitsMSB byte ++ bytesBits bytes := List.flatMap_cons
    rw [hcons, fits_append] at hfits
    rw [hcons, Greedy.bits_append, List.map_cons, decRun_cons]
    exact ih (follows_byte h hfits.1) hfits.2

end

/-! ### The table -/

/-- The LOAD of an entry. -/
def decLoadOf (entry : Entry) : Instr := .decLoad entry.sym entry.code

/-- The LOADs of a table with room for all of it append its entries in order. -/
theorem decRun_loads {d : DecUnit} {cb : List Entry} (hs : d.state = .idle) (hc : ∀ entry ∈ cb, entry.code ≠ Config.sent)
    (hl : d.cb.length + cb.length ≤ Config.ncb) : decRun (cb.map decLoadOf) d = { d with cb := d.cb ++ cb } := by
  induction cb generalizing d with
  | nil => simp
  | cons entry cb ih =>
    rw [List.forall_mem_cons] at hc
    rw [List.length_cons] at hl
    rw [List.map_cons, decRun_cons, decLoadOf, decEffect_load_of_idle hs hc.1 (by omega)]
    simpa using ih (d := { d with cb := d.cb ++ [entry] }) hs hc.2 (by simp; omega)

theorem decRun_loads_reset {cb : List Entry} (h : TableOk cb) :
    decRun (cb.map decLoadOf) DecUnit.reset = { DecUnit.reset with cb := cb } :=
  decRun_loads rfl h.2 (by simpa [DecUnit.reset] using h.1)

/-! ### The buffer all along a series of commands -/

/-- At every point of a series of commands at most `n` bits are buffered. -/
def BuffersAtMost (n : Nat) (is : List Instr) (d : DecUnit) : Prop := ∀ k, (decRun (is.take k) d).buf.length ≤ n

section
variable {n : Nat} {d : DecUnit} {cb : List Entry}

theorem buffersAtMost_append {is js : List Instr} (his : BuffersAtMost n is d) (hjs : BuffersAtMost n js (decRun is d)) :
    BuffersAtMost n (is ++ js) d := by
  intro k
  by_cases hk : k ≤ is.length
  · rw [List.take_append_of_le_length hk]
    exact his k
  · rw [List.take_append, List.take_of_length_le (by omega), decRun_append]
    exact hjs _

theorem buffersAtMost_loads (h : TableOk cb) : BuffersAtMost n (cb.map decLoadOf) DecUnit.reset := by
  intro k
  have hk : TableOk (cb.take k) :=
    ⟨(List.length_take_le' k cb).trans h.1, fun entry hmem => h.2 entry (List.mem_of_mem_take hmem)⟩
  rw [← List.map_take, decRun_loads_reset hk]
  exact Nat.zero_le n

/-- Bytes whose bits fit a smaller buffer never fill more of it. -/
theorem buffersAtMost_bytes {g : Greedy} {bytes : List Byte} (h : Follows cb g d) (hn : n ≤ Config.bufCap) (hbuf : g.buf.length ≤ n)
    (hfits : g.fits n cb (bytesBits bytes)) : BuffersAtMost n (bytes.map .decByte) d := by
  intro k
  rw [← List.take_append_drop k bytes, bytesBits_append, fits_append] at hfits
  rw [← List.map_take, (follows_bytes h (fits_of_le hn hfits.1)).buf_eq]
  exact buf_le_of_fits hbuf hfits.1

theorem decEffect_end_buf (d : DecUnit) : (decEffect .decEnd d).buf = d.buf := by
  simp only [decEffect, DecUnit.unlessFault, DecUnit.finish]
  split_ifs <;> rfl

theorem buffersAtMost_end (hbuf : d.buf.length ≤ n) : BuffersAtMost n [.decEnd] d := by
  intro k
  cases k with
  | zero => exact hbuf
  | succ k => rw [List.take_succ_cons, List.take_nil, decRun_cons, decRun_nil, decEffect_end_buf]; exact hbuf

end

/-! ### The run -/

/-- The commands of a decode run after its reset (`70_reset_and_hazards.md` R274). -/
def decRunCommands (cb : List Entry) (bytes : List Byte) : List Instr := cb.map decLoadOf ++ (bytes.map .decByte ++ [.decEnd])

theorem decodeRun_eq (cb : List Entry) (bytes : List Byte) :
    decodeRun cb bytes = (Instr.decReset :: decRunCommands cb bytes).map send := by
  simp [decodeRun, decRunCommands, Function.comp_def, decLoadOf]

/-- The commands of a decode run are commands of DEC. -/
theorem port_of_decRunCommands (cb : List Entry) (bytes : List Byte) :
    ∀ i ∈ Instr.decReset :: decRunCommands cb bytes, i.port = .dec := by
  simp only [decRunCommands, List.forall_mem_cons, List.forall_mem_append, List.forall_mem_map]
  exact ⟨rfl, fun _ _ => rfl, fun _ _ => rfl, rfl, nofun⟩

section
variable {cb : List Entry} {bytes : List Byte}

/-- A decode run ends with `DEC.END` on what the bytes after the LOADs left of DEC, and leaves ENC. -/
theorem afterHost_decodeRun (hcb : TableOk cb) (s : State) :
    State.afterHost { s with host := decodeRun cb bytes } =
      .next ⟨s.enc, decEffect .decEnd (decRun (bytes.map .decByte) { DecUnit.reset with cb := cb }), []⟩ := by
  have hreset : decEffect .decReset s.dec = DecUnit.reset := rfl
  rw [decodeRun_eq, afterHost_send_dec (port_of_decRunCommands cb bytes), decRun_cons, hreset, decRunCommands, decRun_append,
    decRun_append, decRun_loads_reset hcb]
  rfl

/-- A decode run on bytes whose bits fit seven bits of buffer has at most seven buffered at every point after its reset. -/
theorem buf_le_of_decodeRun (hcb : TableOk cb) (hfits : greedyStart.fits 7 cb (bytesBits bytes)) (s : State) {n : Nat}
    (hn : 1 ≤ n) :
    ∃ t, Host.Core.run Sys2Proof.core n { s with host := decodeRun cb bytes } = .next t ∧ t.dec.buf.length ≤ 7 := by
  refine ⟨_, by rw [decodeRun_eq]; exact run_send_dec (port_of_decRunCommands cb bytes) n s, ?_⟩
  obtain ⟨k, rfl⟩ := Nat.exists_eq_add_of_le' hn
  have hbytes := follows_bytes (follows_loaded cb) (fits_of_le (by decide) hfits)
  have hall : BuffersAtMost 7 (decRunCommands cb bytes) DecUnit.reset := by
    refine buffersAtMost_append (buffersAtMost_loads hcb) ?_
    rw [decRun_loads_reset hcb]
    refine buffersAtMost_append (buffersAtMost_bytes (follows_loaded cb) (by decide) (Nat.zero_le 7) hfits) (buffersAtMost_end ?_)
    rw [hbytes.buf_eq]
    exact buf_le_of_fits (Nat.zero_le 7) hfits
  exact hall k

/-- A decode run whose bits end with the sentinel and fit seven bits of buffer ends in DONE with the decoder's symbols and no fault. -/
theorem afterHost_decodeRun_of_ended (hcb : TableOk cb) (hfits : greedyStart.fits 7 cb (bytesBits bytes)) {buf : List Bool}
    {syms : List Sym} {taken : Nat} (hbits : greedyStart.bits cb (bytesBits bytes) = ⟨buf, syms, true, taken⟩) (s : State) :
    ∃ d, State.afterHost { s with host := decodeRun cb bytes } = .next ⟨s.enc, d, []⟩ ∧ d.state = .done ∧ d.fcause = .none ∧
      d.out = syms := by
  have hbytes := follows_bytes (follows_loaded cb) (fits_of_le (by decide) hfits)
  rw [hbits] at hbytes
  have hdone := hbytes.state_done rfl
  exact ⟨_, by rw [afterHost_decodeRun hcb, decEffect_of_done hdone (.inr rfl)], hdone, hbytes.fcause_eq, hbytes.out_eq⟩

end

end Sys2Proof.Proofs
end

section
/-! SUPPORT. Well-formed streams decode to their symbols, and an encode run followed by a decode run gives the symbols back
(`42_decoder.md` R159, R160, R163). -/

namespace Sys2Proof.Proofs

open Sys2Proof Machine

section
variable {cb : List Entry}

theorem tableOk_of_wellFormed (h : WellFormedCodebook cb) : TableOk cb := ⟨h.1, h.2.2.2⟩

/-- A code of a well-formed codebook is not the sentinel. -/
theorem ne_sent_of_mem (h : WellFormedCodebook cb) {c : Code} (hc : c ∈ cb.map Entry.code) : c ≠ Config.sent := by
  obtain ⟨entry, hmem, rfl⟩ := List.mem_map.1 hc
  exact h.2.2.2 entry hmem

/-- Codes of a codebook are the codes of some symbols. -/
theorem exists_syms_of_codes (h : WellFormedCodebook cb) {codes : List Code} (hc : ∀ c ∈ codes, c ∈ cb.map Entry.code) :
    ∃ syms : List Sym, codes.map (lookupCode cb) = syms.map some := by
  induction codes with
  | nil => exact ⟨[], rfl⟩
  | cons c codes ih =>
    rw [List.forall_mem_cons] at hc
    obtain ⟨syms, hsyms⟩ := ih hc.2
    obtain ⟨entry, hmem, rfl⟩ := List.mem_map.1 hc.1
    exact ⟨entry.sym :: syms, by rw [List.map_cons, List.map_cons, hsyms, lookupCode_of_mem h.2.2.1 hmem]⟩

/-- The bits of a stream with bytes after it are the codes, the sentinel, and bits after it. -/
theorem bytesBits_bitstream_append {codes : List Code} (hne : codes ≠ []) (extra : List Byte) :
    bytesBits (bitstream codes ++ extra) = codes.flatMap bitsMSB ++ bitsMSB Config.sent ++
      (List.replicate (padLength codes.length) false ++ bytesBits extra) := by
  rw [bytesBits_append, bytesBits_bitstream hne, streamBits, List.append_assoc]

/-- The source's decoder on a well-formed stream with bytes after it. -/
theorem bits_bitstream (h : WellFormedCodebook cb) {codes : List Code} {syms : List Sym} (hne : codes ≠ [])
    (hc : ∀ c ∈ codes, c ∈ cb.map Entry.code) (hl : codes.map (lookupCode cb) = syms.map some) (extra : List Byte) :
    greedyStart.fits 7 cb (bytesBits (bitstream codes ++ extra)) ∧
      ∃ taken, greedyStart.bits cb (bytesBits (bitstream codes ++ extra)) = ⟨bitsMSB Config.sent, syms, true, taken⟩ := by
  rw [bytesBits_bitstream_append hne]
  exact bits_stream rfl rfl (fun c hmem => ne_sent_of_mem h (hc c hmem)) hl _

end

/-- Settles O42: DEC follows the source's decoder, which takes the stream in codes of seven bits and stops at the sentinel. -/
theorem wellFormedStreamDecodes : Obligations.WellFormedStreamDecodes := by
  intro s cb codes extra hcb hne hc
  obtain ⟨syms, hl⟩ := exists_syms_of_codes hcb hc
  obtain ⟨hfits, taken, hbits⟩ := bits_bitstream hcb hne hc hl extra
  refine ⟨?_, fun n hn => buf_le_of_decodeRun (tableOk_of_wellFormed hcb) hfits s hn⟩
  obtain ⟨d, hrun, hdone, hcause, hout⟩ := afterHost_decodeRun_of_ended (tableOk_of_wellFormed hcb) hfits hbits s
  exact ⟨_, hrun, hdone, hcause, by rw [hout, hl], rfl⟩

/-- Symbols of a well-formed codebook have codes of it, which find the symbols again. -/
theorem exists_codes_of_syms {cb : List Entry} (h : WellFormedCodebook cb) {syms : List Sym} (hs : ∀ x ∈ syms, x ∈ cb.map Entry.sym) :
    ∃ codes : List Code, syms.map (lookupSym cb) = codes.map some ∧ codes.map (lookupCode cb) = syms.map some ∧
      ∀ c ∈ codes, c ∈ cb.map Entry.code := by
  induction syms with
  | nil => exact ⟨[], rfl, rfl, nofun⟩
  | cons x syms ih =>
    rw [List.forall_mem_cons] at hs
    obtain ⟨codes, hsym, hcode, hmem⟩ := ih hs.2
    obtain ⟨entry, hentry, rfl⟩ := List.mem_map.1 hs.1
    refine ⟨entry.code :: codes, ?_, ?_, List.forall_mem_cons.2 ⟨List.mem_map_of_mem hentry, hmem⟩⟩
    · rw [List.map_cons, List.map_cons, hsym, lookupSym_of_mem h.2.1 hentry]
    · rw [List.map_cons, List.map_cons, hcode, lookupCode_of_mem h.2.2.1 hentry]

/-- The round trip of one symbol or more: the encode run gives the stream of the symbols' codes, which decodes to them. -/
theorem blockRoundTrip_of_ne_nil {cb : List Entry} {syms : List Sym} (hcb : WellFormedCodebook cb) (hs : ∀ x ∈ syms, x ∈ cb.map Entry.sym)
    (hne : syms ≠ []) (s : State) :
    ∃ t u, State.afterHost { s with host := encodeRun cb syms } = .next t ∧
      State.afterHost { t with host := decodeRun cb t.enc.out } = .next u ∧
      u.clean ∧ u.enc.state = .fin ∧ u.enc.empty = false ∧ u.dec.state = .done ∧ u.dec.out = syms := by
  obtain ⟨codes, hsym, hcode, hmem⟩ := exists_codes_of_syms hcb hs
  have hnec : codes ≠ [] := by rintro rfl; exact hne (by simpa using hsym)
  have hpush : (syms.map Instr.encSym).map (pushedCode cb) = codes.map some := by rw [List.map_map]; exact hsym
  obtain ⟨t, hencode, hfin, hcause, hempty, -, hout, -, -⟩ :=
    encodeRunGivesTheBitstream s cb (syms.map .encSym) codes hcb.1 hcb.2.2.2 hpush hnec
  obtain ⟨⟨u, hdecode, hdone, hdcause, hsyms, henc⟩, -⟩ := wellFormedStreamDecodes t cb codes [] hcb hnec hmem
  rw [List.append_nil, ← hout] at hdecode
  rw [← henc] at hfin hcause hempty
  have hback : u.dec.out = syms := by
    rw [hcode] at hsyms
    exact List.map_injective_iff.2 (Option.some_injective Sym) hsyms
  exact ⟨t, u, hencode, hdecode, ⟨hcause, hdcause⟩, hfin, hempty, hdone, hback⟩

/-- A decode run on no byte ends in ENDED with nothing decoded. -/
theorem afterHost_decodeRun_nil {cb : List Entry} (hcb : TableOk cb) (s : State) :
    State.afterHost { s with host := decodeRun cb [] } = .next ⟨s.enc, { DecUnit.reset with cb := cb, state := .ended }, []⟩ := by
  rw [afterHost_decodeRun hcb, List.map_nil, decRun_nil, decEffect_end_of_open (.inl rfl)]

/-- Settles O43: one symbol or more make a well-formed stream; none make an empty run, which leaves the decode run no byte. -/
theorem blockRoundTrip : Obligations.BlockRoundTrip := by
  intro s cb syms hcb hs
  by_cases hne : syms = []
  · subst hne
    obtain ⟨t, hencode, hfin, hempty, hout, hcause, -, -⟩ := emptyRunEmitsNothing s cb hcb.1 hcb.2.2.2
    have hdecode := afterHost_decodeRun_nil (tableOk_of_wellFormed hcb) t
    rw [← hout] at hdecode
    exact ⟨t, _, hencode, hdecode, ⟨hcause, rfl⟩, hfin, .inr rfl, rfl,
      fun h => absurd rfl h, fun _ => ⟨hout, hempty, rfl⟩⟩
  · obtain ⟨t, u, hencode, hdecode, hclean, hfin, hempty, hdone, hout⟩ := blockRoundTrip_of_ne_nil hcb hs hne s
    exact ⟨t, u, hencode, hdecode, hclean, hfin, .inl hdone, hout, fun _ => ⟨hempty, hdone⟩, fun h => absurd h hne⟩

end Sys2Proof.Proofs
end

section
/-! SUPPORT. The codebook the builder makes has the bytes of the input for symbols and their ranks for codes (`43_host_codebook.md` R191 to R197). -/

namespace Sys2Proof.Proofs

open Sys2Proof Machine

/-! ### The frequency table -/

theorem mem_alphabet (s : Sym) : s ∈ alphabet :=
  List.mem_map.2 ⟨s.toNat, List.mem_range.2 s.isLt, by rw [BitVec.ofNat_toNat, BitVec.setWidth_eq]⟩

theorem nodup_alphabet : alphabet.Nodup := by
  refine List.nodup_range.map_on fun a ha b hb h => ?_
  have hmod := congrArg BitVec.toNat h
  rw [List.mem_range] at ha hb
  simp only [BitVec.toNat_ofNat] at hmod
  omega

/-- The frequency table has the bytes that occur for its symbols (R191). -/
theorem map_fst_frequencyTable (input : List Byte) :
    (frequencyTable input).map Prod.fst = alphabet.filter fun s => decide (1 ≤ input.count s) := by
  rw [frequencyTable, List.filter_map, List.map_map]
  exact List.map_id _

theorem mem_map_fst_frequencyTable {input : List Byte} {s : Sym} : s ∈ (frequencyTable input).map Prod.fst ↔ s ∈ input := by
  rw [map_fst_frequencyTable, List.mem_filter, decide_eq_true_eq, List.one_le_count_iff]
  exact and_iff_right (mem_alphabet s)

theorem nodup_map_fst_frequencyTable (input : List Byte) : ((frequencyTable input).map Prod.fst).Nodup := by
  rw [map_fst_frequencyTable]
  exact nodup_alphabet.filter _

/-- The frequency table has as many entries as the input has distinct bytes. -/
theorem length_frequencyTable (input : List Byte) : (frequencyTable input).length = input.toFinset.card := by
  have hset : ((frequencyTable input).map Prod.fst).toFinset = input.toFinset := by
    ext s
    rw [List.mem_toFinset, List.mem_toFinset, mem_map_fst_frequencyTable]
  rw [← hset, List.toFinset_card_of_nodup (nodup_map_fst_frequencyTable input), List.length_map]

/-! ### The order by rank -/

theorem perm_insertByRank (a : Sym × Nat) (l : List (Sym × Nat)) : (insertByRank a l).Perm (a :: l) := by
  induction l with
  | nil => exact .refl _
  | cons b l ih =>
    rw [insertByRank]
    split
    · exact .refl _
    · exact (ih.cons b).trans (.swap a b l)

/-- Sorting by rank only reorders (R193). -/
theorem perm_sortByRank (l : List (Sym × Nat)) : (sortByRank l).Perm l := by
  induction l with
  | nil => exact .refl _
  | cons a l ih => exact (perm_insertByRank a (sortByRank l)).trans (ih.cons a)

/-! ### The codes -/

section
variable (total : Nat) (ranked : List (Sym × Nat))

@[simp] theorem length_assignCodes : (assignCodes total ranked).length = ranked.length := by
  simp [assignCodes]

theorem map_sym_assignCodes : (assignCodes total ranked).map HostEntry.sym = ranked.map Prod.fst := by
  rw [assignCodes, List.map_map]
  conv_rhs => rw [← List.zipIdx_map_fst 0 ranked, List.map_map]
  rfl

/-- The codes are the ranks, counted from 0 (R195). -/
theorem map_code_assignCodes :
    (assignCodes total ranked).map HostEntry.code = (List.range ranked.length).map (BitVec.ofNat 7) := by
  rw [assignCodes, List.map_map, List.range_eq_range', ← List.zipIdx_map_snd 0 ranked, List.map_map]
  rfl

end

/-- Ranks of at most 127 entries are distinct as codes, and none is the sentinel (R196). -/
theorem codes_of_ranks {n : Nat} (hn : n ≤ Config.ncb) :
    ((List.range n).map (BitVec.ofNat 7)).Nodup ∧ Config.sent ∉ (List.range n).map (BitVec.ofNat 7) := by
  have hlt {a : Nat} (ha : a ∈ List.range n) : a < 127 := (List.mem_range.1 ha).trans_le hn
  have hval {a : Nat} (ha : a ∈ List.range n) : (BitVec.ofNat 7 a).toNat = a := by
    have := hlt ha
    rw [BitVec.toNat_ofNat]
    omega
  refine ⟨List.nodup_range.map_on fun a ha b hb h => ?_, fun hmem => ?_⟩
  · rw [← hval ha, ← hval hb, h]
  · obtain ⟨a, ha, hsent⟩ := List.mem_map.1 hmem
    have h127 : a = 127 := by rw [← hval ha, hsent]; rfl
    exact absurd (hlt ha) (by omega)

/-- The codes by rank of at most 127 distinct symbols make a well-formed codebook (R206). -/
theorem wellFormed_assignCodes {total : Nat} {ranked : List (Sym × Nat)} (hl : ranked.length ≤ Config.ncb)
    (hd : (ranked.map Prod.fst).Nodup) : WellFormedCodebook ((assignCodes total ranked).map HostEntry.toEntry) := by
  have hsym : ((assignCodes total ranked).map HostEntry.toEntry).map Entry.sym = ranked.map Prod.fst := by
    rw [List.map_map]; exact map_sym_assignCodes total ranked
  have hcode : ((assignCodes total ranked).map HostEntry.toEntry).map Entry.code = (List.range ranked.length).map (BitVec.ofNat 7) := by
    rw [List.map_map]; exact map_code_assignCodes total ranked
  obtain ⟨hdistinct, hsent⟩ := codes_of_ranks hl
  refine ⟨by rwa [List.length_map, length_assignCodes], by rwa [hsym], by rwa [hcode], fun entry hmem heq => hsent ?_⟩
  rw [← hcode, ← heq]
  exact List.mem_map_of_mem hmem

/-! ### The builder -/

section
variable {input : List Byte}

/-- The codebook of an input: the bytes that occur, in rank order, with their ranks for codes. -/
def builtCodebook (input : List Byte) : List HostEntry := assignCodes input.length (sortByRank (frequencyTable input))

theorem buildCodebook_of_few (hne : input ≠ []) (hcard : input.toFinset.card ≤ Config.ncb) :
    buildCodebook input = .ok (builtCodebook input) := by
  rw [buildCodebook, if_neg hne, if_neg (by rw [length_frequencyTable]; omega), builtCodebook]

theorem wellFormed_builtCodebook (hcard : input.toFinset.card ≤ Config.ncb) :
    WellFormedCodebook ((builtCodebook input).map HostEntry.toEntry) := by
  have hperm := perm_sortByRank (frequencyTable input)
  exact wellFormed_assignCodes (by rwa [hperm.length_eq, length_frequencyTable])
    ((hperm.map _).nodup_iff.2 (nodup_map_fst_frequencyTable input))

/-- The symbols of the built codebook are the bytes that occur. -/
theorem mem_sym_builtCodebook {s : Sym} : s ∈ (builtCodebook input).map HostEntry.sym ↔ s ∈ input := by
  rw [builtCodebook, map_sym_assignCodes, ((perm_sortByRank (frequencyTable input)).map _).mem_iff, mem_map_fst_frequencyTable]

end

end Sys2Proof.Proofs
end

section
/-! SUPPORT. The fields of a record of the codebook file, as the parser reads them (`43_host_codebook.md` R199 to R204). -/

namespace Sys2Proof.Proofs

open Sys2Proof Machine

/-! ### The symbol field -/

theorem hexValue_hexByte (n : BitVec 4) : hexValue (hexByte n) = some n := by revert n; decide

/-- A byte is its two halves. -/
theorem nibbles_append (s : BitVec 8) : s.extractLsb' 4 4 ++ s.extractLsb' 0 4 = s :=
  (BitVec.extractLsb'_append_extractLsb'_eq_extractLsb' rfl).trans (BitVec.extractLsb'_eq_self)

section
variable (isPrintable : Byte → Bool) (s : Sym)

/-- The three shapes of a symbol field: the character, a backslash and one character, or `0x` and two digits (R200). -/
theorem symbolField_cases :
    symbolField isPrintable s = [s] ∨ (∃ c, symbolField isPrintable s = [0x5C#8, c]) ∨
      ∃ h l, symbolField isPrintable s = [0x30#8, 0x78#8, h, l] := by
  unfold symbolField
  split_ifs
  · exact .inr (.inl ⟨_, rfl⟩)
  · exact .inr (.inl ⟨_, rfl⟩)
  · exact .inr (.inl ⟨_, rfl⟩)
  · exact .inr (.inl ⟨_, rfl⟩)
  · exact .inl rfl
  · exact .inr (.inr ⟨_, _, rfl⟩)

theorem unescape_symbolField : unescape (symbolField isPrintable s) = some s := by
  unfold symbolField
  split_ifs with hn hr hq hb hp
  · rw [hn]; rfl
  · rw [hr]; rfl
  · rw [hq]; rfl
  · rw [hb]; rfl
  · rfl
  · simp [unescape, hexValue_hexByte, nibbles_append]

/-- The parser reads a symbol field back as its symbol (R204). -/
theorem parseSymbolField_symbolField : parseSymbolField isPrintable (symbolField isPrintable s) = some s := by
  rw [parseSymbolField, unescape_symbolField]
  exact if_pos rfl

/-- A symbol field has no newline: the newline itself is escaped. -/
theorem newline_notMem_symbolField : 0x0A#8 ∉ symbolField isPrintable s := by
  have hhex : ∀ n, 0x0A#8 ≠ hexByte n := by decide
  unfold symbolField
  split_ifs with hn
  · decide
  · decide
  · decide
  · decide
  · simpa using Ne.symm hn
  · simp [hhex]

end

/-- A backslash alone is no symbol field. -/
theorem parseSymbolField_backslash (isPrintable : Byte → Bool) : parseSymbolField isPrintable [0x5C#8] = none := by
  simp [parseSymbolField, unescape, symbolField]

/-! ### Literals and numbers -/

@[simp] theorem expectText_append (lit text : List Byte) : expectText lit (lit ++ text) = some text := by
  induction lit with
  | nil => cases text <;> rfl
  | cons c lit ih => rw [List.cons_append, expectText, if_pos rfl, ih]

/-- A number is skipped up to the character after its last digit. -/
theorem skipNumber_append {digits : List Byte} (hne : digits ≠ []) (hd : digits.all isDigit = true) {c : Byte} (hc : isDigit c = false)
    (text : List Byte) : skipNumber (digits ++ c :: text) = some (c :: text) := by
  have hall := List.all_eq_true.1 hd
  have htake : (digits ++ c :: text).takeWhile isDigit = digits := by
    rw [List.takeWhile_append_of_pos hall, List.takeWhile_cons_of_neg (by simp [hc]), List.append_nil]
  have hdrop : (digits ++ c :: text).dropWhile isDigit = c :: text := by
    rw [List.dropWhile_append_of_pos hall, List.dropWhile_cons_of_neg (by simp [hc])]
  rw [skipNumber, htake, if_neg hne, hdrop]

/-- A probability field: digits, a point and seven digits (R201). -/
def IsProbability (prob : List Byte) : Prop :=
  ∃ whole frac, whole ≠ [] ∧ whole.all isDigit = true ∧ frac.length = 7 ∧ frac.all isDigit = true ∧ prob = whole ++ [0x2E#8] ++ frac

theorem isProbability_probabilityText (f : ProbFormat) (count total : Nat) : IsProbability (probabilityText f count total) := by
  obtain ⟨whole, frac, heq, hne, hwhole, hlen, hfrac, -⟩ := probabilityText_spec f count total
  exact ⟨whole, frac, hne, hwhole, hlen, hfrac, heq⟩

theorem skipProbability_append {prob : List Byte} (h : IsProbability prob) (text : List Byte) :
    skipProbability (prob ++ text) = some text := by
  obtain ⟨whole, frac, hne, hwhole, hlen, hfrac, rfl⟩ := h
  have hskip : skipNumber (whole ++ [0x2E#8] ++ frac ++ text) = some ([0x2E#8] ++ (frac ++ text)) := by
    rw [List.append_assoc, List.append_assoc]
    exact skipNumber_append hne hwhole (by decide) _
  rw [skipProbability, hskip, Option.bind_some, expectText_append, Option.bind_some, List.take_left' hlen, List.drop_left' hlen,
    if_pos ⟨hlen, hfrac⟩]

/-! ### The code field -/

@[simp] theorem length_codeText (c : Code) : (codeText c).length = 7 := by simp [codeText]

/-- Seven characters `0` or `1` read as the code whose bits they are (R199). -/
theorem parseCodeText_codeText (c : Code) : parseCodeText (codeText c) = some c := by
  have hall : (codeText c).all (fun c => decide (c = 0x30#8) || decide (c = 0x31#8)) = true := by
    rw [codeText, List.all_map, List.all_eq_true]
    rintro (_ | _) _ <;> rfl
  have hbits : (codeText c).map (fun c => decide (c = 0x31#8)) = bitsMSB c := by
    rw [codeText, List.map_map]
    refine (List.map_congr_left ?_).trans (List.map_id _)
    rintro (_ | _) _ <;> rfl
  rw [parseCodeText, if_pos ⟨length_codeText c, hall⟩, hbits, val_bitsMSB, BitVec.ofNat_toNat, BitVec.setWidth_eq]

/-! ### What follows the symbol -/

/-- A record from the symbol's closing quote on, without its newline. -/
def afterSymbolText (count : Nat) (prob : List Byte) (c : Code) : List Byte :=
  [0x22#8, 0x2C#8] ++ (decimalText count ++ ([0x2C#8] ++ (prob ++ ([0x2C#8, 0x22#8] ++ (codeText c ++ [0x22#8])))))

/-- After the symbol the parser finds the code, whatever the count and the probability (R202). -/
theorem parseAfterSymbol_afterSymbolText (count : Nat) {prob : List Byte} (h : IsProbability prob) (c : Code) :
    parseAfterSymbol (afterSymbolText count prob c) = some c := by
  obtain ⟨hne, hdigits, -⟩ := decimalText_spec count
  have hcount (text : List Byte) : skipNumber (decimalText count ++ ([0x2C#8] ++ text)) = some ([0x2C#8] ++ text) :=
    skipNumber_append hne hdigits (by decide) text
  simp only [parseAfterSymbol, afterSymbolText, expectText_append, Option.bind_some, hcount, skipProbability_append h,
    List.take_left' (length_codeText c), List.drop_left' (length_codeText c), parseCodeText_codeText, if_pos]

theorem ne_newline_of_isDigit {c : Byte} (h : isDigit c = true) : c ≠ 0x0A#8 := by
  rintro rfl
  cases h

theorem newline_notMem_digits {digits : List Byte} (h : digits.all isDigit = true) : 0x0A#8 ∉ digits :=
  fun hmem => ne_newline_of_isDigit (List.all_eq_true.1 h _ hmem) rfl

theorem newline_notMem_codeText (c : Code) : 0x0A#8 ∉ codeText c := by
  rw [codeText, List.mem_map]
  rintro ⟨_ | _, -, h⟩ <;> cases h

theorem newline_notMem_afterSymbolText (count : Nat) {prob : List Byte} (h : IsProbability prob) (c : Code) :
    0x0A#8 ∉ afterSymbolText count prob c := by
  obtain ⟨whole, frac, -, hwhole, -, hfrac, rfl⟩ := h
  simp [afterSymbolText, newline_notMem_digits (decimalText_spec count).2.1, newline_notMem_digits hwhole, newline_notMem_digits hfrac,
    newline_notMem_codeText]

end Sys2Proof.Proofs
end

section
/-! SUPPORT. The codebook file reads back: each record is a line, whose symbol field is found at the one width that fits
(`43_host_codebook.md` R198 to R205). -/

namespace Sys2Proof.Proofs

open Sys2Proof Machine

section
variable {isPrintable : Byte → Bool} {prob : List Byte} (count : Nat) (s : Sym) (c : Code)

/-! ### A line as a record -/

/-- What is left of a line after its opening quote. -/
theorem parseRecordWith_quote (n : Nat) (text : List Byte) :
    parseRecordWith isPrintable n (0x22#8 :: text) =
      (parseSymbolField isPrintable (text.take n)).bind fun s => (parseAfterSymbol (text.drop n)).map fun code => ⟨s, code⟩ := by
  have hquote : expectText [0x22#8] (0x22#8 :: text) = some text := expectText_append [0x22#8] text
  rw [parseRecordWith, hquote, Option.bind_some]

/-- At the width of its symbol field a record reads as its entry. -/
theorem parseRecordWith_symbolField (h : IsProbability prob) {n : Nat} (hn : (symbolField isPrintable s).length = n) :
    parseRecordWith isPrintable n (0x22#8 :: (symbolField isPrintable s ++ afterSymbolText count prob c)) = some ⟨s, c⟩ := by
  rw [parseRecordWith_quote, List.take_left' hn, List.drop_left' hn, parseSymbolField_symbolField, parseAfterSymbol_afterSymbolText count h]
  rfl

/-- A line of a record reads as the record's entry: at a width smaller than its symbol field's the line is no record (R204). -/
theorem parseRecord_line (h : IsProbability prob) :
    parseRecord isPrintable (0x22#8 :: (symbolField isPrintable s ++ afterSymbolText count prob c)) = some ⟨s, c⟩ := by
  have hread := fun n => parseRecordWith_symbolField (isPrintable := isPrintable) count s c h (n := n)
  rw [parseRecord]
  obtain hone | ⟨x, htwo⟩ | ⟨hi, lo, hfour⟩ := symbolField_cases isPrintable s
  · rw [hread 1 (by rw [hone]; rfl), Option.some_or, Option.some_or]
  · have h1 : parseRecordWith isPrintable 1 (0x22#8 :: (symbolField isPrintable s ++ afterSymbolText count prob c)) = none := by
      rw [parseRecordWith_quote, htwo, List.cons_append, List.take_succ_cons, List.take_zero, parseSymbolField_backslash]
      rfl
    rw [h1, hread 2 (by rw [htwo]; rfl), Option.none_or, Option.some_or]
  · have h1 : parseRecordWith isPrintable 1 (0x22#8 :: (symbolField isPrintable s ++ afterSymbolText count prob c)) = none := by
      rw [parseRecordWith_quote, hfour]
      change (parseSymbolField isPrintable [0x30#8]).bind (fun _ => none) = none
      exact Option.bind_fun_none _
    have h2 : parseRecordWith isPrintable 2 (0x22#8 :: (symbolField isPrintable s ++ afterSymbolText count prob c)) = none := by
      rw [parseRecordWith_quote, hfour]
      rfl
    rw [h1, h2, hread 4 (by rw [hfour]; rfl)]
    rfl

end

/-! ### The file as lines -/

/-- Text without a newline belongs to the line it stands in, and the newline ends the line. -/
theorem splitLines_append {text : List Byte} (h : 0x0A#8 ∉ text) (line rest : List Byte) :
    splitLines line (text ++ 0x0A#8 :: rest) = (line ++ text) :: splitLines [] rest := by
  induction text generalizing line with
  | nil => simp [splitLines]
  | cons c text ih =>
    rw [List.mem_cons, not_or] at h
    rw [List.cons_append, splitLines, if_neg (Ne.symm h.1), ih h.2, List.append_assoc, List.singleton_append]

theorem recordTextWith_eq (isPrintable : Byte → Bool) (prob : List Byte) (e : HostEntry) :
    recordTextWith isPrintable prob e =
      (0x22#8 :: (symbolField isPrintable e.sym ++ afterSymbolText e.count prob e.code)) ++ [0x0A#8] := by
  simp [recordTextWith, afterSymbolText]

/-- A file of records reads as their entries in order, whatever digits stand in the probability fields (R205). -/
theorem parseCodebookFile_records (isPrintable : Byte → Bool) {prob : Nat → Nat → List Byte} (h : ∀ c n, IsProbability (prob c n))
    (cb : List HostEntry) :
    parseCodebookFile isPrintable (cb.flatMap fun e => recordTextWith isPrintable (prob e.count e.total) e) =
      cb.map HostEntry.toEntry := by
  induction cb with
  | nil => rfl
  | cons e cb ih =>
    have hline : 0x0A#8 ∉ 0x22#8 :: (symbolField isPrintable e.sym ++ afterSymbolText e.count (prob e.count e.total) e.code) := by
      rw [List.mem_cons, List.mem_append, not_or, not_or]
      exact ⟨by decide, newline_notMem_symbolField isPrintable e.sym, newline_notMem_afterSymbolText e.count (h _ _) e.code⟩
    rw [parseCodebookFile, List.flatMap_cons, recordTextWith_eq, List.append_assoc, List.singleton_append, splitLines_append hline,
      List.nil_append, List.filterMap_cons_some (parseRecord_line e.count e.sym e.code (h _ _)), List.map_cons]
    exact congrArg _ ih

theorem parseCodebookFile_codebookFile (isPrintable : Byte → Bool) (f : ProbFormat) (cb : List HostEntry) :
    parseCodebookFile isPrintable (codebookFile isPrintable f cb) = cb.map HostEntry.toEntry :=
  parseCodebookFile_records isPrintable (fun count total => isProbability_probabilityText f count total) cb

/-- Settles O47: the built codebook is well formed and has the input's bytes for symbols, its file reads back as it, and a block with a
well-formed codebook gives its symbols back. -/
theorem endToEndRoundTrip : Obligations.EndToEndRoundTrip := by
  intro s isPrintable f input hne hcard
  have hsyms (x : Sym) (hx : x ∈ input) : x ∈ ((builtCodebook input).map HostEntry.toEntry).map Entry.sym := by
    rw [List.map_map]
    exact mem_sym_builtCodebook.2 hx
  obtain ⟨t, u, hencode, hdecode, hclean, -, -, hdone, hout⟩ :=
    blockRoundTrip_of_ne_nil (wellFormed_builtCodebook hcard) hsyms hne s
  exact ⟨_, t, u, buildCodebook_of_few hne hcard, hencode, by rwa [parseCodebookFile_codebookFile], hclean, hdone, hout⟩

end Sys2Proof.Proofs
end

section
/-! SUPPORT. What the serializer writes of a symbol and of a codebook, the parser reads back (`43_host_codebook.md` R198 to R205). -/

namespace Sys2Proof.Proofs

open Sys2Proof Machine

/-- Settles O45: the reverse mapping finds the byte by the shape of its field, and the field is the one the serializer writes for it. -/
theorem symbolEscapingRoundTrip : Obligations.SymbolEscapingRoundTrip := parseSymbolField_symbolField

/-- Settles O46: the lines of a file of records are its records, whatever digits stand in the probability fields. -/
theorem codebookFileRoundTrip : Obligations.CodebookFileRoundTrip :=
  fun isPrintable cb => ⟨fun f => parseCodebookFile_codebookFile isPrintable f cb, fun _ hprob => parseCodebookFile_records isPrintable hprob cb⟩

end Sys2Proof.Proofs
end

section
/-! SUPPORT. The entries of a built codebook: their order, their counts and their codes, and when the builder reports instead
(`43_host_codebook.md` R191 to R197, R206). -/

namespace Sys2Proof.Proofs

open Sys2Proof Machine

/-! ### The order by rank -/

theorem rankLe_iff {a b : Sym × Nat} : rankLe a b = true ↔ a.2 < b.2 ∨ (a.2 = b.2 ∧ a.1 ≤ b.1) := decide_eq_true_iff

theorem rankLe_total (a b : Sym × Nat) : rankLe a b = true ∨ rankLe b a = true := by
  simp only [rankLe_iff]
  bv_omega

theorem rankLe_trans {a b c : Sym × Nat} (hab : rankLe a b = true) (hbc : rankLe b c = true) : rankLe a c = true := by
  simp only [rankLe_iff] at *
  bv_omega

/-- Different symbols are in rank order strictly (R193). -/
theorem lt_of_rankLe {a b : Sym × Nat} (h : rankLe a b = true) (hne : a.1 ≠ b.1) : a.2 < b.2 ∨ (a.2 = b.2 ∧ a.1 < b.1) := by
  rw [rankLe_iff] at h
  bv_omega

theorem insertByRank_eq_orderedInsert (a : Sym × Nat) (l : List (Sym × Nat)) :
    insertByRank a l = l.orderedInsert (fun x y => rankLe x y = true) a := by
  induction l with
  | nil => rfl
  | cons b l ih => rw [insertByRank, List.orderedInsert_cons, ih]

/-- Sorting by rank is insertion sort. -/
theorem sortByRank_eq_insertionSort (l : List (Sym × Nat)) :
    sortByRank l = l.insertionSort (fun x y => rankLe x y = true) := by
  induction l with
  | nil => rfl
  | cons a l ih => rw [List.insertionSort_cons, ← ih, ← insertByRank_eq_orderedInsert]; rfl

theorem pairwise_sortByRank (l : List (Sym × Nat)) : (sortByRank l).Pairwise fun x y => rankLe x y = true := by
  have htotal : Std.Total fun x y : Sym × Nat => rankLe x y = true := ⟨rankLe_total⟩
  have htrans : IsTrans (Sym × Nat) fun x y => rankLe x y = true := ⟨fun _ _ _ => rankLe_trans⟩
  rw [sortByRank_eq_insertionSort]
  exact List.pairwise_insertionSort _ l

/-! ### The entries -/

/-- The table gives a symbol its count, which is not zero (R191). -/
theorem count_of_mem_frequencyTable {input : List Byte} {p : Sym × Nat} (h : p ∈ frequencyTable input) :
    p.2 = input.count p.1 ∧ 1 ≤ p.2 := by
  obtain ⟨hmem, hpos⟩ := List.mem_filter.1 h
  obtain ⟨s, -, rfl⟩ := List.mem_map.1 hmem
  exact ⟨rfl, of_decide_eq_true hpos⟩

/-- The symbol and the count of an entry, by which it is ranked. -/
def rankKey (e : HostEntry) : Sym × Nat := (e.sym, e.count)

theorem map_rankKey_assignCodes (total : Nat) (ranked : List (Sym × Nat)) : (assignCodes total ranked).map rankKey = ranked := by
  rw [assignCodes, List.map_map]
  exact List.zipIdx_map_fst 0 ranked

theorem total_of_mem_assignCodes {total : Nat} {ranked : List (Sym × Nat)} {e : HostEntry} (h : e ∈ assignCodes total ranked) :
    e.total = total := by
  obtain ⟨_, -, rfl⟩ := List.mem_map.1 h
  rfl

theorem code_getElem_assignCodes {total : Nat} {ranked : List (Sym × Nat)} {n : Nat} (h : n < (assignCodes total ranked).length) :
    (assignCodes total ranked)[n].code = BitVec.ofNat 7 n := by
  simp [assignCodes]

section
variable {input : List Byte}

/-- The counts are the occurrences of the symbols, and the total is the number of bytes (R191, R194). -/
theorem count_of_mem_builtCodebook {e : HostEntry} (h : e ∈ builtCodebook input) :
    e.count = input.count e.sym ∧ 1 ≤ e.count ∧ e.total = input.length := by
  have hkey : rankKey e ∈ sortByRank (frequencyTable input) := by
    rw [← map_rankKey_assignCodes input.length (sortByRank _)]
    exact List.mem_map_of_mem h
  obtain ⟨hcount, hpos⟩ := count_of_mem_frequencyTable ((perm_sortByRank _).mem_iff.1 hkey)
  exact ⟨hcount, hpos, total_of_mem_assignCodes h⟩

/-- The entries stand in rank order, strictly: no symbol is in two of them (R193). -/
theorem pairwise_builtCodebook (input : List Byte) :
    (builtCodebook input).Pairwise fun a b => a.count < b.count ∨ (a.count = b.count ∧ a.sym < b.sym) := by
  have hranked := pairwise_sortByRank (frequencyTable input)
  have hdistinct : (sortByRank (frequencyTable input)).Pairwise fun a b => a.1 ≠ b.1 :=
    List.pairwise_map.1 (((perm_sortByRank _).map _).nodup_iff.2 (nodup_map_fst_frequencyTable input))
  have hstrict := hranked.imp₂ (fun _ _ => lt_of_rankLe) hdistinct
  rwa [← map_rankKey_assignCodes input.length (sortByRank _), List.pairwise_map] at hstrict

/-- The code of rank `n` is `n` (R195). -/
theorem code_builtCodebook (hcard : input.toFinset.card ≤ Config.ncb) {n : Nat} (h : n < (builtCodebook input).length) :
    (builtCodebook input)[n].code.toNat = n := by
  have hlen : (builtCodebook input).length ≤ Config.ncb := by simpa using (wellFormed_builtCodebook hcard).1
  have hlt : n < 127 := h.trans_le hlen
  have hcode : (builtCodebook input)[n].code = BitVec.ofNat 7 n := code_getElem_assignCodes h
  rw [hcode, BitVec.toNat_ofNat]
  omega

/-! ### What the builder answers -/

theorem buildCodebook_nil : buildCodebook [] = .error .emptyInput := rfl

theorem buildCodebook_of_many (hcard : Config.ncb < input.toFinset.card) : buildCodebook input = .error .tooManySymbols := by
  have hne : input ≠ [] := by
    rintro rfl
    cases hcard
  rw [buildCodebook, if_neg hne, if_pos (by rwa [length_frequencyTable])]

/-- The builder reports an empty input, or too many symbols, or gives the codebook (R192, R197). -/
theorem buildCodebook_cases (input : List Byte) :
    (input = [] ∧ buildCodebook input = .error .emptyInput) ∨
    (Config.ncb < input.toFinset.card ∧ buildCodebook input = .error .tooManySymbols) ∨
    (input ≠ [] ∧ input.toFinset.card ≤ Config.ncb ∧ buildCodebook input = .ok (builtCodebook input)) := by
  by_cases hne : input = []
  · exact .inl ⟨hne, by rw [hne, buildCodebook_nil]⟩
  · by_cases hcard : input.toFinset.card ≤ Config.ncb
    · exact .inr (.inr ⟨hne, hcard, buildCodebook_of_few hne hcard⟩)
    · exact .inr (.inl ⟨not_le.1 hcard, buildCodebook_of_many (not_le.1 hcard)⟩)

/-- A codebook the builder gives is the built one, of at most 127 distinct bytes. -/
theorem eq_builtCodebook {cb : List HostEntry} (h : buildCodebook input = .ok cb) :
    input.toFinset.card ≤ Config.ncb ∧ cb = builtCodebook input := by
  obtain ⟨-, hbuild⟩ | ⟨-, hbuild⟩ | ⟨-, hcard, hbuild⟩ := buildCodebook_cases input
  · cases hbuild.symm.trans h
  · cases hbuild.symm.trans h
  · cases hbuild.symm.trans h
    exact ⟨hcard, rfl⟩

theorem buildCodebook_eq_emptyInput : buildCodebook input = .error .emptyInput ↔ input = [] := by
  obtain ⟨hnil, hbuild⟩ | ⟨hcard, hbuild⟩ | ⟨hne, -, hbuild⟩ := buildCodebook_cases input
  · exact iff_of_true hbuild hnil
  · refine iff_of_false (by simp [hbuild]) ?_
    rintro rfl
    cases hcard
  · exact iff_of_false (by simp [hbuild]) hne

theorem buildCodebook_eq_tooManySymbols : buildCodebook input = .error .tooManySymbols ↔ 127 < input.toFinset.card := by
  refine ⟨fun h => ?_, buildCodebook_of_many⟩
  obtain ⟨-, hbuild⟩ | ⟨hcard, -⟩ | ⟨-, -, hbuild⟩ := buildCodebook_cases input
  · cases hbuild.symm.trans h
  · exact hcard
  · cases hbuild.symm.trans h

end

/-- Settles O44: the codebook given is the built one, which sorts the frequency table by rank and counts the ranks. -/
theorem builderGivesAWellFormedCodebook : Obligations.BuilderGivesAWellFormedCodebook := by
  refine fun input => ⟨fun cb h => ?_, buildCodebook_eq_emptyInput, buildCodebook_eq_tooManySymbols⟩
  obtain ⟨hcard, rfl⟩ := eq_builtCodebook h
  refine ⟨wellFormed_builtCodebook hcard, fun _ => mem_sym_builtCodebook, fun e he => ?_, fun _ => code_builtCodebook hcard,
    pairwise_builtCodebook input⟩
  obtain ⟨hcount, -, htotal⟩ := count_of_mem_builtCodebook he
  exact ⟨hcount, htotal⟩

end Sys2Proof.Proofs
end

section
/-! SUPPORT. The probability is the quotient rounded to a neighbour, so at most 1 (`43_host_codebook.md` R194, R201). -/

namespace Sys2Proof.Proofs

open Sys2Proof Machine

/-- Rounded up or down, the quotient is off by less than one unit. -/
theorem units_bounds (f : ProbFormat) (count : Nat) {total : Nat} (h : 0 < total) :
    f.units count total * total < count * 10 ^ 7 + total ∧ count * 10 ^ 7 < (f.units count total + 1) * total := by
  have hdiv := Nat.div_add_mod' (count * 10 ^ 7) total
  have hmod := Nat.mod_lt (count * 10 ^ 7) h
  rw [ProbFormat.units]
  split_ifs with hup
  · obtain ⟨-, hrest⟩ := hup
    simp only [Nat.add_mul, Nat.one_mul]
    omega
  · simp only [Nat.add_mul, Nat.one_mul]
    omega

/-- A part of the total is at most all of it. -/
theorem units_le (f : ProbFormat) {count total : Nat} (hpos : 0 < total) (hle : count ≤ total) : f.units count total ≤ 10 ^ 7 := by
  have hunits : f.units count total * total < (10 ^ 7 + 1) * total :=
    calc f.units count total * total < count * 10 ^ 7 + total := (units_bounds f count hpos).1
      _ ≤ (10 ^ 7 + 1) * total := by omega
  exact Nat.lt_succ_iff.1 (Nat.lt_of_mul_lt_mul_right hunits)

/-- Settles O52: the digits of a field stand for the number written, which for the probability is the rounded quotient. -/
theorem probabilityFieldIsTheQuotient : Obligations.ProbabilityFieldIsTheQuotient := by
  refine ⟨fun n => (decimalText_spec n).2, fun f count total hpos hle => ?_, fun input cb h e he => ?_⟩
  · obtain ⟨whole, frac, htext, hne, hwhole, hlen, hfrac, hvalue⟩ := probabilityText_spec f count total
    obtain ⟨hupper, hlower⟩ := units_bounds f count (total := total) (by omega)
    refine ⟨whole, frac, htext, hne, hwhole, hlen, hfrac, ?_⟩
    rw [hvalue]
    exact ⟨units_le f (by omega) hle, hupper, hlower⟩
  · obtain ⟨-, rfl⟩ := eq_builtCodebook h
    obtain ⟨hcount, hpos, htotal⟩ := count_of_mem_builtCodebook he
    rw [htotal]
    exact ⟨hpos, hcount ▸ List.count_le_length⟩

end Sys2Proof.Proofs
end

section
/-! SUPPORT. The two programs on two blocks: what one writes, the other reads (`43_host_codebook.md` R208, `70_reset_and_hazards.md` R273, R274). -/

namespace Sys2Proof.Proofs

open Sys2Proof Machine

/-- The codes of a table's symbols: one or more codes of the table, which find the symbols again. -/
structure CodesFor (cb : List Entry) (syms : List Sym) (codes : List Code) : Prop where
  ne_nil : codes ≠ []
  mem : ∀ c ∈ codes, c ∈ cb.map Entry.code
  lookup : codes.map (lookupCode cb) = syms.map some

/-- An encode run of a well-formed codebook's symbols ends in FIN with the stream of their codes, as long as the length law says. -/
theorem afterHost_encodeRun {cb : List Entry} {syms : List Sym} (hcb : WellFormedCodebook cb) (hs : ∀ x ∈ syms, x ∈ cb.map Entry.sym)
    (hne : syms ≠ []) (s : State) :
    ∃ t codes, State.afterHost { s with host := encodeRun cb syms } = .next t ∧ t.enc.state = .fin ∧ t.enc.fcause = .none ∧
      t.enc.out = bitstream codes ∧ LengthLaw syms.length t.enc.out ∧ CodesFor cb syms codes := by
  obtain ⟨codes, hsym, hcode, hmem⟩ := exists_codes_of_syms hcb hs
  have hlen : syms.length = codes.length := by simpa using congrArg List.length hsym
  have hnec : codes ≠ [] := List.ne_nil_of_length_pos (hlen ▸ List.length_pos_iff.2 hne)
  have hpush : (syms.map Instr.encSym).map (pushedCode cb) = codes.map some := by rw [List.map_map]; exact hsym
  obtain ⟨t, hrun, hfin, hcause, -, -, hout, hbytes, -⟩ :=
    encodeRunGivesTheBitstream s cb (syms.map .encSym) codes hcb.1 hcb.2.2.2 hpush hnec
  refine ⟨t, codes, hrun, hfin, hcause, hout, ?_, hnec, hmem, hcode⟩
  rw [LengthLaw, hbytes, hlen, Nat.mul_comm]

section
variable (isPrintable : Byte → Bool) (f : ProbFormat)

/-- The decoder program on the file of a well-formed codebook and the stream of its symbols' codes gives the symbols (R274). -/
theorem decodeFiles_of_codesFor {cb : List HostEntry} {syms : List Sym} {codes : List Code}
    (hcb : WellFormedCodebook (cb.map HostEntry.toEntry)) (h : CodesFor (cb.map HostEntry.toEntry) syms codes) (s : State) :
    decodeFiles isPrintable s ⟨codebookFile isPrintable f cb, bitstream codes⟩ = .ok syms := by
  obtain ⟨⟨t, hrun, hdone, hcause, hout, -⟩, -⟩ := wellFormedStreamDecodes s _ codes [] hcb h.ne_nil h.mem
  rw [List.append_nil] at hrun
  have hsyms : t.dec.out = syms := by
    rw [h.lookup] at hout
    exact List.map_injective_iff.2 (Option.some_injective Sym) hout
  rw [decodeFiles, parseCodebookFile_codebookFile, collect_eq_ok]
  exact ⟨t, hrun, t.decFinished_iff.2 ⟨.inl hdone, hcause⟩, hsyms⟩

/-- The encoder program on a codebook and a run that ends well writes the codebook's file and the run's bytes (R273). -/
theorem encodeFiles_of_run {s t : State} {input : List Byte} {cb : List HostEntry} (hbuild : buildCodebook input = .ok cb)
    (hrun : State.afterHost { s with host := encodeRun (cb.map HostEntry.toEntry) input } = .next t) (hfin : t.enc.state = .fin)
    (hcause : t.enc.fcause = .none) : encodeFiles isPrintable f s input = .ok ⟨codebookFile isPrintable f cb, t.enc.out⟩ := by
  have hcollect : collect StatusOutputs.encFinished (fun t => t.enc.out) (.next t) = .ok t.enc.out :=
    collect_eq_ok.2 ⟨t, rfl, t.encFinished_iff.2 ⟨hfin, hcause⟩, rfl⟩
  rw [encodeFiles, hbuild, Except.bind, hrun, hcollect, Except.map]

/-- What the builder reports, the encoder program reports (R192, R197). -/
theorem encodeFiles_of_error {input : List Byte} {err : HostError} (hbuild : buildCodebook input = .error err) (s : State) :
    encodeFiles isPrintable f s input = .error err := by
  rw [encodeFiles, hbuild]
  rfl

/-- An input that is not empty and has at most 127 distinct bytes is written as two files that read back as it, the bitstream file as long
as the length law says. -/
theorem roundTrips_of_few {input : List Byte} (hne : input ≠ []) (hcard : input.toFinset.card ≤ Config.ncb) (s s' : State) :
    RoundTrips isPrintable f s s' input ∧
      ∃ files, encodeFiles isPrintable f s input = .ok files ∧ LengthLaw input.length files.bitstream := by
  have hwf := wellFormed_builtCodebook hcard
  have hsyms (x : Sym) (hx : x ∈ input) : x ∈ ((builtCodebook input).map HostEntry.toEntry).map Entry.sym := by
    rw [List.map_map]
    exact mem_sym_builtCodebook.2 hx
  obtain ⟨t, codes, hrun, hfin, hcause, hout, hlength, hcodes⟩ := afterHost_encodeRun hwf hsyms hne s
  have hfiles := encodeFiles_of_run isPrintable f (buildCodebook_of_few hne hcard) hrun hfin hcause
  refine ⟨?_, _, hfiles, hlength⟩
  rw [RoundTrips, hfiles, hout, Except.bind]
  exact decodeFiles_of_codesFor isPrintable f hwf hcodes s'

end

/-- A built codebook's codes are distinct and seven characters long, count the ranks, and leave out the sentinel (R208). -/
theorem codebookProperties_of_buildCodebook {input : List Byte} {cb : List HostEntry} (h : buildCodebook input = .ok cb) :
    CodesUnique cb ∧ RankOrdered cb ∧ SentinelExclusive cb := by
  obtain ⟨⟨-, -, hcodes, hsent⟩, -, -, hranks, horder⟩ := (builderGivesAWellFormedCodebook input).1 cb h
  refine ⟨⟨?_, fun e _ => length_codeText e.code⟩, ⟨horder.imp fun hlt => ?_, hranks⟩,
    fun e he => hsent e.toEntry (List.mem_map_of_mem he)⟩
  · rw [List.map_map] at hcodes
    exact hcodes
  · obtain hcount | ⟨hcount, hsym⟩ := hlt
    · exact ⟨hcount.le, fun heq => absurd heq hcount.ne⟩
    · exact ⟨hcount.le, fun _ => BitVec.le_of_lt hsym⟩

/-- Settles O51: the builder's codebook is well formed, so that the run of one block writes a stream the other decodes, and the builder's
reports are the program's. -/
theorem endToEndPropertiesOfTheSource : Obligations.EndToEndPropertiesOfTheSource :=
  fun isPrintable f s s' _ => ⟨symbolEscapingRoundTrip isPrintable, fun _ => codebookProperties_of_buildCodebook,
    fun hne hcard => roundTrips_of_few isPrintable f hne hcard s s',
    fun hnil => encodeFiles_of_error isPrintable f (buildCodebook_eq_emptyInput.2 hnil) s,
    fun hcard => encodeFiles_of_error isPrintable f (buildCodebook_of_many hcard) s⟩

end Sys2Proof.Proofs
end

section
/-! SUPPORT. The front end of every command, and a unit in FAULT: every word but its own reset leaves it as it is
(`60_exceptions.md` R232, R235, R236, R246). -/

namespace Sys2Proof.Proofs

open Sys2Proof Machine

/-- Settles O9: a step on an empty host answers the state it was taken in. -/
theorem idleBlockHoldsItsState : Obligations.IdleBlockHoldsItsState := fun _ => step_of_nil

/-- Settles O7: the reset, the discard in FAULT and the illegal word are what accepting the word does to its unit; any other word is its command. -/
theorem frontEndOfEveryCommand : Obligations.FrontEndOfEveryCommand := by
  intro s w rest
  refine ⟨fun hhost => ⟨fun hd => ?encReset, fun hd hs => ?encFault, fun e hd hs => ?encIllegal, fun i hd _ _ => ?encRuns⟩,
    fun hhost => ⟨fun hd => ?decReset, fun hd hs => ?decFault, fun e hd hs => ?decIllegal, fun i hd _ _ => ?decRuns⟩⟩
  case encReset => rw [step_of_cons hhost, encEvent, encAccept_of_ok hd]; rfl
  case encFault => rw [step_of_cons hhost, encEvent, encAccept_of_fault hs hd]; rfl
  case encIllegal => rw [step_of_illegal_enc hd hhost, if_neg hs]; rfl
  case encRuns => exact stepRunsTheDecodedCommand s .enc w rest i hhost hd
  case decReset => rw [step_of_cons hhost, decEvent, decAccept_of_ok hd]; exact ⟨_, rfl⟩
  case decFault => rw [step_of_cons hhost, decEvent, decAccept_of_fault hs hd]; rfl
  case decIllegal => rw [step_of_illegal_dec hd hhost, if_neg hs]; rfl
  case decRuns => exact stepRunsTheDecodedCommand s .dec w rest i hhost hd

section
variable {p : Port} {w : Word} {e : EncUnit} {d : DecUnit}

theorem encEvent_of_fault (hs : e.state = .fault) (hw : p = .enc → decode .enc w ≠ .ok .encReset) : encEvent (.cmd p w) e = e := by
  cases p with
  | enc => exact encAccept_of_fault hs (hw rfl)
  | dec => rfl

theorem decEvent_of_fault (hs : d.state = .fault) (hw : p = .dec → decode .dec w ≠ .ok .decReset) : decEvent (.cmd p w) d = d := by
  cases p with
  | enc => rfl
  | dec => exact decAccept_of_fault hs (hw rfl)

end

/-- Events none of which changes a state leave it as it is, whatever their number. -/
theorem foldl_eq_of_fixed {α β : Type} {f : β → α → α} {evs : List β} {a : α} (h : ∀ ev ∈ evs, f ev a = a) :
    evs.foldl (fun x ev => f ev x) a = a :=
  List.foldlRecOn (motive := (· = a)) evs _ rfl fun x hx ev hev => by rw [hx]; exact h ev hev

/-- Settles O28: a run is each event's effect on each unit in order, and each of these words has none on the unit in FAULT. -/
theorem faultStaysUntilReset : Obligations.FaultStaysUntilReset := by
  refine ⟨fun s evs hs hevs => ⟨_, State.afterHost_eq _, foldl_eq_of_fixed fun ev hev => ?enc⟩,
    fun s evs hs hevs => ⟨_, State.afterHost_eq _, foldl_eq_of_fixed fun ev hev => ?dec⟩⟩
  case enc =>
    obtain ⟨p, w, rfl, hw⟩ := hevs ev hev
    exact encEvent_of_fault hs hw
  case dec =>
    obtain ⟨p, w, rfl, hw⟩ := hevs ev hev
    exact decEvent_of_fault hs hw

end Sys2Proof.Proofs
end

section
/-! SUPPORT. Fault entry by a command: what it changes, and from which command, in which state and with which cause it comes
(`60_exceptions.md` R230, R233, R234). -/

namespace Sys2Proof.Proofs

open Sys2Proof Machine

/-! ### What fault entry changes -/

section
variable {i : Instr} {c : Cause}

/-- A command that puts ENC in FAULT does so by fault entry alone. -/
theorem encCan_to_fault {e e' : EncUnit} (h : EncCan i e e') (hs : e.state ≠ .fault) (hf : e'.state = .fault) :
    ∃ c, i.port = .enc ∧ i ≠ .encReset ∧ EncFaults i e c ∧ e' = e.raise c (encode i) := by
  cases h with
  | faulted c hi _ hc => exact ⟨c, hi.1, hi.2, hc, rfl⟩
  | otherUnit | discarded | loaded => exact absurd hf hs
  | reset | pushed | finishedEmpty | finished => cases hf

/-- A command that puts DEC in FAULT does so by fault entry alone, or is a byte in an open run, whose earlier bits have had their effect. -/
theorem decCan_to_fault {d d' : DecUnit} (h : DecCan i d d') (hs : d.state ≠ .fault) (hf : d'.state = .fault) :
    (∃ c, i.port = .dec ∧ i ≠ .decReset ∧ DecFaults i d c ∧ d' = d.raise c (encode i)) ∨
    (d'.fcause = .bufOverflow ∧ (d.state = .idle ∨ d.state = .run) ∧ ∃ byte, i = .decByte byte) := by
  cases h with
  | faulted c hi _ hc => exact .inl ⟨c, hi.1, hi.2, hc, rfl⟩
  | overflowed byte buf out rc hi hopen => exact .inr ⟨rfl, hopen, byte, hi⟩
  | otherUnit | discarded | ignored | loaded => exact absurd hf hs
  | delivered byte buf out st rc hi hopen hst => obtain rfl | ⟨rfl, -⟩ := hst <;> cases hf
  | reset | finished => cases hf

theorem encFaults_ne_none {e : EncUnit} (h : EncFaults i e c) : c ≠ .none := by
  cases h <;> nofun

theorem decFaults_ne_none {d : DecUnit} (h : DecFaults i d c) : c ≠ .none := by
  cases h <;> nofun

end

/-- Settles O27: outside `DEC.BYTE` fault entry is all that can lead to FAULT, and the command names one unit only. -/
theorem faultEntryIsPrecise : Obligations.FaultEntryIsPrecise := by
  intro i s t hbyte h
  obtain rfl := exec_eq_next h
  refine ⟨fun hs hf => ?_, fun hs hf => ?_⟩
  · obtain ⟨c, hport, -, hc, heq⟩ := encCan_to_fault (encEffect_can i s.enc) hs hf
    simp only [heq, decEffect_of_enc hport]
    exact ⟨encFaults_ne_none hc, rfl⟩
  · obtain ⟨c, hport, -, hc, heq⟩ | ⟨-, -, byte, hi⟩ := decCan_to_fault (decEffect_can i s.dec) hs hf
    · simp only [heq, encEffect_of_dec hport]
      exact ⟨decFaults_ne_none hc, rfl⟩
    · exact absurd hi (hbyte byte)

/-! ### Where each cause comes from -/

/-- The causes of ENC's faults, each with its commands and its condition, as the table of R230 groups them. -/
theorem encFaults_cases {i : Instr} {e : EncUnit} {c : Cause} (hport : i.port = .enc) (hreset : i ≠ .encReset) (h : EncFaults i e c) :
    (c = .illegalState ∧ i.port = .enc ∧
      (((∃ sym code, i = .encLoad sym code) ∧ (e.state = .pack ∨ e.state = .fin)) ∨ (i ≠ .encReset ∧ e.state = .fin))) ∨
    (c = .codeSentinel ∧ ((∃ sym, i = .encLoad sym Config.sent) ∨ i = .encCode Config.sent)) ∨
    (c = .cbFull ∧ e.cb.length = Config.ncb ∧ ∃ sym code, i = .encLoad sym code) ∨
    (c = .symUnmapped ∧ ∃ sym, i = .encSym sym ∧ ∀ entry ∈ e.cb, entry.sym ≠ sym) := by
  cases h with
  | loadInPack sym code hi hs => exact .inl ⟨rfl, hport, .inl ⟨⟨sym, code, hi⟩, .inl hs⟩⟩
  | runOver hs => exact .inl ⟨rfl, hport, .inr ⟨hreset, hs⟩⟩
  | loadSentinel sym hi => exact .inr (.inl ⟨rfl, .inl ⟨sym, hi⟩⟩)
  | pushSentinel hi => exact .inr (.inl ⟨rfl, .inr hi⟩)
  | loadFull sym code hi hs hc hl => exact .inr (.inr (.inl ⟨rfl, of_decide_eq_true hl, sym, code, hi⟩))
  | pushUnmapped sym hi hs hl =>
    obtain ⟨-, hnone, -, -⟩ := lookupsTakeTheLowestIndex e.cb
    exact .inr (.inr (.inr ⟨rfl, sym, hi, (hnone sym).1 hl⟩))

theorem decState_late {st : DecState} (hfault : st ≠ .fault) (hidle : st ≠ .idle) : st = .run ∨ st = .done ∨ st = .ended := by
  cases st <;> simp_all

/-- The causes of DEC's faults before a bit is delivered, each with its commands and its condition, as the table of R230 groups them. -/
theorem decFaults_cases {i : Instr} {d : DecUnit} {c : Cause} (hport : i.port = .dec) (hreset : i ≠ .decReset) (hs : d.state ≠ .fault)
    (h : DecFaults i d c) :
    (c = .illegalState ∧ i.port = .dec ∧
      (((∃ sym code, i = .decLoad sym code) ∧ (d.state = .run ∨ d.state = .done ∨ d.state = .ended)) ∨
        (i ≠ .decReset ∧ d.state = .ended))) ∨
    (c = .codeSentinel ∧ ∃ sym, i = .decLoad sym Config.sent) ∨
    (c = .cbFull ∧ d.cb.length = Config.ncb ∧ ∃ sym code, i = .decLoad sym code) := by
  cases h with
  | loadLate sym code hi hidle => exact .inl ⟨rfl, hport, .inl ⟨⟨sym, code, hi⟩, decState_late hs hidle⟩⟩
  | runOver hended => exact .inl ⟨rfl, hport, .inr ⟨hreset, hended⟩⟩
  | loadSentinel sym hi => exact .inr (.inl ⟨rfl, sym, hi⟩)
  | loadFull sym code hi hidle hc hl => exact .inr (.inr ⟨rfl, of_decide_eq_true hl, sym, code, hi⟩)

/-- The loop of `DEC.BYTE` faults only on a full buffer, which it leaves as it is (`42_decoder.md` R155). -/
theorem feedBits_buf_of_fault {cap : Nat} {cw : Word} {byte : Byte} {n : Nat} {d : DecUnit} (hs : d.state ≠ .fault)
    (hf : (d.feedBits cap cw byte n).state = .fault) : (d.feedBits cap cw byte n).buf.length = cap := by
  induction n generalizing d with
  | zero => exact absurd hf hs
  | succ n ih =>
    by_cases hrun : d.state = .run
    · rw [DecUnit.feedBits_succ_of_run n hrun] at hf ⊢
      obtain ⟨buf, out, st, heq, hst, -⟩ | ⟨hfull, heq⟩ :=
        DecUnit.decBit_cases cap cw (byte.getLsbD n) { d with rcnt := d.rcnt - 1#4 } hrun
      · refine ih ?_ hf
        rw [heq]
        obtain rfl | ⟨rfl, -⟩ := hst <;> nofun
      · rw [heq, DecUnit.feedBits_of_not_run n (by simp)]
        exact hfull
    · rw [DecUnit.feedBits_of_not_run (n + 1) hrun] at hf
      exact absurd hf hs

/-- A byte that puts an open run in FAULT has found the buffer full. -/
theorem decEffect_byte_buf_of_fault {d : DecUnit} {byte : Byte} (hs : d.state = .idle ∨ d.state = .run)
    (hf : (decEffect (.decByte byte) d).state = .fault) : (decEffect (.decByte byte) d).buf.length = Config.bufCap := by
  rw [decEffect_byte_of_open byte hs, byte_of_open hs] at hf ⊢
  exact feedBits_buf_of_fault nofun hf

/-- Settles O29: a command faults by fault entry, whose causes are R230's, or is a byte that found the buffer full. -/
theorem causesOfEachCommand : Obligations.CausesOfEachCommand := by
  intro i s t h
  obtain rfl := exec_eq_next h
  refine ⟨fun hs hf => ?_, fun hs hf => ?_⟩
  · obtain ⟨c, hport, hreset, hc, heq⟩ := encCan_to_fault (encEffect_can i s.enc) hs hf
    simp only [heq]
    exact encFaults_cases hport hreset hc
  · obtain ⟨c, hport, hreset, hc, heq⟩ | ⟨hcause, hopen, byte, rfl⟩ := decCan_to_fault (decEffect_can i s.dec) hs hf
    · simp only [heq]
      exact (decFaults_cases hport hreset hs hc).imp_right (·.imp_right .inl)
    · exact .inr (.inr (.inr ⟨hcause, decEffect_byte_buf_of_fault hopen hf, byte, rfl⟩))

end Sys2Proof.Proofs
end

section
/-! SUPPORT. Progress: every step answers a next state and takes one host event (`70_reset_and_hazards.md` R284, R287). -/

namespace Sys2Proof.Proofs

open Sys2Proof Machine

/-- Settles O10: with no host event the state stays as it is (log 2); an event takes its effect on each unit and is taken,
no output item waiting on the host (log 8). -/
theorem everyStepAnswersNext : Obligations.EveryStepAnswersNext := by
  intro s
  cases hhost : s.host with
  | nil => exact ⟨s, step_of_nil hhost, hhost⟩
  | cons ev rest => exact ⟨_, step_of_cons hhost, rfl⟩

end Sys2Proof.Proofs
end
